-- ==== Sys2Proof/Word.lean ====
section
/-! DEFINITION. The words of the block: bytes, frames, tick samples, element patterns and timestamps. -/
namespace Sys2Proof

/-- A byte (00_scope.md R11). -/
abbrev Byte := BitVec 8

/-- A frame is a byte list (30_encoding.md R67). -/
abbrev Frame := List Byte

/-- A raw sample of the 30-bit microsecond counter (42_clock.md R120). -/
abbrev Tick := BitVec 30

/-- A payload or register element: a bit pattern of `8 × size` bits (10_state.md R23), held in the low bits of a
64-bit word whose other bits are 0 (log 11). -/
abbrev Pattern := BitVec 64

/-- A timestamp: seconds and 32 µs micro-ticks (30_encoding.md R77). -/
structure Stamp where
  sec : BitVec 32
  ticks : BitVec 16
deriving DecidableEq, Repr

end Sys2Proof
end

