-- ==== Sys2Proof/Config.lean ====
section
/-! DEFINITION. The configuration record `Cfg` of 00_scope.md R7, the types of what it lists, and the free values. -/
namespace Sys2Proof

/-- The variant of a register cell (10_state.md R22); a PIN cell carries its pin index. -/
inductive Variant
  | ro
  | rw
  | opctrl
  | tsSec
  | tsMicro
  | pin (p : Nat)
deriving DecidableEq, Repr

/-- What is fixed of a register cell (10_state.md R21, R38): address, variant, type code, element count. The stored
tuple is state. -/
structure Cell where
  addr : Byte
  variant : Variant
  tcode : Byte
  count : Nat
deriving DecidableEq, Repr

/-- An entry of `APP_REGS` (00_scope.md R7): a plain RO or RW cell and its reset tuple (43_registers.md R137). -/
structure AppReg where
  addr : Byte
  writable : Bool
  tcode : Byte
  count : Nat
  reset : List Pattern
deriving DecidableEq, Repr

/-- An entry of `PIN_REGS` (00_scope.md R7). -/
structure PinReg where
  addr : Byte
  pin : Nat
deriving DecidableEq, Repr

/-- How an event is triggered (45_events.md R175). -/
inductive EventKind
  | timer
  | edge
  | poll
deriving DecidableEq, Repr

/-- Heartbeat-style or not, for the control hook (45_events.md R175, R193). -/
inductive EventClass
  | heartbeat
  | other
deriving DecidableEq, Repr

/-- Where an event takes its payload from (45_events.md R175). -/
inductive EventSource
  | reg (a : Byte)
  | fixed (elems : List Pattern)
deriving DecidableEq, Repr

/-- An event descriptor (45_events.md R175). `periodMs` is the event's `TIMER_PERIOD_MS`, read by no rule
(70_reset_and_hazards.md R227). -/
structure EventDesc where
  kind : EventKind
  cls : EventClass
  addr : Byte
  tcode : Byte
  n : Nat
  src : EventSource
  periodMs : Nat
deriving DecidableEq, Repr

/-- The configuration record (00_scope.md R7). Nothing in it changes after reset. -/
structure Cfg where
  tickPeriod : Nat
  rxqCap : Nat
  txqCap : Nat
  whoAmI : BitVec 16
  hwVersionH : Byte
  hwVersionL : Byte
  assemblyVersion : Byte
  harpVersionH : Byte
  harpVersionL : Byte
  fwVersionH : Byte
  fwVersionL : Byte
  nameLen : Nat
  nameReset : List Byte
  serialReset : BitVec 16
  rstdevReset : Byte
  opctrlReset : Byte
  appRegs : List AppReg
  pinRegs : List PinReg
  events : List EventDesc
deriving DecidableEq, Repr

/-- One choice of who steps next (00_scope.md R9). `fire`, `append` and `tick` name an event by its place in
`Cfg.events`. -/
inductive Move
  /-- RX takes a byte. -/
  | rx
  /-- TX sends a frame. -/
  | tx
  /-- DISP takes its next phase. -/
  | disp
  /-- The environment raises `timer_fire(e)` or `edge_fire(e)`, and ISR(e) takes its first step. -/
  | fire (e : Nat)
  /-- ISR(e) takes its second step. -/
  | append (e : Nat)
  /-- The environment raises `poll_tick(e)`, and TMR(e) takes its step. -/
  | tick (e : Nat)
  /-- The environment delivers a byte to `rx_in`. -/
  | envByte (b : Byte)
  /-- The environment makes a tick sample ready. -/
  | envTick (r : Tick)
  /-- The environment makes a pin level ready. -/
  | envPin (v : Bool)
deriving DecidableEq, Repr, Inhabited

/-- FREE VALUE (log 5): a tick sample the environment gives when it has listed none (42_clock.md R120, I20). -/
opaque Config.freeTick : Nat → Tick

/-- FREE VALUE (log 6): the level of pin `p` when the environment has listed none (10_state.md R45, I19). -/
opaque Config.freePin : Nat → Nat → Bool

/-- FREE VALUE (log 22): the offset that a rebase leaves when the value `x` that 42_clock.md R124 gives does not fit the
64 bits of `clk_off` (10_state.md R27), as a function of `x`. -/
opaque Config.freeOffset : Int → BitVec 64

/-- FREE VALUE (log 4): who steps next when no choice is listed (45_events.md R191, I22). -/
opaque Config.freeMove : Nat → Move

end Sys2Proof
end

