-- ==== Sys2Proof/Machine/Codec.lean ====
section
/-! DEFINITION. The frame codec: type codes, values of elements, byte order, checksum and the operations of
40_codec.md R95 to R106. -/
namespace Sys2Proof.Codec

/-- The nine supported type codes (30_encoding.md R75). -/
def supportedCodes : List Byte :=
  [0x01, 0x81, 0x02, 0x82, 0x04, 0x84, 0x08, 0x88, 0x44]

/-- Is `tc` one of the nine codes of 30_encoding.md R75? -/
def supported (tc : Byte) : Bool := supportedCodes.contains tc

/-- `tcode(pt) = pt & 0xEF` (30_encoding.md R74). -/
def tcode (pt : Byte) : Byte := pt &&& 0xEF

/-- `has_ts(pt) = pt[4]` (30_encoding.md R74). -/
def hasTs (pt : Byte) : Bool := (pt &&& 0x10) != 0

/-- `size(tc) = tc[3:0]` (30_encoding.md R75). -/
def size (tc : Byte) : Nat := (tc &&& 0x0F).toNat

/-- SIGNED, `pt[7]`: two's-complement integer elements (30_encoding.md R73). -/
def signed (pt : Byte) : Bool := pt.getLsbD 7

/-- The float marker, `pt[6]` (30_encoding.md R73): it has a meaning only inside the float code 0x44 (R90). -/
def floatMarker (pt : Byte) : Bool := pt.getLsbD 6

/-- How a type code reads its elements: the interpretation column of 30_encoding.md R75. -/
inductive Interp
  | unsigned
  | signed
  | float
deriving DecidableEq, Repr

/-- The interpretation of a type code (30_encoding.md R73, R75); none for an unsupported code, whose elements are never
read (R76). -/
def interp? (tc : Byte) : Option Interp :=
  if !supported tc then none
  else if floatMarker tc then some .float
  else if signed tc then some .signed
  else some .unsigned

/-- `le_{8n}(v)`: the `n` bytes of `v`, least significant first (00_scope.md R12). -/
def leBytes : Nat → Nat → List Byte
  | 0, _ => []
  | n + 1, v => BitVec.ofNat 8 v :: leBytes n (v / 256)

/-- `unle(B)`: the unsigned integer whose little-endian bytes are `B` (00_scope.md R12). -/
def unle : List Byte → Nat
  | [] => 0
  | b :: bs => b.toNat + 256 * unle bs

/-- `sum8(B)`: the sum of the bytes modulo 256 (00_scope.md R12). -/
def sum8 : List Byte → Byte
  | [] => 0
  | b :: bs => b + sum8 bs

/-- 40_codec.md R95. -/
def decodeHeader (b0 b1 : Byte) : Byte × Byte := (b0, b1)

/-- 40_codec.md R96. -/
def validateMessageType (mt : Byte) : Bool := mt == 0x01 || mt == 0x02 || mt == 0x03

/-- 40_codec.md R97: the last byte is the sum of all the others. The rule is for at least one byte; no byte fails. -/
def validateChecksum (F : Frame) : Bool :=
  match F.getLast? with
  | none => false
  | some c => c == sum8 F.dropLast

/-- 40_codec.md R98. -/
def payloadOffset (pt : Byte) : Nat := if hasTs pt then 11 else 5

/-- 40_codec.md R106. A list with no byte at offset 1, or with `L ≥ 4` and no byte at offset 4, is not structurally
whole either. -/
def validateStructure (F : Frame) : Bool :=
  match F[1]? with
  | none => false
  | some len =>
    decide (4 ≤ len.toNat) &&
      match F[4]? with
      | none => false
      | some pt => !(hasTs pt) || decide (10 ≤ len.toNat)

/-- 40_codec.md R99, for one element's bytes. -/
def decodeElement (B : List Byte) : Pattern := BitVec.ofNat 64 (unle B)

/-- The unsigned view of a pattern (40_codec.md R99). -/
def unsignedView (p : Pattern) : Int := p.toNat

/-- The two's-complement view of a pattern of `s` bytes (40_codec.md R99; `sext` of 00_scope.md R12). -/
def signedView (s : Nat) (p : Pattern) : Int :=
  if p.toNat < 2 ^ (8 * s - 1) then p.toNat else (p.toNat : Int) - 2 ^ (8 * s)

/-- The fields of a pattern's IEEE-754 binary32 encoding (40_codec.md R99): sign, biased exponent, fraction. The block
does no arithmetic on it (93_implementation_defined.md I7). -/
def floatView (p : Pattern) : Bool × BitVec 8 × BitVec 23 :=
  (p.getLsbD 31, p.extractLsb' 23 8, p.extractLsb' 0 23)

/-- A binary32 datum (40_codec.md R99): a finite datum is `(-1)^sign x significand x 2^exponent`. -/
inductive Datum
  | nan (sign : Bool) (fraction : BitVec 23)
  | infinity (sign : Bool)
  | finite (sign : Bool) (significand : Nat) (exponent : Int)
deriving DecidableEq, Repr

/-- The binary32 datum of a pattern (40_codec.md R99), by the exponent field of the IEEE-754 encoding. -/
def datum (p : Pattern) : Datum :=
  let (sign, exponent, fraction) := floatView p
  if exponent = 0xFF then (if fraction = 0 then .infinity sign else .nan sign fraction)
  else if exponent = 0 then .finite sign fraction.toNat (-149)
  else .finite sign (2 ^ 23 + fraction.toNat) (exponent.toNat - 150)

/-- The value of an element (30_encoding.md R81). -/
inductive Value
  | integer (v : Int)
  | float (d : Datum)
deriving DecidableEq, Repr

/-- The value of a pattern of `s` bytes in an interpretation (30_encoding.md R81, 40_codec.md R99). -/
def Interp.value (i : Interp) (s : Nat) (p : Pattern) : Value :=
  match i with
  | .unsigned => .integer (unsignedView p)
  | .signed => .integer (signedView s p)
  | .float => .float (datum p)

/-- The value of an element of type code `tc` (30_encoding.md R81, 40_codec.md R99); none for an unsupported code. It is
a view: nothing the block stores, compares or sends depends on it (10_state.md R23). -/
def value? (tc : Byte) (p : Pattern) : Option Value := (interp? tc).map fun i => i.value (size tc) p

/-- The elements of a payload region `PB` of type code `tc`: `|PB| / size` of them, residue bytes ignored
(30_encoding.md R82, 20_memory.md R56). -/
def decodeElems (tc : Byte) (PB : List Byte) : List Pattern :=
  (List.range (PB.length / size tc)).map fun i =>
    decodeElement ((PB.drop (i * size tc)).take (size tc))

/-- 40_codec.md R101, for one element. -/
def encodeElement (tc : Byte) (p : Pattern) : List Byte := leBytes (size tc) p.toNat

/-- `pack(tc, E)` of 40_codec.md R101. -/
def pack (tc : Byte) (E : List Pattern) : List Byte := E.flatMap (encodeElement tc)

/-- What `fields(F)` gives (40_codec.md R104). -/
structure Fields where
  mt : Byte
  len : Byte
  addr : Byte
  port : Byte
  pt : Byte
  off : Nat
  payload : List Byte
deriving DecidableEq, Repr

/-- 40_codec.md R104; `none` when the frame has fewer than five bytes, which no frame of R106 has. `P` is the
payload's length. -/
def fields (F : Frame) : Option Fields :=
  match F with
  | mt :: len :: addr :: port :: pt :: _ =>
    some
      { mt := mt, len := len, addr := addr, port := port, pt := pt
        off := payloadOffset pt
        payload := (F.drop (payloadOffset pt)).take (len.toNat + 1 - payloadOffset pt) }
  | _ => none

/-- 40_codec.md R100; no element when the frame is too short to have fields. -/
def decodePayload (F : Frame) : List Pattern :=
  match fields F with
  | none => []
  | some f => decodeElems (tcode f.pt) f.payload

/-- 40_codec.md R105, for a frame that has a timestamp. -/
def decodeTimestamp (F : Frame) : Stamp :=
  { sec := BitVec.ofNat 32 (unle ((F.drop 5).take 4))
    ticks := BitVec.ofNat 16 (unle ((F.drop 9).take 2)) }

/-- The payloadType byte that carries type code `pt` with, or without, a timestamp (40_codec.md R102). -/
def ptByte (pt : Byte) (ts : Option Stamp) : Byte :=
  match ts with
  | some _ => pt ||| 0x10
  | none => pt &&& 0xEF

/-- The timestamp bytes (30_encoding.md R77). -/
def stampBytes : Option Stamp → List Byte
  | some t => leBytes 4 t.sec.toNat ++ leBytes 2 t.ticks.toNat
  | none => []

/-- The bytes of a frame before its checksum, with `port` in place of 0xFF (30_encoding.md R67). -/
def body (mt len a port pt : Byte) (ts : Option Stamp) (PB : List Byte) : List Byte :=
  mt :: len :: a :: port :: ptByte pt ts :: (stampBytes ts ++ PB)

/-- 40_codec.md R102: the `L + 2` bytes of the buffer, the region that `PB` does not fill zero, the checksum byte 0.
`none` where the rule refuses the call: a payload that does not fit, or a length that is no byte. -/
def encode (mt : Byte) (L : Nat) (a pt : Byte) (ts : Option Stamp) (PB : List Byte) : Option Frame :=
  let off := payloadOffset (ptByte pt ts)
  if L ≤ 255 ∧ off + PB.length ≤ L + 1 then
    some (body mt (BitVec.ofNat 8 L) a 0xFF pt ts PB ++ List.replicate (L + 1 - (off + PB.length)) 0 ++ [0])
  else none

/-- 40_codec.md R103. -/
def finalizeChecksum (buf : List Byte) : List Byte := buf.dropLast ++ [sum8 buf.dropLast]

/-- A whole frame from its fields: the length byte counts what follows it (30_encoding.md R68) and the checksum is
the sum of what precedes it (R83). -/
def wholeFrame (mt a port pt : Byte) (ts : Option Stamp) (PB : List Byte) : Frame :=
  let b := body mt (BitVec.ofNat 8 (payloadOffset (ptByte pt ts) + PB.length - 1)) a port pt ts PB
  b ++ [sum8 b]

end Sys2Proof.Codec
end

