-- ==== Sys2Proof/Machine/Layout.lean ====
section
/-! DEFINITION. The register map's shape and reset tuples as the configuration gives them (10_state.md R24, R46), the
well-formedness of a configuration (00_scope.md R8), sparse data keyed by a number, and the configuration of
`State.reset`. -/
namespace Sys2Proof

/-- Sparse data keyed by a number: addresses or pin indices to values, keys strictly rising. -/
abbrev Keyed (α : Type) := List (Nat × α)

/-- The value stored at key `k`. -/
def keyedGet {α : Type} (m : Keyed α) (k : Nat) : Option α :=
  match m with
  | [] => none
  | (j, v) :: m => if j = k then some v else keyedGet m k

/-- Store `v` at key `k`, keeping the keys strictly rising. -/
def keyedSet {α : Type} (m : Keyed α) (k : Nat) (v : α) : Keyed α :=
  match m with
  | [] => [(k, v)]
  | (j, w) :: m =>
    if k < j then (k, v) :: (j, w) :: m
    else if k = j then (k, v) :: m
    else (j, w) :: keyedSet m k v

/-- The one canonical form: keys strictly rising, so that equal maps are equal data. -/
abbrev keyedWf {α : Type} (m : Keyed α) : Prop := (m.map Prod.fst).Pairwise (· < ·)

/-- The fourteen reserved cells (10_state.md R24, 43_registers.md R134). -/
def Cfg.reservedCells (c : Cfg) : List Cell :=
  [ ⟨0, .ro, 0x02, 1⟩, ⟨1, .ro, 0x01, 1⟩, ⟨2, .ro, 0x01, 1⟩, ⟨3, .ro, 0x01, 1⟩, ⟨4, .ro, 0x01, 1⟩,
    ⟨5, .ro, 0x01, 1⟩, ⟨6, .ro, 0x01, 1⟩, ⟨7, .ro, 0x01, 1⟩, ⟨8, .tsSec, 0x04, 1⟩, ⟨9, .tsMicro, 0x02, 1⟩,
    ⟨10, .opctrl, 0x01, 1⟩, ⟨11, .rw, 0x01, 1⟩, ⟨12, .rw, 0x01, c.nameLen⟩, ⟨13, .rw, 0x02, 1⟩ ]

/-- The cell of an application register (43_registers.md R137). -/
def AppReg.cell (r : AppReg) : Cell := ⟨r.addr, if r.writable then .rw else .ro, r.tcode, r.count⟩

/-- The cell of a pin register: U8, one element (43_registers.md R133, R152). -/
def PinReg.cell (r : PinReg) : Cell := ⟨r.addr, .pin r.pin, 0x01, 1⟩

/-- Every cell of the register map (10_state.md R21, R24). -/
def Cfg.cells (c : Cfg) : List Cell :=
  c.reservedCells ++ (c.appRegs.map AppReg.cell ++ c.pinRegs.map PinReg.cell)

/-- The address decoder (20_memory.md R49): the cell at an address, matched whole. -/
def Cfg.cellAt (c : Cfg) (a : Byte) : Option Cell := c.cells.find? fun d => d.addr == a

/-- The reset tuples of the stored cells (10_state.md R46). -/
def Cfg.resetTuples (c : Cfg) : List (Nat × List Pattern) :=
  [ (0, [c.whoAmI.setWidth 64]), (1, [c.hwVersionH.setWidth 64]), (2, [c.hwVersionL.setWidth 64]),
    (3, [c.assemblyVersion.setWidth 64]), (4, [c.harpVersionH.setWidth 64]), (5, [c.harpVersionL.setWidth 64]),
    (6, [c.fwVersionH.setWidth 64]), (7, [c.fwVersionL.setWidth 64]), (10, [c.opctrlReset.setWidth 64]),
    (11, [c.rstdevReset.setWidth 64]), (12, c.nameReset.map (·.setWidth 64)), (13, [c.serialReset.setWidth 64]) ] ++
    c.appRegs.map fun r => (r.addr.toNat, r.reset)

/-- The tuples of the register map right after reset, in canonical form. -/
def Cfg.resetStore (c : Cfg) : Keyed (List Pattern) :=
  c.resetTuples.foldl (fun m p => keyedSet m p.1 p.2) []

/-- Is the pattern of the width of type code `tc` (10_state.md R23)? -/
def fitsWidth (tc : Byte) (p : Pattern) : Bool := decide (p.toNat < 2 ^ (8 * Codec.size tc))

/-- `n` elements, each of the width of `tc`. -/
def fitsTuple (tc : Byte) (n : Nat) (E : List Pattern) : Bool :=
  decide (E.length = n) && E.all (fitsWidth tc)

/-- `n ≥ 1` and `n × size + 10 ≤ 255`, so that a reply fits the length byte (00_scope.md R8 (d)). -/
def fitsReply (tc : Byte) (n : Nat) : Bool := decide (1 ≤ n) && decide (n * Codec.size tc + 10 ≤ 255)

/-- 00_scope.md R8 (f) and 45_events.md R175: an event's code and count, and what its payload comes from. -/
def Cfg.eventOk (c : Cfg) (e : EventDesc) : Bool :=
  Codec.supported e.tcode && fitsReply e.tcode e.n &&
    match e.src with
    | .reg a =>
      e.addr == a &&
        match c.cellAt a with
        | some d => d.tcode == e.tcode && d.count == e.n
        | none => false
    | .fixed E => fitsTuple e.tcode e.n E

/-- 00_scope.md R8: (a) capacities, (b) addresses at most once, (c) supported codes, (d) replies fit, (e) reset
tuples, (f) events, (g) the tick period. A configuration that fails is `BAD_CONFIG` (60_exceptions.md R197). -/
def Cfg.wf (c : Cfg) : Bool :=
  decide (1 ≤ c.rxqCap) && decide (1 ≤ c.txqCap) &&
    decide ((c.cells.map Cell.addr).Nodup) &&
    c.cells.all (fun d => Codec.supported d.tcode) &&
    c.cells.all (fun d => fitsReply d.tcode d.count) &&
    decide (c.nameReset.length = c.nameLen) && c.appRegs.all (fun r => fitsTuple r.tcode r.count r.reset) &&
    c.events.all c.eventOk &&
    decide (c.tickPeriod = 2 ^ 30)

/-- DESIGN CHOICE (log 7): the configuration of `State.reset` is the spec's own test configuration `Cfg_T`
(95_test_vectors.md section 0). Its OPEN parameters are no claim about a device; every statement is for every
configuration. -/
def Cfg.test : Cfg where
  tickPeriod := 2 ^ 30
  rxqCap := 4
  txqCap := 4
  whoAmI := 0x1234
  hwVersionH := 0x02
  hwVersionL := 0
  assemblyVersion := 0
  harpVersionH := 0
  harpVersionL := 0
  fwVersionH := 0
  fwVersionL := 0
  nameLen := 25
  nameReset := List.replicate 25 0
  serialReset := 0
  rstdevReset := 0
  opctrlReset := 0
  appRegs := []
  pinRegs := []
  events := []

end Sys2Proof
end

