-- ==== Sys2Proof/Syntax.lean ====
section
/-! DEFINITION. The instructions: one constructor for each row of spec/opcode_table.json. A row names one byte of a
frame (its messageType, its payloadType or its address); the operands are the frame's other fields (log 1). -/
namespace Sys2Proof

/-- The three request kinds (30_encoding.md R69, R88). -/
inductive Kind
  | read
  | write
  | event
deriving DecidableEq, Repr

/-- A request: the fields of an inbound frame that passed framing (40_codec.md R104, 41_rxtx.md R115). `tc` is the
type code, `ts` the inbound timestamp, present iff HAS_TS is set; the length and checksum bytes follow from the rest
(30_encoding.md R68, R83). -/
structure Request where
  kind : Kind
  addr : Byte
  port : Byte
  tc : Byte
  ts : Option Stamp
  payload : List Byte
deriving DecidableEq, Repr

/-- The operands of a messageType row: every field of a request but its kind. -/
structure MsgOps where
  addr : Byte
  port : Byte
  tc : Byte
  ts : Option Stamp
  payload : List Byte
deriving DecidableEq, Repr

/-- The operands of a payloadType row: every field of a request but its type code. -/
structure TypeOps where
  kind : Kind
  addr : Byte
  port : Byte
  ts : Option Stamp
  payload : List Byte
deriving DecidableEq, Repr

/-- The operands of an address row: every field of a request but its address. -/
structure AddrOps where
  kind : Kind
  port : Byte
  tc : Byte
  ts : Option Stamp
  payload : List Byte
deriving DecidableEq, Repr

/-- The operands of a frame the block builds: its port is 0xFF and it always has a timestamp (30_encoding.md R87). -/
structure OutOps where
  addr : Byte
  tc : Byte
  stamp : Stamp
  payload : List Byte
deriving DecidableEq, Repr

/-- One constructor for each row of spec/opcode_table.json. -/
inductive Instr
  /-- READ: messageType 0x01, inbound (44_dispatch.md R161). -/
  | read (o : MsgOps)
  /-- WRITE: messageType 0x02, inbound (R162). -/
  | write (o : MsgOps)
  /-- EVENT_IN: messageType 0x03, inbound (R164). -/
  | eventIn (o : MsgOps)
  /-- REPLY_READ: messageType 0x01, outbound (R163). -/
  | replyRead (o : OutOps)
  /-- REPLY_WRITE: messageType 0x02, outbound (R163). -/
  | replyWrite (o : OutOps)
  /-- REPLY_EVENT: messageType 0x03, outbound, the reply to an inbound EVENT (R163). -/
  | replyEvent (o : OutOps)
  /-- EVENT_NOTIFY: messageType 0x03, outbound, an event's notification (45_events.md R176). -/
  | eventNotify (o : OutOps)
  /-- ERROR_READ: messageType 0x09, outbound (44_dispatch.md R166). -/
  | errorRead (o : OutOps)
  /-- ERROR_WRITE: messageType 0x0A, outbound (R166). -/
  | errorWrite (o : OutOps)
  /-- ERROR_EVENT: messageType 0x0B, outbound (R166). -/
  | errorEvent (o : OutOps)
  /-- INVALID_MSGTYPE: a header whose first byte is no request kind (41_rxtx.md R110). -/
  | invalidMsgtype (mt len : Byte)
  /-- PT_U8: type code 0x01 (30_encoding.md R75). -/
  | ptU8 (o : TypeOps)
  /-- PT_S8: type code 0x81 (R75). -/
  | ptS8 (o : TypeOps)
  /-- PT_U16: type code 0x02 (R75). -/
  | ptU16 (o : TypeOps)
  /-- PT_S16: type code 0x82 (R75). -/
  | ptS16 (o : TypeOps)
  /-- PT_U32: type code 0x04 (R75). -/
  | ptU32 (o : TypeOps)
  /-- PT_S32: type code 0x84 (R75). -/
  | ptS32 (o : TypeOps)
  /-- PT_U64: type code 0x08 (R75). -/
  | ptU64 (o : TypeOps)
  /-- PT_S64: type code 0x88 (R75). -/
  | ptS64 (o : TypeOps)
  /-- PT_FLOAT: type code 0x44 (R75). -/
  | ptFloat (o : TypeOps)
  /-- PT_UNSUPPORTED: any other type code (30_encoding.md R76). -/
  | ptUnsupported (tc : Byte) (o : TypeOps)
  /-- REG_WHO_AM_I: address 0 (43_registers.md R157). -/
  | regWhoAmI (o : AddrOps)
  /-- REG_HW_VERSION_H: address 1 (R157). -/
  | regHwVersionH (o : AddrOps)
  /-- REG_HW_VERSION_L: address 2 (R157). -/
  | regHwVersionL (o : AddrOps)
  /-- REG_ASSEMBLY_VERSION: address 3 (R157). -/
  | regAssemblyVersion (o : AddrOps)
  /-- REG_HARP_VERSION_H: address 4 (R157). -/
  | regHarpVersionH (o : AddrOps)
  /-- REG_HARP_VERSION_L: address 5 (R157). -/
  | regHarpVersionL (o : AddrOps)
  /-- REG_FW_VERSION_H: address 6 (R157). -/
  | regFwVersionH (o : AddrOps)
  /-- REG_FW_VERSION_L: address 7 (R157). -/
  | regFwVersionL (o : AddrOps)
  /-- REG_TIMESTAMP_SECOND: address 8 (42_clock.md R127, R128). -/
  | regTimestampSecond (o : AddrOps)
  /-- REG_TIMESTAMP_MICRO: address 9 (42_clock.md R129, R130). -/
  | regTimestampMicro (o : AddrOps)
  /-- REG_OPERATION_CTRL: address 10 (43_registers.md R144, R145). -/
  | regOperationCtrl (o : AddrOps)
  /-- REG_RESET_DEV: address 11 (R154). -/
  | regResetDev (o : AddrOps)
  /-- REG_DEVICE_NAME: address 12 (R155). -/
  | regDeviceName (o : AddrOps)
  /-- REG_SERIAL_NUMBER: address 13 (R156). -/
  | regSerialNumber (o : AddrOps)
  /-- REG_UNMAPPED: an address with no cell (44_dispatch.md R173). -/
  | regUnmapped (a : Byte) (o : AddrOps)
  /-- REG_APP: an address named in `APP_REGS` (43_registers.md R137). -/
  | regApp (a : Byte) (o : AddrOps)
  /-- REG_PIN: an address named in `PIN_REGS` (43_registers.md R152, R153). -/
  | regPin (a : Byte) (o : AddrOps)
deriving DecidableEq, Repr

end Sys2Proof
end

