-- ==== Sys2Proof/WellFormed.lean ====
section
/-! DEFINITION. Which terms of `Instr` are instructions: the field checks of 30_encoding.md. -/
namespace Sys2Proof

/-- A type code has HAS_TS clear (30_encoding.md R74). -/
def typeCodeOk (tc : Byte) : Bool := tc &&& 0x10 == 0

/-- The payload of a request fits the length byte (30_encoding.md R68, R85): at most 251 bytes, or 245 behind a
timestamp. -/
def requestFits (ts : Option Stamp) (payload : List Byte) : Bool :=
  decide (payload.length ≤ if ts.isSome then 245 else 251)

/-- The operands of a messageType row. -/
def MsgOps.ok (o : MsgOps) : Bool := typeCodeOk o.tc && requestFits o.ts o.payload

/-- The operands of a payloadType row. -/
def TypeOps.ok (o : TypeOps) : Bool := requestFits o.ts o.payload

/-- The operands of an address row. -/
def AddrOps.ok (o : AddrOps) : Bool := typeCodeOk o.tc && requestFits o.ts o.payload

/-- An address that is none of the reserved registers' (00_scope.md R7). -/
def unreserved (a : Byte) : Bool := decide (14 ≤ a.toNat)

/-- The operands of an ERROR reply: any type code, a payload that fits (44_dispatch.md R166). -/
def OutOps.errorOk (o : OutOps) : Bool := typeCodeOk o.tc && decide (o.payload.length ≤ 245)

/-- The operands of a reply or notification: a supported type code and whole elements (44_dispatch.md R163,
45_events.md R176). -/
def OutOps.replyOk (o : OutOps) : Bool :=
  Codec.supported o.tc && decide (o.payload.length % Codec.size o.tc = 0) && decide (o.payload.length ≤ 245)

/-- The well-formed instructions. -/
def Instr.ok (i : Instr) : Bool :=
  match i with
  | .read o => o.ok
  | .write o => o.ok
  | .eventIn o => o.ok
  | .replyRead o => o.replyOk
  | .replyWrite o => o.replyOk
  | .replyEvent o => o.replyOk
  | .eventNotify o => o.replyOk
  | .errorRead o => o.errorOk
  | .errorWrite o => o.errorOk
  | .errorEvent o => o.errorOk
  | .invalidMsgtype mt _ => !(Codec.validateMessageType mt)
  | .ptU8 o => o.ok
  | .ptS8 o => o.ok
  | .ptU16 o => o.ok
  | .ptS16 o => o.ok
  | .ptU32 o => o.ok
  | .ptS32 o => o.ok
  | .ptU64 o => o.ok
  | .ptS64 o => o.ok
  | .ptFloat o => o.ok
  | .ptUnsupported tc o => typeCodeOk tc && !(Codec.supported tc) && o.ok
  | .regWhoAmI o => o.ok
  | .regHwVersionH o => o.ok
  | .regHwVersionL o => o.ok
  | .regAssemblyVersion o => o.ok
  | .regHarpVersionH o => o.ok
  | .regHarpVersionL o => o.ok
  | .regFwVersionH o => o.ok
  | .regFwVersionL o => o.ok
  | .regTimestampSecond o => o.ok
  | .regTimestampMicro o => o.ok
  | .regOperationCtrl o => o.ok
  | .regResetDev o => o.ok
  | .regDeviceName o => o.ok
  | .regSerialNumber o => o.ok
  | .regUnmapped a o => unreserved a && o.ok
  | .regApp a o => unreserved a && o.ok
  | .regPin a o => unreserved a && o.ok

end Sys2Proof
end

