-- ==== Sys2Proof/Decode.lean ====
section
/-! DEFINITION. Decoding frames to instructions, total on any bytes and rejecting by name, and the encoder
(30_encoding.md, 40_codec.md). One frame is read in three formats of the opcode table: by its messageType, its
payloadType and its address (log 1). -/
namespace Sys2Proof

/-- Why bytes are no instruction. -/
inductive DecodeError
  /-- The header or the declared body is not all there yet (30_encoding.md R94). -/
  | incomplete
  /-- More bytes than the length byte declares (30_encoding.md R68). -/
  | trailingBytes
  /-- The first byte is no request kind (41_rxtx.md R110). -/
  | invalidMsgType
  /-- The checksum fails (41_rxtx.md R112). -/
  | badChecksum
  /-- The frame cannot hold its header or its timestamp (41_rxtx.md R112). -/
  | shortFrame
  /-- No frame the block builds (30_encoding.md R70, R87). -/
  | neverBuilt
deriving DecidableEq, Repr

/-- The formats of the opcode table, and the direction of a messageType byte (30_encoding.md R70). -/
inductive Format
  /-- An inbound frame by its messageType. -/
  | request
  /-- An inbound frame by its payloadType. -/
  | payloadType
  /-- An inbound frame by its address. -/
  | address
  /-- A reply or an ERROR reply on its way to the transmit queue, by its messageType. -/
  | reply
  /-- An event's frame on its way to the transmit queue, by its messageType. -/
  | notification
deriving DecidableEq, Repr

/-- The messageType byte of a request kind (30_encoding.md R69). -/
def Kind.byte (k : Kind) : Byte :=
  match k with
  | .read => 0x01
  | .write => 0x02
  | .event => 0x03

/-- The request kind of a messageType byte (30_encoding.md R70, inbound column). -/
def Kind.ofByte? (mt : Byte) : Option Kind :=
  if mt = 0x01 then some .read
  else if mt = 0x02 then some .write
  else if mt = 0x03 then some .event
  else none

/-- The whole frame of a request (30_encoding.md R67). -/
def Request.frame (r : Request) : Frame := Codec.wholeFrame r.kind.byte r.addr r.port r.tc r.ts r.payload

/-- The whole frame of an outbound instruction: port 0xFF, timestamp present (30_encoding.md R87). -/
def OutOps.frame (mt : Byte) (o : OutOps) : Frame := Codec.wholeFrame mt o.addr 0xFF o.tc (some o.stamp) o.payload

/-- The request of a messageType row. -/
def MsgOps.request (k : Kind) (o : MsgOps) : Request := ⟨k, o.addr, o.port, o.tc, o.ts, o.payload⟩

/-- The request of a payloadType row. -/
def TypeOps.request (tc : Byte) (o : TypeOps) : Request := ⟨o.kind, o.addr, o.port, tc, o.ts, o.payload⟩

/-- The request of an address row. -/
def AddrOps.request (a : Byte) (o : AddrOps) : Request := ⟨o.kind, a, o.port, o.tc, o.ts, o.payload⟩

/-- The request that an inbound row's instruction is; none for the other rows. -/
def Instr.request? (i : Instr) : Option Request :=
  match i with
  | .read o => some (o.request .read)
  | .write o => some (o.request .write)
  | .eventIn o => some (o.request .event)
  | .replyRead _ => none
  | .replyWrite _ => none
  | .replyEvent _ => none
  | .eventNotify _ => none
  | .errorRead _ => none
  | .errorWrite _ => none
  | .errorEvent _ => none
  | .invalidMsgtype _ _ => none
  | .ptU8 o => some (o.request 0x01)
  | .ptS8 o => some (o.request 0x81)
  | .ptU16 o => some (o.request 0x02)
  | .ptS16 o => some (o.request 0x82)
  | .ptU32 o => some (o.request 0x04)
  | .ptS32 o => some (o.request 0x84)
  | .ptU64 o => some (o.request 0x08)
  | .ptS64 o => some (o.request 0x88)
  | .ptFloat o => some (o.request 0x44)
  | .ptUnsupported tc o => some (o.request tc)
  | .regWhoAmI o => some (o.request 0)
  | .regHwVersionH o => some (o.request 1)
  | .regHwVersionL o => some (o.request 2)
  | .regAssemblyVersion o => some (o.request 3)
  | .regHarpVersionH o => some (o.request 4)
  | .regHarpVersionL o => some (o.request 5)
  | .regFwVersionH o => some (o.request 6)
  | .regFwVersionL o => some (o.request 7)
  | .regTimestampSecond o => some (o.request 8)
  | .regTimestampMicro o => some (o.request 9)
  | .regOperationCtrl o => some (o.request 10)
  | .regResetDev o => some (o.request 11)
  | .regDeviceName o => some (o.request 12)
  | .regSerialNumber o => some (o.request 13)
  | .regUnmapped a o => some (o.request a)
  | .regApp a o => some (o.request a)
  | .regPin a o => some (o.request a)

/-- The messageType byte and operands of an outbound row's instruction; none for the other rows. -/
def Instr.outbound? (i : Instr) : Option (Byte × OutOps) :=
  match i with
  | .replyRead o => some (0x01, o)
  | .replyWrite o => some (0x02, o)
  | .replyEvent o => some (0x03, o)
  | .eventNotify o => some (0x03, o)
  | .errorRead o => some (0x09, o)
  | .errorWrite o => some (0x0A, o)
  | .errorEvent o => some (0x0B, o)
  | _ => none

/-- A request read by its messageType (30_encoding.md R88). -/
def Request.byMessageType (r : Request) : Instr :=
  let o : MsgOps := ⟨r.addr, r.port, r.tc, r.ts, r.payload⟩
  match r.kind with
  | .read => .read o
  | .write => .write o
  | .event => .eventIn o

/-- A request read by its payloadType (30_encoding.md R75, R76). -/
def Request.byPayloadType (r : Request) : Instr :=
  let o : TypeOps := ⟨r.kind, r.addr, r.port, r.ts, r.payload⟩
  if r.tc = 0x01 then .ptU8 o
  else if r.tc = 0x81 then .ptS8 o
  else if r.tc = 0x02 then .ptU16 o
  else if r.tc = 0x82 then .ptS16 o
  else if r.tc = 0x04 then .ptU32 o
  else if r.tc = 0x84 then .ptS32 o
  else if r.tc = 0x08 then .ptU64 o
  else if r.tc = 0x88 then .ptS64 o
  else if r.tc = 0x44 then .ptFloat o
  else .ptUnsupported r.tc o

/-- A request read by its address (30_encoding.md R92): the reserved registers, then what the configuration names. -/
def Request.byAddress (c : Cfg) (r : Request) : Instr :=
  let o : AddrOps := ⟨r.kind, r.port, r.tc, r.ts, r.payload⟩
  if r.addr = 0 then .regWhoAmI o
  else if r.addr = 1 then .regHwVersionH o
  else if r.addr = 2 then .regHwVersionL o
  else if r.addr = 3 then .regAssemblyVersion o
  else if r.addr = 4 then .regHarpVersionH o
  else if r.addr = 5 then .regHarpVersionL o
  else if r.addr = 6 then .regFwVersionH o
  else if r.addr = 7 then .regFwVersionL o
  else if r.addr = 8 then .regTimestampSecond o
  else if r.addr = 9 then .regTimestampMicro o
  else if r.addr = 10 then .regOperationCtrl o
  else if r.addr = 11 then .regResetDev o
  else if r.addr = 12 then .regDeviceName o
  else if r.addr = 13 then .regSerialNumber o
  else
    match c.cellAt r.addr with
    | none => .regUnmapped r.addr o
    | some d =>
      match d.variant with
      | .pin _ => .regPin r.addr o
      | _ => .regApp r.addr o

/-- Is `i` the address row that configuration `c` gives its address? Only REG_UNMAPPED, REG_APP and REG_PIN depend
on `c` (opcode_table.json). -/
def Instr.okIn (c : Cfg) (i : Instr) : Bool :=
  match i with
  | .regUnmapped a o => (o.request a).byAddress c == i
  | .regApp a o => (o.request a).byAddress c == i
  | .regPin a o => (o.request a).byAddress c == i
  | _ => true

/-- Decode a whole inbound frame to the request it is, with the checks of the receive stage in their order
(41_rxtx.md R110, R112; 40_codec.md R104). -/
def decodeRequest (F : Frame) : Except DecodeError Request :=
  match F with
  | mt :: len :: _ =>
    match Kind.ofByte? mt with
    | none => .error .invalidMsgType
    | some k =>
      if F.length < len.toNat + 2 then .error .incomplete
      else if len.toNat + 2 < F.length then .error .trailingBytes
      else if !Codec.validateChecksum F then .error .badChecksum
      else if !Codec.validateStructure F then .error .shortFrame
      else
        match Codec.fields F with
        | none => .error .shortFrame
        | some f =>
          .ok
            { kind := k, addr := f.addr, port := f.port, tc := Codec.tcode f.pt
              ts := if Codec.hasTs f.pt then some (Codec.decodeTimestamp F) else none
              payload := f.payload }
  | _ => .error .incomplete

/-- Decode a whole frame that the block built: its messageType byte and operands (30_encoding.md R87). -/
def decodeOut (F : Frame) : Except DecodeError (Byte × OutOps) :=
  match Codec.fields F with
  | none => .error .shortFrame
  | some f =>
    if F.length < f.len.toNat + 2 then .error .incomplete
    else if f.len.toNat + 2 < F.length then .error .trailingBytes
    else if !Codec.validateChecksum F then .error .badChecksum
    else if !Codec.validateStructure F then .error .shortFrame
    else if f.port = 0xFF && Codec.hasTs f.pt then
      .ok (f.mt, ⟨f.addr, Codec.tcode f.pt, Codec.decodeTimestamp F, f.payload⟩)
    else .error .neverBuilt

/-- An outbound frame in DISP's hands, by its messageType (30_encoding.md R70, outbound column). -/
def replyInstr (mt : Byte) (o : OutOps) : Except DecodeError Instr :=
  if mt = 0x01 then .ok (.replyRead o)
  else if mt = 0x02 then .ok (.replyWrite o)
  else if mt = 0x03 then .ok (.replyEvent o)
  else if mt = 0x09 then .ok (.errorRead o)
  else if mt = 0x0A then .ok (.errorWrite o)
  else if mt = 0x0B then .ok (.errorEvent o)
  else .error .neverBuilt

/-- An outbound frame in an event's hands (45_events.md R176). -/
def notificationInstr (mt : Byte) (o : OutOps) : Except DecodeError Instr :=
  if mt = 0x03 then .ok (.eventNotify o) else .error .neverBuilt

/-- Refuse what is no well-formed instruction. -/
def onlyOk (i : Instr) : Except DecodeError Instr := if i.ok then .ok i else .error .neverBuilt

/-- Decode a whole frame in a format of the opcode table. -/
def decodeAs (fmt : Format) (c : Cfg) (F : Frame) : Except DecodeError Instr :=
  match fmt with
  | .request => (decodeRequest F).map Request.byMessageType
  | .payloadType => (decodeRequest F).map Request.byPayloadType
  | .address => (decodeRequest F).map (Request.byAddress c)
  | .reply => ((decodeOut F).bind fun p => replyInstr p.1 p.2).bind onlyOk
  | .notification => ((decodeOut F).bind fun p => notificationInstr p.1 p.2).bind onlyOk

/-- Decode the first instruction of an inbound byte stream, and the bytes after it: two header bytes, then exactly
as many as the length byte declares (30_encoding.md R85, R94). An invalid messageType takes the two header bytes only
(41_rxtx.md R110). -/
def decode (bs : List Byte) : Except DecodeError (Instr × List Byte) :=
  match bs with
  | b0 :: b1 :: rest =>
    let (mt, len) := Codec.decodeHeader b0 b1
    if Codec.validateMessageType mt then
      (decodeRequest (bs.take (len.toNat + 2))).map fun r => (r.byMessageType, bs.drop (len.toNat + 2))
    else .ok (.invalidMsgtype mt len, rest)
  | _ => .error .incomplete

/-- The bytes of an instruction: its whole frame, or the two header bytes of INVALID_MSGTYPE. -/
def encode (i : Instr) : Frame :=
  match i.request?, i.outbound?, i with
  | some r, _, _ => r.frame
  | none, some (mt, o), _ => o.frame mt
  | none, none, .invalidMsgtype mt len => [mt, len]
  | none, none, _ => []

/-- The format in which a row's instruction is read; none for INVALID_MSGTYPE, which is a header and no frame. -/
def Instr.format? (i : Instr) : Option Format :=
  match i with
  | .read _ => some .request
  | .write _ => some .request
  | .eventIn _ => some .request
  | .replyRead _ => some .reply
  | .replyWrite _ => some .reply
  | .replyEvent _ => some .reply
  | .eventNotify _ => some .notification
  | .errorRead _ => some .reply
  | .errorWrite _ => some .reply
  | .errorEvent _ => some .reply
  | .invalidMsgtype _ _ => none
  | .ptU8 _ => some .payloadType
  | .ptS8 _ => some .payloadType
  | .ptU16 _ => some .payloadType
  | .ptS16 _ => some .payloadType
  | .ptU32 _ => some .payloadType
  | .ptS32 _ => some .payloadType
  | .ptU64 _ => some .payloadType
  | .ptS64 _ => some .payloadType
  | .ptFloat _ => some .payloadType
  | .ptUnsupported _ _ => some .payloadType
  | .regWhoAmI _ => some .address
  | .regHwVersionH _ => some .address
  | .regHwVersionL _ => some .address
  | .regAssemblyVersion _ => some .address
  | .regHarpVersionH _ => some .address
  | .regHarpVersionL _ => some .address
  | .regFwVersionH _ => some .address
  | .regFwVersionL _ => some .address
  | .regTimestampSecond _ => some .address
  | .regTimestampMicro _ => some .address
  | .regOperationCtrl _ => some .address
  | .regResetDev _ => some .address
  | .regDeviceName _ => some .address
  | .regSerialNumber _ => some .address
  | .regUnmapped _ _ => some .address
  | .regApp _ _ => some .address
  | .regPin _ _ => some .address

/-- The carrier of a payloadType or address byte of the opcode table (log 2): a READ frame whose other operand bytes
are 0. Its length and checksum are framing, not operands, and follow from the rest. -/
def carrier (a tc : Byte) : Frame := Codec.wholeFrame 0x01 a 0 tc none []

/-- The frame of an opcode-table word of one byte `b`, and the format it is read in (log 2). A byte that several
formats share is read as a messageType first, then as a payloadType, then as an address; the operand bytes are 0, and
the length and checksum bytes follow from the rest. -/
def tableFrame (b : Byte) : Option (Format × Frame) :=
  if b = 0x01 ∨ b = 0x02 ∨ b = 0x03 then some (.request, Codec.wholeFrame b 0 0 0 none [])
  else if b = 0x09 ∨ b = 0x0A ∨ b = 0x0B then some (.reply, Codec.wholeFrame b 0 0xFF 0 (some ⟨0, 0⟩) [])
  else if Codec.supported (Codec.tcode b) then
    some (.payloadType, Codec.wholeFrame 0x01 0 0 (Codec.tcode b) (if Codec.hasTs b then some ⟨0, 0⟩ else none) [])
  else if b.toNat < 14 then some (.address, carrier b 0)
  else none

/-- The instruction the decoder reads from an opcode-table word (log 2). -/
def decodeTableWord (nbits w : Nat) : Option Instr :=
  if nbits = 0 then none
  else
    match tableFrame (BitVec.ofNat 8 w) with
    | some (fmt, F) => (decodeAs fmt Cfg.test F).toOption
    | none => some (.invalidMsgtype (BitVec.ofNat 8 w) 0)

end Sys2Proof
end

