-- ==== Sys2Proof/Machine/Flags.lean ====
section
/-! DEFINITION. The operational-control byte: its fields, its derived predicates (10_state.md R25, R26) and the enable
an event gets from it (45_events.md R193). These are the block's flags (10_state.md R37). -/
namespace Sys2Proof.Machine

/-- MODE, bits 1 and 0: 0 standby, 1 active, 2 reserved, 3 speed (10_state.md R25). -/
def mode (v : Byte) : BitVec 2 := v.extractLsb' 0 2

/-- Bit 2, which has no name and no effect (43_registers.md R151). -/
def reservedBit (v : Byte) : Bool := v.getLsbD 2

/-- DUMP, bit 3: stored, no effect (43_registers.md R149). -/
def dump (v : Byte) : Bool := v.getLsbD 3

/-- MUTE_RPL, bit 4: stored, no effect (43_registers.md R150). -/
def muteRpl (v : Byte) : Bool := v.getLsbD 4

/-- VISUALEN, bit 5: drives `visual_en` (43_registers.md R147). -/
def visualen (v : Byte) : Bool := v.getLsbD 5

/-- OPLEDEN, bit 6: drives `opled_en` (43_registers.md R147). -/
def opleden (v : Byte) : Bool := v.getLsbD 6

/-- HEARTBEAT_EN, bit 7: gates heartbeat-class events (10_state.md R25). -/
def heartbeatEn (v : Byte) : Bool := v.getLsbD 7

/-- `standby(b)` of 10_state.md R26. -/
def standby (v : Byte) : Bool := mode v == 0

/-- `running(b)` of 10_state.md R26: modes 1, 2 and 3 all count as running. -/
def running (v : Byte) : Bool := !(standby v)

/-- `hb_on(b)` of 10_state.md R26. -/
def hbOn (v : Byte) : Bool := heartbeatEn v && running v

/-- `sync_en(e, v)` of 45_events.md R193. -/
def syncEn (cls : EventClass) (v : Byte) : Bool :=
  match cls with
  | .heartbeat => hbOn v
  | .other => running v

end Sys2Proof.Machine
end

