-- ==== Sys2Proof/Machine/State.lean ====
section
/-! DEFINITION. The state of the block (10_state.md R20 to R46), the reasons a step can stop, and the state after
reset. -/
namespace Sys2Proof.Machine

/-- Why the machine stops with a fault. No reachable state of a well-formed configuration faults: the spec gives these
states no meaning, and the model stops there (log 12). -/
inductive Fault
  /-- Raised by DISP when the frame it holds, or the head of `rxq`, is no request, which 41_rxtx.md R115 rules out.
  Safe: the model stops where the spec says nothing. -/
  | notARequest
  /-- Raised by DISP or ISR(e) when the frame it is to append is none the block builds, which 45_events.md R185 rules
  out. Safe, as above. -/
  | notABuiltFrame
  /-- Raised by ISR(e) in its second step with no staged frame, which 45_events.md R180 rules out. Safe, as above. -/
  | nothingStaged
  /-- Raised by ISR(e) or a poll service when the event's register read fails, which 00_scope.md R8 (f) rules out.
  Safe, as above. -/
  | eventReadFailed
deriving DecidableEq, Repr

/-- Why the machine refuses. -/
inductive Refusal
  /-- Raised by `exec` for an instruction that has no meaning yet. Safe. -/
  | notModelled (mnemonic : String)
  /-- Raised by an outbound frame whose payload does not fit its length byte: 40_codec.md R102 refuses the call, and no
  rule makes it in a well-formed configuration (log 13). Safe. -/
  | encodeOverflow
  /-- `BAD_CONFIG`: raised by `boot`, before reset, for a configuration that fails 00_scope.md R8 (60_exceptions.md
  R197; log 9). Safe. -/
  | badConfig
deriving DecidableEq, Repr

/-- The causes of 60_exceptions.md R194. -/
inductive Cause
  | invalidMsgtype
  | badChecksum
  | shortFrame
  | unknownAddress
  | typeMismatch
  | readOnly
  | indexRange
  | replyOverflow
  | badConfig
deriving DecidableEq, Repr

/-- `res ∈ {ok, err(cause)}` of 10_state.md R33. -/
inductive Res
  | ok
  | err (c : Cause)
deriving DecidableEq, Repr

/-- The clock synchronizer (10_state.md R27). `acc` is unbounded (log 10); `off` is an s_64, read by `BitVec.toInt`. -/
structure Clock where
  acc : Nat
  last : Tick
  off : BitVec 64
deriving DecidableEq, Repr

/-- `rx_stage` (10_state.md R29). -/
inductive RxStage
  | hdr
  | body
deriving DecidableEq, Repr

/-- The receive framing state (10_state.md R29). -/
structure Rx where
  stage : RxStage
  buf : List Byte
  need : Nat
deriving DecidableEq, Repr

/-- The state of one event (10_state.md R32) and its output level `arm` (R35). -/
structure EventState where
  en : Bool
  arm : Bool
  busy : Bool
  stage : Option Frame
  pending : Bool
deriving DecidableEq, Repr

/-- `disp_phase` (10_state.md R33). -/
inductive DispPhase
  | idle
  | exec (F : Frame)
  | stamp (F : Frame) (res : Res)
  | build (F : Frame) (res : Res) (ts : Stamp)
  | send (R : Frame)
  | sync
  | poll (k : Nat)
deriving DecidableEq, Repr

/-- The state of the block (10_state.md R20) with its ports, and the model's own fields. -/
structure State where
  /-- MODEL's own: the configuration, a parameter of every step that no step writes (10_state.md R38, log 7). -/
  cfg : Cfg
  /-- The stored tuples of `regmap`, by address (10_state.md R21). -/
  store : Keyed (List Pattern)
  /-- `clk_acc`, `clk_last`, `clk_off` (R27). -/
  clock : Clock
  /-- `rx_stage`, `rx_buf`, `rx_need` (R29). -/
  rx : Rx
  /-- The receive queue, oldest first (R30). -/
  rxq : List Frame
  /-- The transmit queue, oldest first (R31). -/
  txq : List Frame
  /-- `ev_en`, `ev_busy`, `ev_stage`, `ev_pending`, `arm`, one entry for each event of the configuration (R32, R35). -/
  evs : List EventState
  /-- `disp_phase` (R33). -/
  disp : DispPhase
  /-- `opled_en` (R34). -/
  opledEn : Bool
  /-- `visual_en` (R34). -/
  visualEn : Bool
  /-- `pin_out[p]`; an absent pin is `unset` (R36). -/
  pinOut : Keyed Bool
  /-- `fault_reply_len` (R40). -/
  faultReplyLen : Bool
  /-- The port `rx_in` (R41). -/
  rxIn : List Byte
  /-- The port `tx_out` (R41). -/
  txOut : List Byte
  /-- MODEL's own: the tick samples the environment has ready (R42, log 5). -/
  tickIn : List Tick
  /-- MODEL's own: the pin levels the environment has ready (R45, log 6). -/
  pinIn : List Bool
  /-- MODEL's own: who steps next (45_events.md R191, log 4). -/
  moves : List Move
  /-- MODEL's own: what the free values are applied to (logs 4 to 6). -/
  freeCount : Nat
deriving DecidableEq, Repr

/-! One named update a field; `@[simps]` gives one lemma for each field of the result, true by `rfl`. -/

@[simps] def State.setStore (s : State) (m : Keyed (List Pattern)) : State := { s with store := m }
@[simps] def State.setClock (s : State) (c : Clock) : State := { s with clock := c }
@[simps] def State.setRx (s : State) (r : Rx) : State := { s with rx := r }
@[simps] def State.setRxq (s : State) (q : List Frame) : State := { s with rxq := q }
@[simps] def State.setTxq (s : State) (q : List Frame) : State := { s with txq := q }
@[simps] def State.setEvs (s : State) (E : List EventState) : State := { s with evs := E }
@[simps] def State.setDisp (s : State) (p : DispPhase) : State := { s with disp := p }
@[simps] def State.setLevels (s : State) (opled visual : Bool) : State :=
  { s with opledEn := opled, visualEn := visual }
@[simps] def State.setPinOut (s : State) (m : Keyed Bool) : State := { s with pinOut := m }
@[simps] def State.setFaultReplyLen (s : State) (b : Bool) : State := { s with faultReplyLen := b }
@[simps] def State.setRxIn (s : State) (bs : List Byte) : State := { s with rxIn := bs }
@[simps] def State.setTxOut (s : State) (bs : List Byte) : State := { s with txOut := bs }
@[simps] def State.setTickIn (s : State) (ts : List Tick) : State := { s with tickIn := ts }
@[simps] def State.setPinIn (s : State) (vs : List Bool) : State := { s with pinIn := vs }
@[simps] def State.setMoves (s : State) (ms : List Move) : State := { s with moves := ms }
@[simps] def State.setFreeCount (s : State) (n : Nat) : State := { s with freeCount := n }

/-- The state of event `e` right after reset (10_state.md R46). -/
def EventState.reset (c : Cfg) (e : EventDesc) : EventState where
  en := syncEn e.cls c.opctrlReset
  arm := syncEn e.cls c.opctrlReset
  busy := false
  stage := none
  pending := false

/-- The state right after reset (10_state.md R46, 70_reset_and_hazards.md R214), for configuration `c` and first tick
sample `r0`; the environment has listed nothing. -/
def State.resetWith (c : Cfg) (r0 : Tick) : State where
  cfg := c
  store := c.resetStore
  clock := ⟨r0.toNat, r0, 0⟩
  rx := ⟨.hdr, [], 2⟩
  rxq := []
  txq := []
  evs := c.events.map (EventState.reset c)
  disp := .idle
  opledEn := opleden c.opctrlReset
  visualEn := visualen c.opctrlReset
  pinOut := []
  faultReplyLen := false
  rxIn := []
  txOut := []
  tickIn := []
  pinIn := []
  moves := []
  freeCount := 0

/-- The machine right after reset. DESIGN CHOICE: the configuration is the spec's test configuration (log 7) and the
first tick sample is 0 (log 8). -/
def State.reset : State := State.resetWith Cfg.test 0

end Sys2Proof.Machine
end

