-- ==== Sys2Proof/Machine/Operands.lean ====
section
/-! DEFINITION. The operand forms of a request: its payload region, its elements, the length of an ERROR reply
(30_encoding.md R80 to R82, 44_dispatch.md R166, R167), the register tuple an address names, and the numbers of the
causes (60_exceptions.md R194). -/
namespace Sys2Proof.Machine

/-- The payload offset of a request's frame (30_encoding.md R79). -/
def reqOffset (r : Request) : Nat := if r.ts.isSome then 11 else 5

/-- The length byte of a request's frame, as a number (30_encoding.md R68). -/
def reqLen (r : Request) : Nat := reqOffset r + r.payload.length - 1

/-- The decoded payload of a request (40_codec.md R100, 43_registers.md R141). -/
def reqElems (r : Request) : List Pattern := Codec.decodeElems r.tc r.payload

/-- `L'` of 44_dispatch.md R166: the request's length, plus 6 when a timestamp is added. -/
def errorLen (r : Request) : Nat := reqLen r + if r.ts.isSome then 0 else 6

/-- The ERROR payload (44_dispatch.md R167): a WRITE's whole payload region, residue included; zeros otherwise. -/
def errorPayload (r : Request) : List Byte :=
  match r.kind with
  | .write => r.payload
  | .read => List.replicate r.payload.length 0
  | .event => List.replicate r.payload.length 0

/-- The stored tuple of the cell at address `a` (10_state.md R21). -/
def tupleAt (s : State) (a : Byte) : List Pattern := (keyedGet s.store a.toNat).getD []

/-- The operational-control byte, `regcell(10).elems[0]` (10_state.md R25). -/
def opctrl (s : State) : Byte := ((tupleAt s 10).headD 0).setWidth 8

/-- `pin_out[p]`, `none` while unset (10_state.md R36). -/
def pinOutAt (s : State) (p : Nat) : Option Bool := keyedGet s.pinOut p

/-- Is a fire of some event in progress (45_events.md R191 (a))? -/
def anyBusy (s : State) : Bool := s.evs.any EventState.busy

/-- Has some poll-driven event a tick that DISP has not served (44_dispatch.md R158)? -/
def anyPending (s : State) : Bool :=
  (s.cfg.events.zip s.evs).any fun p => p.1.kind == .poll && p.2.pending

/-- The number of a cause (60_exceptions.md R194). It is never on the wire and no state holds it. -/
def Cause.code (c : Cause) : Nat :=
  match c with
  | .invalidMsgtype => 1
  | .badChecksum => 2
  | .shortFrame => 3
  | .unknownAddress => 16
  | .typeMismatch => 17
  | .readOnly => 18
  | .indexRange => 19
  | .replyOverflow => 32
  | .badConfig => 48

/-- The classes of 60_exceptions.md R194. -/
inductive CauseClass
  | framing
  | access
  | fault
  | configuration
deriving DecidableEq, Repr

/-- The class of a cause (60_exceptions.md R194). -/
def Cause.cls (c : Cause) : CauseClass :=
  match c with
  | .invalidMsgtype => .framing
  | .badChecksum => .framing
  | .shortFrame => .framing
  | .unknownAddress => .access
  | .typeMismatch => .access
  | .readOnly => .access
  | .indexRange => .access
  | .replyOverflow => .fault
  | .badConfig => .configuration

end Sys2Proof.Machine
end

