-- ==== Sys2Proof/Machine/Ops.lean ====
section
/-! DEFINITION. The shared operations of the block: draws, queues (45_events.md), the clock (42_clock.md), the register
mux (43_registers.md), the control hook, taking an error (41_rxtx.md R113, 44_dispatch.md R166), the phases of a request
(44_dispatch.md), and the configuration check before reset. -/
namespace Sys2Proof.Machine

/-! ## Draws (00_scope.md R13) -/

/-- `draw tick_us` (42_clock.md R120): the next sample the environment has ready, else a free value (log 5). -/
def drawTick (s : State) : Tick × State :=
  match s.tickIn with
  | r :: rs => (r, s.setTickIn rs)
  | [] => (Config.freeTick s.freeCount, s.setFreeCount (s.freeCount + 1))

/-- `draw pin_in[p]` (10_state.md R45): the next level the environment has ready, else a free value (log 6). -/
def drawPin (p : Nat) (s : State) : Bool × State :=
  match s.pinIn with
  | v :: vs => (v, s.setPinIn vs)
  | [] => (Config.freePin p s.freeCount, s.setFreeCount (s.freeCount + 1))

/-! ## Queues (45_events.md R186 to R189) -/

/-- `Append(q, F)` with capacity `cap` (45_events.md R187): a full queue loses its oldest frame. -/
def queueAppend (cap : Nat) (q : List Frame) (F : Frame) : List Frame :=
  (if q.length = cap then q.drop 1 else q) ++ [F]

/-- `Pop(q)` (45_events.md R188); `none` for the empty queue, to which it is never applied. -/
def queuePop (q : List Frame) : Option (Frame × List Frame) :=
  match q with
  | [] => none
  | F :: q => some (F, q)

/-- `Append(rxq, F)`. -/
def appendRx (F : Frame) (s : State) : State := s.setRxq (queueAppend s.cfg.rxqCap s.rxq F)

/-- `Append(txq, F)`. -/
def appendTx (F : Frame) (s : State) : State := s.setTxq (queueAppend s.cfg.txqCap s.txq F)

/-! ## The clock synchronizer (42_clock.md) -/

/-- 42_clock.md R121: `(r − last) mod 2^30`. -/
def clockDelta (r last : Tick) : Tick := r - last

/-- 42_clock.md R122. -/
def clockSample (s : State) : State :=
  let (r, s1) := drawTick s
  s1.setClock ⟨s.clock.acc + (clockDelta r s.clock.last).toNat, r, s.clock.off⟩

/-- `clk_acc + clk_off`, in microseconds (42_clock.md R123). -/
def clockTotal (s : State) : Int := s.clock.acc + s.clock.off.toInt

/-- Does an integer fit an s_64 (00_scope.md R12)? -/
def fitsS64 (x : Int) : Bool := decide (-2 ^ 63 ≤ x) && decide (x < 2 ^ 63)

/-- An offset as `clk_off` holds it (10_state.md R27): exact where it fits an s_64, else a free value (log 22). -/
def toOffset (x : Int) : BitVec 64 := if fitsS64 x then BitVec.ofInt 64 x else Config.freeOffset x

/-- The timestamp of a microsecond total (42_clock.md R123). -/
def stampOf (total : Int) : Stamp where
  sec := BitVec.ofInt 32 (total / 1000000)
  ticks := BitVec.ofInt 16 (total % 1000000 / 32)

/-- `ClockRead()` (42_clock.md R123). -/
def clockRead (s : State) : Stamp × State :=
  let s1 := clockSample s
  (stampOf (clockTotal s1), s1)

/-- `ClockWrite(target)`, the rebase (42_clock.md R124). -/
def clockWrite (target : BitVec 32) (s : State) : State :=
  let s1 := clockSample s
  let sub := clockTotal s1 % 1000000
  s1.setClock { s1.clock with off := toOffset ((target.toNat : Int) * 1000000 + sub - s1.clock.acc) }

/-! ## Event enables and the control hook -/

/-- `set_enabled(e, b)` (45_events.md R177). -/
def setEnabled (b : Bool) (e : EventState) : EventState := { e with en := b, arm := b }

/-- Part 1 of the hook (43_registers.md R146), over all events in order. -/
def hookEvents (v : Byte) (ds : List EventDesc) (es : List EventState) : List EventState :=
  match ds, es with
  | d :: ds, e :: es => setEnabled (syncEn d.cls v) e :: hookEvents v ds es
  | _, es => es

/-- `ControlHook(v)` (43_registers.md R145 to R147). -/
def controlHook (v : Byte) (s : State) : State :=
  (s.setEvs (hookEvents v s.cfg.events s.evs)).setLevels (opleden v) (visualen v)

/-! ## The register mux -/

/-- A read of a stored cell: RO (43_registers.md R135), RW (R138), OPCTRL (R144). -/
def readStored (c : Cell) (tc : Byte) (s : State) : Except Cause (List Pattern) × State :=
  if tc ≠ c.tcode then (.error .typeMismatch, s) else (.ok (tupleAt s c.addr), s)

/-- A read of TIMESTAMP_SECOND (42_clock.md R127). -/
def readSeconds (c : Cell) (tc : Byte) (s : State) : Except Cause (List Pattern) × State :=
  if tc ≠ c.tcode then (.error .typeMismatch, s)
  else
    let (t, s1) := clockRead s
    (.ok [t.sec.setWidth 64], s1)

/-- A read of TIMESTAMP_MICRO (42_clock.md R129). -/
def readMicro (c : Cell) (tc : Byte) (s : State) : Except Cause (List Pattern) × State :=
  if tc ≠ c.tcode then (.error .typeMismatch, s)
  else
    let (t, s1) := clockRead s
    (.ok [t.ticks.setWidth 64], s1)

/-- A read of a pin-mapped cell (43_registers.md R152). -/
def readPin (c : Cell) (p : Nat) (tc : Byte) (s : State) : Except Cause (List Pattern) × State :=
  if tc ≠ c.tcode then (.error .typeMismatch, s)
  else
    let (v, s1) := drawPin p s
    (.ok [if v then 1 else 0], s1)

/-- `RegRead(a, tc)` (43_registers.md R140). -/
def regRead (a tc : Byte) (s : State) : Except Cause (List Pattern) × State :=
  match s.cfg.cellAt a with
  | none => (.error .unknownAddress, s)
  | some c =>
    match c.variant with
    | .ro => readStored c tc s
    | .rw => readStored c tc s
    | .opctrl => readStored c tc s
    | .tsSec => readSeconds c tc s
    | .tsMicro => readMicro c tc s
    | .pin p => readPin c p tc s

/-- Replace the stored tuple of a cell (43_registers.md R139). -/
def storeTuple (a : Byte) (E : List Pattern) (s : State) : State := s.setStore (keyedSet s.store a.toNat E)

/-- The effect of a write that passed its checks, by variant (43_registers.md R139, R145, R153; 42_clock.md R128). RO
and TS_MICRO have none. -/
def writeCell (c : Cell) (E : List Pattern) (s : State) : State :=
  match c.variant with
  | .ro => s
  | .tsMicro => s
  | .rw => storeTuple c.addr E s
  | .opctrl => controlHook ((E.headD 0).setWidth 8) (storeTuple c.addr E s)
  | .tsSec => clockWrite ((E.headD 0).setWidth 32) s
  | .pin p => s.setPinOut (keyedSet s.pinOut p ((E.headD 0) != 0))

/-- Is the cell one whose writes always fail (43_registers.md R133, R136; 42_clock.md R130)? -/
def writeProtected (v : Variant) : Bool :=
  match v with
  | .ro => true
  | .tsMicro => true
  | .rw => false
  | .opctrl => false
  | .tsSec => false
  | .pin _ => false

/-- `RegWrite(a, tc, F)`, the checks in the order of 43_registers.md R141; `E` is the request's decoded payload. -/
def regWrite (a tc : Byte) (E : List Pattern) (s : State) : Res × State :=
  match s.cfg.cellAt a with
  | none => (.err .unknownAddress, s)
  | some c =>
    if writeProtected c.variant then (.err .readOnly, s)
    else if tc ≠ c.tcode then (.err .typeMismatch, s)
    else if E.length ≠ c.count then (.err .indexRange, s)
    else (.ok, writeCell c E s)

/-! ## Building frames -/

/-- Build and finalize an outbound frame (40_codec.md R102, R103): the payload behind a timestamp, length
`P + 10` (30_encoding.md R87). `none` where R102 refuses. -/
def builtFrame (mt a tc : Byte) (ts : Stamp) (PB : List Byte) : Option Frame :=
  (Codec.encode mt (PB.length + 10) a tc (some ts) PB).map Codec.finalizeChecksum

/-- Reply synthesis (44_dispatch.md R163): `L' = n × s + 11 − 1`. -/
def replyFrame (r : Request) (E : List Pattern) (ts : Stamp) : Option Frame :=
  (Codec.encode r.kind.byte (E.length * Codec.size r.tc + 11 - 1) r.addr r.tc (some ts) (Codec.pack r.tc E)).map
    Codec.finalizeChecksum

/-- ERROR reply synthesis (44_dispatch.md R166): messageType with 0x08 set, the request's address and type code. -/
def errorFrame (r : Request) (ts : Stamp) : Option Frame :=
  (Codec.encode (r.kind.byte ||| 0x08) (errorLen r) r.addr r.tc (some ts) (errorPayload r)).map
    Codec.finalizeChecksum

/-! ## Taking an error -/

/-- Taking a framing cause: discard (41_rxtx.md R113, 60_exceptions.md R195). The cause leaves no trace (R199). -/
def takeFramingError (_cause : Cause) (s : State) : State := s.setRx ⟨.hdr, [], 2⟩

/-- Taking an access cause, in phase BUILD (44_dispatch.md R166, R168; 60_exceptions.md R196, R198): an ERROR reply in
phase SEND, or, when its length is no byte, the sticky fault and phase SYNC. The cause is not encoded anywhere (R199).
-/
def takeAccessError (_cause : Cause) (r : Request) (ts : Stamp) (s : State) :
    Host.Outcome State Fault Refusal :=
  if 255 < errorLen r then .next ((s.setFaultReplyLen true).setDisp .sync)
  else
    match errorFrame r ts with
    | some R => .next (s.setDisp (.send R))
    | none => .refused .encodeOverflow

/-! ## The phases of a request (44_dispatch.md R158) -/

/-- POP (44_dispatch.md R159), for a non-empty `rxq`. -/
def popPhase (s : State) : State :=
  match queuePop s.rxq with
  | none => s
  | some (F, q) => (s.setRxq q).setDisp (.exec F)

/-- EXEC (44_dispatch.md R160): the write of a WRITE; READ and EVENT write nothing. -/
def execPhase (r : Request) (F : Frame) (s : State) : State :=
  match r.kind with
  | .write =>
    let (res, s1) := regWrite r.addr r.tc (reqElems r) s
    s1.setDisp (.stamp F res)
  | .read => s.setDisp (.stamp F .ok)
  | .event => s.setDisp (.stamp F .ok)

/-- STAMP (44_dispatch.md R165). -/
def stampPhase (F : Frame) (res : Res) (s : State) : State :=
  let (ts, s1) := clockRead s
  s1.setDisp (.build F res ts)

/-- BUILD (44_dispatch.md R161 to R168): the read or read-back, then the reply or the ERROR reply. -/
def buildPhase (r : Request) (res : Res) (ts : Stamp) (s : State) : Host.Outcome State Fault Refusal :=
  match res with
  | .err cause => takeAccessError cause r ts s
  | .ok =>
    match regRead r.addr r.tc s with
    | (.error cause, s1) => takeAccessError cause r ts s1
    | (.ok E, s1) =>
      match replyFrame r E ts with
      | some R => .next (s1.setDisp (.send R))
      | none => .refused .encodeOverflow

/-- The next atomic phase of request `r`, by the phase DISP is in (44_dispatch.md R158, log 18). In SEND, SYNC and POLL
no request's step is enabled, and nothing changes. -/
def requestStep (r : Request) (s : State) : Host.Outcome State Fault Refusal :=
  match s.disp with
  | .idle => .next (popPhase s)
  | .exec F => .next (execPhase r F s)
  | .stamp F res => .next (stampPhase F res s)
  | .build _ res ts => buildPhase r res ts s
  | .send _ => .next s
  | .sync => .next s
  | .poll _ => .next s

/-! ## Sending -/

/-- SEND (44_dispatch.md R169) of a frame built from its fields; outside phase SEND nothing is sent. -/
def sendPhase (mt : Byte) (o : OutOps) (s : State) : Host.Outcome State Fault Refusal :=
  match s.disp with
  | .send _ =>
    match builtFrame mt o.addr o.tc o.stamp o.payload with
    | some R => .next ((appendTx R s).setDisp .sync)
    | none => .refused .encodeOverflow
  | .idle => .next s
  | .exec _ => .next s
  | .stamp _ _ => .next s
  | .build _ _ _ => .next s
  | .sync => .next s
  | .poll _ => .next s

/-- Append a notification built from its fields (45_events.md R176, R181, R184). -/
def notify (o : OutOps) (s : State) : Host.Outcome State Fault Refusal :=
  match builtFrame 0x03 o.addr o.tc o.stamp o.payload with
  | some R => .next (appendTx R s)
  | none => .refused .encodeOverflow

/-! ## Events -/

/-- The elements an event reports (45_events.md R180): its register's, or its fixed payload. -/
def eventElems (d : EventDesc) (s : State) : Except Cause (List Pattern) × State :=
  match d.src with
  | .reg a => regRead a d.tcode s
  | .fixed E => (.ok E, s)

/-- The operands of an event's frame (45_events.md R176, R180): the register is read before the clock. -/
def eventOps (d : EventDesc) (s : State) : Except Cause OutOps × State :=
  match eventElems d s with
  | (.error c, s1) => (.error c, s1)
  | (.ok E, s1) =>
    let (ts, s2) := clockRead s1
    (.ok ⟨d.addr, d.tcode, ts, Codec.pack d.tcode E⟩, s2)

/-- Change the state of event `e`. -/
def setEvent (e : Nat) (ev : EventState) (s : State) : State := s.setEvs (s.evs.set e ev)

/-! ## Before reset -/

/-- The check of the configuration that comes before reset (60_exceptions.md R197, 70_reset_and_hazards.md R217): a
configuration that fails 00_scope.md R8 is refused, and there is no block to run. -/
def boot (c : Cfg) (r0 : Tick) : Host.Outcome State Fault Refusal :=
  if c.wf then .next (State.resetWith c r0) else .refused .badConfig

end Sys2Proof.Machine
end

