-- ==== Sys2Proof/Machine/Framing.lean ====
section
/-! DEFINITION. The framing reject: INVALID_MSGTYPE (41_rxtx.md R110). -/
namespace Sys2Proof.Machine

/-- INVALID_MSGTYPE (41_rxtx.md R110, R113): the two header bytes, whatever they are, are discarded and no reply is
sent. -/
def execInvalidMsgtype (_mt _len : Byte) (s : State) : Host.Outcome State Fault Refusal :=
  .next (takeFramingError .invalidMsgtype s)

end Sys2Proof.Machine
end

