-- ==== Sys2Proof/Machine/PayloadTypes.lean ====
section
/-! DEFINITION. The payloadType rows (30_encoding.md R75, R76). A row's instruction is a request of that type code; its meaning is
the request's next atomic phase, in which the type code is checked against the cell's (43_registers.md R142) and gives
the element size of the codec (log 1, log 18). -/
namespace Sys2Proof.Machine

/-- PT_U8: type code 0x01, unsigned, 1 byte (30_encoding.md R75). -/
def execPtU8 (o : TypeOps) (s : State) : Host.Outcome State Fault Refusal := requestStep (o.request 0x01) s

/-- PT_S8: type code 0x81, two's complement, 1 byte (30_encoding.md R75). -/
def execPtS8 (o : TypeOps) (s : State) : Host.Outcome State Fault Refusal := requestStep (o.request 0x81) s

/-- PT_U16: type code 0x02, unsigned, 2 bytes (30_encoding.md R75). -/
def execPtU16 (o : TypeOps) (s : State) : Host.Outcome State Fault Refusal := requestStep (o.request 0x02) s

/-- PT_S16: type code 0x82, two's complement, 2 bytes (30_encoding.md R75). -/
def execPtS16 (o : TypeOps) (s : State) : Host.Outcome State Fault Refusal := requestStep (o.request 0x82) s

/-- PT_U32: type code 0x04, unsigned, 4 bytes (30_encoding.md R75). -/
def execPtU32 (o : TypeOps) (s : State) : Host.Outcome State Fault Refusal := requestStep (o.request 0x04) s

/-- PT_S32: type code 0x84, two's complement, 4 bytes (30_encoding.md R75). -/
def execPtS32 (o : TypeOps) (s : State) : Host.Outcome State Fault Refusal := requestStep (o.request 0x84) s

/-- PT_U64: type code 0x08, unsigned, 8 bytes (30_encoding.md R75). -/
def execPtU64 (o : TypeOps) (s : State) : Host.Outcome State Fault Refusal := requestStep (o.request 0x08) s

/-- PT_S64: type code 0x88, two's complement, 8 bytes (30_encoding.md R75). -/
def execPtS64 (o : TypeOps) (s : State) : Host.Outcome State Fault Refusal := requestStep (o.request 0x88) s

/-- PT_FLOAT: type code 0x44, IEEE-754 binary32, bit-exact, 4 bytes (30_encoding.md R75). -/
def execPtFloat (o : TypeOps) (s : State) : Host.Outcome State Fault Refusal := requestStep (o.request 0x44) s

/-- PT_UNSUPPORTED: a type code outside the nine; no cell has it, so the request gets an ERROR reply and its payload is
never decoded (30_encoding.md R76). -/
def execPtUnsupported (tc : Byte) (o : TypeOps) (s : State) : Host.Outcome State Fault Refusal := requestStep (o.request tc) s

end Sys2Proof.Machine
end

