-- ==== Sys2Proof/Machine/Registers.lean ====
section
/-! DEFINITION. The address rows (30_encoding.md R92). A row's instruction is a request to that address; its meaning is the
request's next atomic phase, in which the address decoder selects the cell and the mux its variant's rule
(43_registers.md R132, R140, R141; log 1, log 18). -/
namespace Sys2Proof.Machine

/-- REG_WHO_AM_I: address 0, RO, U16 x 1 (43_registers.md R157). -/
def execRegWhoAmI (o : AddrOps) (s : State) : Host.Outcome State Fault Refusal := requestStep (o.request 0) s

/-- REG_HW_VERSION_H: address 1, RO, U8 x 1 (R157). -/
def execRegHwVersionH (o : AddrOps) (s : State) : Host.Outcome State Fault Refusal := requestStep (o.request 1) s

/-- REG_HW_VERSION_L: address 2, RO, U8 x 1 (R157). -/
def execRegHwVersionL (o : AddrOps) (s : State) : Host.Outcome State Fault Refusal := requestStep (o.request 2) s

/-- REG_ASSEMBLY_VERSION: address 3, RO, U8 x 1 (R157). -/
def execRegAssemblyVersion (o : AddrOps) (s : State) : Host.Outcome State Fault Refusal := requestStep (o.request 3) s

/-- REG_HARP_VERSION_H: address 4, RO, U8 x 1 (R157). -/
def execRegHarpVersionH (o : AddrOps) (s : State) : Host.Outcome State Fault Refusal := requestStep (o.request 4) s

/-- REG_HARP_VERSION_L: address 5, RO, U8 x 1 (R157). -/
def execRegHarpVersionL (o : AddrOps) (s : State) : Host.Outcome State Fault Refusal := requestStep (o.request 5) s

/-- REG_FW_VERSION_H: address 6, RO, U8 x 1 (R157). -/
def execRegFwVersionH (o : AddrOps) (s : State) : Host.Outcome State Fault Refusal := requestStep (o.request 6) s

/-- REG_FW_VERSION_L: address 7, RO, U8 x 1 (R157). -/
def execRegFwVersionL (o : AddrOps) (s : State) : Host.Outcome State Fault Refusal := requestStep (o.request 7) s

/-- REG_TIMESTAMP_SECOND: address 8, TS_SEC, U32 x 1: a read samples the clock, a write rebases it (42_clock.md R127, R128). -/
def execRegTimestampSecond (o : AddrOps) (s : State) : Host.Outcome State Fault Refusal := requestStep (o.request 8) s

/-- REG_TIMESTAMP_MICRO: address 9, TS_MICRO, U16 x 1: a read samples the clock, a write fails (42_clock.md R129, R130). -/
def execRegTimestampMicro (o : AddrOps) (s : State) : Host.Outcome State Fault Refusal := requestStep (o.request 9) s

/-- REG_OPERATION_CTRL: address 10, OPCTRL, U8 x 1: a write runs the control hook (43_registers.md R144 to R147). -/
def execRegOperationCtrl (o : AddrOps) (s : State) : Host.Outcome State Fault Refusal := requestStep (o.request 10) s

/-- REG_RESET_DEV: address 11, RW, U8 x 1, no side effect (43_registers.md R154). -/
def execRegResetDev (o : AddrOps) (s : State) : Host.Outcome State Fault Refusal := requestStep (o.request 11) s

/-- REG_DEVICE_NAME: address 12, RW, U8 x NAME_LEN (43_registers.md R155). -/
def execRegDeviceName (o : AddrOps) (s : State) : Host.Outcome State Fault Refusal := requestStep (o.request 12) s

/-- REG_SERIAL_NUMBER: address 13, RW, U16 x 1 (43_registers.md R156). -/
def execRegSerialNumber (o : AddrOps) (s : State) : Host.Outcome State Fault Refusal := requestStep (o.request 13) s

/-- REG_UNMAPPED: an address with no cell: UNKNOWN_ADDRESS, an ERROR reply (44_dispatch.md R173). -/
def execRegUnmapped (a : Byte) (o : AddrOps) (s : State) : Host.Outcome State Fault Refusal := requestStep (o.request a) s

/-- REG_APP: an address of `APP_REGS`: a plain RO or RW cell (43_registers.md R137). -/
def execRegApp (a : Byte) (o : AddrOps) (s : State) : Host.Outcome State Fault Refusal := requestStep (o.request a) s

/-- REG_PIN: an address of `PIN_REGS`: a read draws the pin's level, a write drives it (43_registers.md R152, R153). -/
def execRegPin (a : Byte) (o : AddrOps) (s : State) : Host.Outcome State Fault Refusal := requestStep (o.request a) s

end Sys2Proof.Machine
end

