-- ==== Sys2Proof/Machine/Replies.lean ====
section
/-! DEFINITION. The outbound messageType rows: replies and ERROR replies, sent by DISP (44_dispatch.md R163, R166, R169), and
EVENT_NOTIFY, appended by an event (45_events.md R176, R181, R184). Each meaning builds the frame from its fields, with
length `P + 10`, HAS_TS set, port 0xFF and the checksum last, and appends it to the transmit queue (log 17). -/
namespace Sys2Proof.Machine

/-- REPLY_READ: the success reply to a READ (44_dispatch.md R163) is sent (R169). -/
def execReplyRead (o : OutOps) (s : State) : Host.Outcome State Fault Refusal := sendPhase 0x01 o s

/-- REPLY_WRITE: the success reply to a WRITE (R163) is sent (R169). -/
def execReplyWrite (o : OutOps) (s : State) : Host.Outcome State Fault Refusal := sendPhase 0x02 o s

/-- REPLY_EVENT: the success reply to an inbound EVENT (R163, R164) is sent (R169). -/
def execReplyEvent (o : OutOps) (s : State) : Host.Outcome State Fault Refusal := sendPhase 0x03 o s

/-- EVENT_NOTIFY: an event's frame (45_events.md R176) is appended, in whatever phase DISP is (R181, R184). -/
def execEventNotify (o : OutOps) (s : State) : Host.Outcome State Fault Refusal := notify o s

/-- ERROR_READ: the ERROR reply to a READ (44_dispatch.md R166) is sent (R169). -/
def execErrorRead (o : OutOps) (s : State) : Host.Outcome State Fault Refusal := sendPhase 0x09 o s

/-- ERROR_WRITE: the ERROR reply to a WRITE (R166) is sent (R169). -/
def execErrorWrite (o : OutOps) (s : State) : Host.Outcome State Fault Refusal := sendPhase 0x0A o s

/-- ERROR_EVENT: the ERROR reply to an inbound EVENT (R166) is sent (R169). -/
def execErrorEvent (o : OutOps) (s : State) : Host.Outcome State Fault Refusal := sendPhase 0x0B o s

end Sys2Proof.Machine
end

