-- ==== Sys2Proof/Machine/Requests.lean ====
section
/-! DEFINITION. The inbound messageType rows: READ, WRITE and EVENT_IN (44_dispatch.md R161, R162, R164). Each meaning is the
request's next atomic phase (log 18). -/
namespace Sys2Proof.Machine

/-- READ (44_dispatch.md R161): EXEC writes nothing, STAMP reads the clock, BUILD reads the addressed register and builds
a reply of messageType 0x01, or an ERROR reply of 0x09 with a zero payload. -/
def execRead (o : MsgOps) (s : State) : Host.Outcome State Fault Refusal := requestStep (o.request .read) s

/-- WRITE (44_dispatch.md R162): EXEC writes the addressed register, STAMP reads the clock, BUILD reads the register back
and builds a reply of messageType 0x02, or an ERROR reply of 0x0A that echoes the payload. -/
def execWrite (o : MsgOps) (s : State) : Host.Outcome State Fault Refusal := requestStep (o.request .write) s

/-- EVENT_IN (44_dispatch.md R164): a READ whose reply keeps messageType 0x03, or an ERROR reply of 0x0B. -/
def execEventIn (o : MsgOps) (s : State) : Host.Outcome State Fault Refusal := requestStep (o.request .event) s

end Sys2Proof.Machine
end

