-- ==== Sys2Proof/Machine/Dispatch.lean ====
section
/-! DEFINITION. The meaning of each instruction, one arm for each row of the opcode table. -/
namespace Sys2Proof.Machine

def exec (i : Instr) (s : State) : Host.Outcome State Fault Refusal :=
  match i with
  | .read o => Sys2Proof.Machine.execRead o s
  | .write o => Sys2Proof.Machine.execWrite o s
  | .eventIn o => Sys2Proof.Machine.execEventIn o s
  | .replyRead o => Sys2Proof.Machine.execReplyRead o s
  | .replyWrite o => Sys2Proof.Machine.execReplyWrite o s
  | .replyEvent o => Sys2Proof.Machine.execReplyEvent o s
  | .eventNotify o => Sys2Proof.Machine.execEventNotify o s
  | .errorRead o => Sys2Proof.Machine.execErrorRead o s
  | .errorWrite o => Sys2Proof.Machine.execErrorWrite o s
  | .errorEvent o => Sys2Proof.Machine.execErrorEvent o s
  | .invalidMsgtype mt len => Sys2Proof.Machine.execInvalidMsgtype mt len s
  | .ptU8 o => Sys2Proof.Machine.execPtU8 o s
  | .ptS8 o => Sys2Proof.Machine.execPtS8 o s
  | .ptU16 o => Sys2Proof.Machine.execPtU16 o s
  | .ptS16 o => Sys2Proof.Machine.execPtS16 o s
  | .ptU32 o => Sys2Proof.Machine.execPtU32 o s
  | .ptS32 o => Sys2Proof.Machine.execPtS32 o s
  | .ptU64 o => Sys2Proof.Machine.execPtU64 o s
  | .ptS64 o => Sys2Proof.Machine.execPtS64 o s
  | .ptFloat o => Sys2Proof.Machine.execPtFloat o s
  | .ptUnsupported tc o => Sys2Proof.Machine.execPtUnsupported tc o s
  | .regWhoAmI o => Sys2Proof.Machine.execRegWhoAmI o s
  | .regHwVersionH o => Sys2Proof.Machine.execRegHwVersionH o s
  | .regHwVersionL o => Sys2Proof.Machine.execRegHwVersionL o s
  | .regAssemblyVersion o => Sys2Proof.Machine.execRegAssemblyVersion o s
  | .regHarpVersionH o => Sys2Proof.Machine.execRegHarpVersionH o s
  | .regHarpVersionL o => Sys2Proof.Machine.execRegHarpVersionL o s
  | .regFwVersionH o => Sys2Proof.Machine.execRegFwVersionH o s
  | .regFwVersionL o => Sys2Proof.Machine.execRegFwVersionL o s
  | .regTimestampSecond o => Sys2Proof.Machine.execRegTimestampSecond o s
  | .regTimestampMicro o => Sys2Proof.Machine.execRegTimestampMicro o s
  | .regOperationCtrl o => Sys2Proof.Machine.execRegOperationCtrl o s
  | .regResetDev o => Sys2Proof.Machine.execRegResetDev o s
  | .regDeviceName o => Sys2Proof.Machine.execRegDeviceName o s
  | .regSerialNumber o => Sys2Proof.Machine.execRegSerialNumber o s
  | .regUnmapped a o => Sys2Proof.Machine.execRegUnmapped a o s
  | .regApp a o => Sys2Proof.Machine.execRegApp a o s
  | .regPin a o => Sys2Proof.Machine.execRegPin a o s

end Sys2Proof.Machine
end

