-- ==== Sys2Proof/Machine/Agents.lean ====
section
/-! DEFINITION. The agents of the block and their atomic steps (00_scope.md R9, 20_memory.md R58): RX and TX
(41_rxtx.md), DISP (44_dispatch.md), the interrupt contexts (45_events.md) and the environment; and who steps next
(45_events.md R191). A choice whose step is not enabled leaves the block as it is (log 4). -/
namespace Sys2Proof.Machine

/-! ## RX -/

/-- RX stage-2 validation (41_rxtx.md R112): checksum, then structure, then the append. -/
def rxComplete (s : State) : State :=
  if !Codec.validateChecksum s.rx.buf then takeFramingError .badChecksum s
  else if !Codec.validateStructure s.rx.buf then takeFramingError .shortFrame s
  else (appendRx s.rx.buf s).setRx ⟨.hdr, [], 2⟩

/-- RX header byte and stage-1 validation (41_rxtx.md R109, R110). An invalid messageType runs INVALID_MSGTYPE. -/
def rxHeader (b : Byte) (s : State) : Host.Outcome State Fault Refusal :=
  let buf := s.rx.buf ++ [b]
  match buf with
  | [b0, b1] =>
    let (mt, len) := Codec.decodeHeader b0 b1
    if Codec.validateMessageType mt then
      let s1 := s.setRx ⟨.body, buf, len.toNat⟩
      if len = 0 then .next (rxComplete s1) else .next s1
    else exec (.invalidMsgtype mt len) (s.setRx ⟨.hdr, buf, 0⟩)
  | _ => .next (s.setRx ⟨.hdr, buf, 2 - buf.length⟩)

/-- RX body byte (41_rxtx.md R111). -/
def rxBody (b : Byte) (s : State) : Host.Outcome State Fault Refusal :=
  let s1 := s.setRx ⟨.body, s.rx.buf ++ [b], s.rx.need - 1⟩
  if s.rx.need = 1 then .next (rxComplete s1) else .next s1

/-- One step of RX: one byte (41_rxtx.md R109, R111, R114). -/
def rxStep (s : State) : Host.Outcome State Fault Refusal :=
  match s.rxIn with
  | [] => .next s
  | b :: rest =>
    match s.rx.stage with
    | .hdr => rxHeader b (s.setRxIn rest)
    | .body => if s.rx.need = 0 then .next s else rxBody b (s.setRxIn rest)

/-! ## TX -/

/-- One step of TX: one whole frame (41_rxtx.md R117, R118). -/
def txStep (s : State) : Host.Outcome State Fault Refusal :=
  match queuePop s.txq with
  | none => .next s
  | some (F, q) => .next ((s.setTxq q).setTxOut (s.txOut ++ F))

/-! ## DISP -/

/-- DISP runs the instruction that its request frame is. -/
def runRequest (F : Frame) (s : State) : Host.Outcome State Fault Refusal :=
  match decodeAs .request s.cfg F with
  | .ok i => exec i s
  | .error _ => .fault .notARequest

/-- DISP runs the instruction that its reply frame is. -/
def runReply (R : Frame) (s : State) : Host.Outcome State Fault Refusal :=
  match decodeAs .reply s.cfg R with
  | .ok i => exec i s
  | .error _ => .fault .notABuiltFrame

/-- SYNC (44_dispatch.md R170). -/
def syncPhase (s : State) : State := (controlHook (opctrl s) s).setDisp (.poll 0)

/-- `PollService(e)` (45_events.md R184), for a pending poll-driven event. -/
def pollService (e : Nat) (d : EventDesc) (ev : EventState) (s : State) : Host.Outcome State Fault Refusal :=
  let s1 := setEvent e { ev with pending := false } s
  if !ev.en then .next s1
  else
    match eventOps d s1 with
    | (.error _, _) => .fault .eventReadFailed
    | (.ok o, s2) => exec (.eventNotify o) s2

/-- POLL(k) (44_dispatch.md R171). -/
def pollPhase (k : Nat) (s : State) : Host.Outcome State Fault Refusal :=
  match s.cfg.events[k]?, s.evs[k]? with
  | some d, some ev =>
    let s1 := s.setDisp (.poll (k + 1))
    if d.kind = .poll ∧ ev.pending then pollService k d ev s1 else .next s1
  | _, _ => .next (s.setDisp .idle)

/-- One step of DISP: one phase (44_dispatch.md R158). -/
def dispStep (s : State) : Host.Outcome State Fault Refusal :=
  match s.disp with
  | .idle =>
    match s.rxq with
    | F :: _ => runRequest F s
    | [] => if anyPending s then .next (s.setDisp .sync) else .next s
  | .exec F => runRequest F s
  | .stamp F _ => runRequest F s
  | .build F _ _ => runRequest F s
  | .send R => runReply R s
  | .sync => .next (syncPhase s)
  | .poll k => pollPhase k s

/-! ## Interrupt contexts: entry and return (60_exceptions.md R205, R206) -/

/-- A timer or edge trigger and the first step of ISR(e) (45_events.md R178 to R180). A trigger of a disabled event does
nothing else (R182); one of an event whose fire is in progress is not taken (R191 (c)). -/
def fireStep (e : Nat) (s : State) : Host.Outcome State Fault Refusal :=
  match s.cfg.events[e]?, s.evs[e]? with
  | some d, some ev =>
    if d.kind = .poll ∨ ev.busy ∨ !ev.en then .next s
    else
      match eventOps d s with
      | (.error _, _) => .fault .eventReadFailed
      | (.ok o, s1) =>
        match builtFrame 0x03 o.addr o.tc o.stamp o.payload with
        | some F => .next (setEvent e { ev with stage := some F, busy := true } s1)
        | none => .refused .encodeOverflow
  | _, _ => .next s

/-- The second step of ISR(e) (45_events.md R181): the staged frame is appended, as the instruction EVENT_NOTIFY that it
is, even if the event was disabled since. -/
def appendStep (e : Nat) (s : State) : Host.Outcome State Fault Refusal :=
  match s.evs[e]? with
  | none => .next s
  | some ev =>
    if !ev.busy then .next s
    else
      match ev.stage with
      | none => .fault .nothingStaged
      | some F =>
        match decodeAs .notification s.cfg F with
        | .ok i => exec i (setEvent e { ev with stage := none, busy := false } s)
        | .error _ => .fault .notABuiltFrame

/-- A poll tick and the step of TMR(e) (45_events.md R183). -/
def tickStep (e : Nat) (s : State) : State :=
  match s.cfg.events[e]?, s.evs[e]? with
  | some d, some ev =>
    if d.kind = .poll ∧ ev.en then setEvent e { ev with pending := true } s else s
  | _, _ => s

/-! ## Who steps -/

/-- May RX or TX step: DISP is idle (10_state.md R33) and no fire is in progress (45_events.md R191 (a))? -/
def cooperativeIdle (s : State) : Bool := s.disp == .idle && !anyBusy s

/-- The step that a choice names. -/
def agentStep (m : Move) (s : State) : Host.Outcome State Fault Refusal :=
  match m with
  | .rx => if cooperativeIdle s then rxStep s else .next s
  | .tx => if cooperativeIdle s then txStep s else .next s
  | .disp => if anyBusy s then .next s else dispStep s
  | .fire e => fireStep e s
  | .append e => appendStep e s
  | .tick e => .next (tickStep e s)
  | .envByte b => .next (s.setRxIn (s.rxIn ++ [b]))
  | .envTick r => .next (s.setTickIn (s.tickIn ++ [r]))
  | .envPin v => .next (s.setPinIn (s.pinIn ++ [v]))

/-- The next choice of who steps: the next one listed, else a free value (45_events.md R191 (d), log 4). -/
def chooseMove (s : State) : Move × State :=
  match s.moves with
  | m :: ms => (m, s.setMoves ms)
  | [] => (Config.freeMove s.freeCount, s.setFreeCount (s.freeCount + 1))

/-- End the fires in progress, so that a cooperative agent may step: what `withFetchWord` needs of the events. -/
def quietEvents (s : State) : State := s.setEvs (s.evs.map fun ev => { ev with busy := false, stage := none })

/-- Put the bytes of instruction `i` where the next step takes them, and let the agent that runs it step next (log 3): a
request in DISP's phase EXEC, a reply in phase SEND, a header in RX with its second byte next on `rx_in`. A notification
has no place without an event that stages it, and no opcode-table word is read as one (log 2). -/
def placeInstr (i : Instr) (s : State) : State :=
  let q := quietEvents s
  match i.request?, i with
  | some _, _ => (q.setDisp (.exec (encode i))).setMoves (.disp :: s.moves)
  | none, .invalidMsgtype mt len =>
    (((q.setDisp .idle).setRx ⟨.hdr, [mt], 1⟩).setRxIn (len :: s.rxIn)).setMoves (.rx :: s.moves)
  | none, .eventNotify _ => s
  | none, _ => (q.setDisp (.send (encode i))).setMoves (.disp :: s.moves)

end Sys2Proof.Machine
end

