-- ==== Sys2Proof/Machine/Step.lean ====
section
/-! DEFINITION. One step of the machine: the next choice of who steps, and that agent's atomic step. -/
namespace Sys2Proof.Machine

/-- One step (00_scope.md R9, 20_memory.md R58). -/
def step (s : State) : Host.Outcome State Fault Refusal :=
  agentStep (chooseMove s).1 (chooseMove s).2

/-- `s` with the opcode-table word placed where the next step runs it (log 2, log 3). -/
def State.withFetchWord (s : State) (nbits w : Nat) : State :=
  match decodeTableWord nbits w with
  | some i => placeInstr i s
  | none => s

end Sys2Proof.Machine
end

