-- ==== Sys2Proof/Safety.lean ====
section
/-! DEFINITION. What an observer sees of a run (00_scope.md R18), and the invariant of the block: what the spec's rules
say of every reachable state. -/
namespace Sys2Proof.Machine

/-- What `RegRead` returns of one cell: its address, the type code of the read, the result. -/
structure Reading where
  addr : Byte
  tcode : Byte
  result : Except Cause (List Pattern)
deriving DecidableEq, Repr

/-- What a `RegRead` of cell `c` by its own type code returns, from the samples and levels the environment has ready. The
state observed does not change, so each cell is read apart from the others (log 21). -/
def reading (s : State) (c : Cell) : Reading := ⟨c.addr, c.tcode, (regRead c.addr c.tcode s).1⟩

/-- What a model observes of a run (00_scope.md R18): the outbound bytes, the register map's contents as `RegRead`
returns them, the level ports and the sticky fault flag. -/
structure Observation where
  txOut : List Byte
  regs : List Reading
  arm : List Bool
  opledEn : Bool
  visualEn : Bool
  pinOut : Keyed Bool
  faultReplyLen : Bool
deriving DecidableEq, Repr

/-- The observation of a state. -/
def observe (s : State) : Observation :=
  ⟨s.txOut, s.cfg.cells.map (reading s), s.evs.map EventState.arm, s.opledEn, s.visualEn, s.pinOut, s.faultReplyLen⟩

/-- Does a cell hold a tuple of its own (10_state.md R21, R22)? -/
def Stored (v : Variant) : Prop := v = .ro ∨ v = .rw ∨ v = .opctrl

/-- A request: an inbound frame that passed framing (41_rxtx.md R115). -/
def IsRequest (F : Frame) : Prop := ∃ r, decodeRequest F = .ok r

/-- A reply or an ERROR reply (44_dispatch.md R163, R166). -/
def IsReply (c : Cfg) (R : Frame) : Prop := ∃ i, decodeAs .reply c R = .ok i

/-- An event's frame (45_events.md R176). -/
def IsNotification (c : Cfg) (F : Frame) : Prop := ∃ i, decodeAs .notification c F = .ok i

/-- The receive framing state is one that bytes lead to (10_state.md R29). -/
inductive RxOk : Rx → Prop
  | empty : RxOk ⟨.hdr, [], 2⟩
  | first (mt : Byte) : RxOk ⟨.hdr, [mt], 1⟩
  | body (mt len : Byte) (got : List Byte) (need : Nat) (hmt : Codec.validateMessageType mt = true)
      (hneed : 1 ≤ need) (hlen : got.length + need = len.toNat) : RxOk ⟨.body, mt :: len :: got, need⟩

/-- The state of one event is one that steps lead to: its enable is a function of the control byte (43_registers.md R146),
`arm` equals it (45_events.md R177), and a frame is staged exactly while a fire is in progress (R180, R181), which no
poll-driven event has; only a poll-driven event has a pending tick (R183). -/
structure EventOk (c : Cfg) (v : Byte) (d : EventDesc) (ev : EventState) : Prop where
  en_eq : ev.en = syncEn d.cls v
  arm_eq : ev.arm = ev.en
  busy_staged : ev.busy = ev.stage.isSome
  staged : ∀ F, ev.stage = some F → IsNotification c F
  poll_idle : d.kind = .poll → ev.busy = false
  pending_poll : ev.pending = true → d.kind = .poll

/-- The frames DISP holds are of the kind its phase says (10_state.md R33), and its place in the events is one. -/
def DispOk (c : Cfg) (p : DispPhase) : Prop :=
  match p with
  | .idle => True
  | .exec F => IsRequest F
  | .stamp F _ => IsRequest F
  | .build F _ _ => IsRequest F
  | .send R => IsReply c R
  | .sync => True
  | .poll k => k ≤ c.events.length

/-- The invariant of the block. -/
structure Inv (s : State) : Prop where
  /-- The configuration passed its check (00_scope.md R8). -/
  cfg_ok : s.cfg.wf = true
  /-- The stored tuples are in canonical form. -/
  store_wf : keyedWf s.store
  /-- Every stored tuple has its cell's count and width (10_state.md R21, R23). -/
  tuples : ∀ d ∈ s.cfg.cells, Stored d.variant → fitsTuple d.tcode d.count (tupleAt s d.addr) = true
  /-- The clock invariant (10_state.md R28). -/
  clock_nonneg : 0 ≤ clockTotal s
  /-- The receive framing state (10_state.md R29). -/
  rx_ok : RxOk s.rx
  /-- The queues are bounded (10_state.md R30, R31). -/
  rxq_bounded : s.rxq.length ≤ s.cfg.rxqCap
  txq_bounded : s.txq.length ≤ s.cfg.txqCap
  /-- `rxq` holds only requests, `txq` only frames the block builds (45_events.md R185). -/
  rxq_requests : ∀ F ∈ s.rxq, IsRequest F
  txq_built : ∀ F ∈ s.txq, IsReply s.cfg F ∨ IsNotification s.cfg F
  /-- One entry for each event (10_state.md R32), each as steps leave it. -/
  evs_length : s.evs.length = s.cfg.events.length
  evs_ok : ∀ (k : Nat) (d : EventDesc) (ev : EventState), s.cfg.events[k]? = some d → s.evs[k]? = some ev →
    EventOk s.cfg (opctrl s) d ev
  /-- The indicator levels mirror the control byte (43_registers.md R147). -/
  opled_eq : s.opledEn = opleden (opctrl s)
  visual_eq : s.visualEn = visualen (opctrl s)
  /-- DISP's phase (10_state.md R33). -/
  disp_ok : DispOk s.cfg s.disp
  /-- The pin outputs are in canonical form (10_state.md R36). -/
  pinOut_wf : keyedWf s.pinOut

/-- `n` steps of one choice, stopping at the first fault or refusal. -/
def agentSteps (m : Move) : Nat → State → Host.Outcome State Fault Refusal
  | 0, s => .next s
  | n + 1, s =>
    match agentStep m s with
    | .next t => agentSteps m n t
    | .fault f => .fault f
    | .refused r => .refused r

/-- The bytes of a success reply to request `r` (30_encoding.md R87, 44_dispatch.md R163): the request's messageType and
address, port 0xFF, its type code with HAS_TS, the timestamp, the elements, the checksum. -/
def replyBytes (r : Request) (ts : Stamp) (E : List Pattern) : Frame :=
  Codec.wholeFrame r.kind.byte r.addr 0xFF r.tc (some ts) (Codec.pack r.tc E)

/-- The bytes of an ERROR reply to request `r` (30_encoding.md R87, 44_dispatch.md R166, R167): messageType with 0x08 set,
a WRITE's payload echoed, zeros otherwise. -/
def errorBytes (r : Request) (ts : Stamp) : Frame :=
  Codec.wholeFrame (r.kind.byte ||| 0x08) r.addr 0xFF r.tc (some ts)
    (if r.kind = .write then r.payload else List.replicate r.payload.length 0)

/-- The bytes of an event's frame (45_events.md R176). -/
def eventBytes (d : EventDesc) (ts : Stamp) (E : List Pattern) : Frame :=
  Codec.wholeFrame 0x03 d.addr 0xFF d.tcode (some ts) (Codec.pack d.tcode E)

/-- A step that goes on. -/
def GoesOn (o : Host.Outcome State Fault Refusal) : Prop := ∃ t, o = .next t

end Sys2Proof.Machine
end

