-- ==== Sys2Proof/Certificates/Slice0/Obligations.lean ====
section
/-! DEFINITION. The statements for the provers. A statement about every state holds in states that no run reaches, unless
it takes the invariant of Safety.lean as a premise. Nothing here rests on the value of a model's own field. -/

section

open Sys2Proof Sys2Proof.Machine

/-! ## The frame codec -/

/-- For every byte list of at least one byte, validateChecksum of finalizeChecksum of it is true. (R108.) -/
def Obligations.FinalizedFramePassesItsChecksum : Prop :=
  ∀ B : List Byte, 1 ≤ B.length → Codec.validateChecksum (Codec.finalizeChecksum B) = true

/-- For every supported type code, every list of patterns of that width, every address, messageType and optional
timestamp, encode with length n x size + offset - 1 and then finalize gives, if that length is at most 255, a frame
whose decoded payload is the list, and which passes the checksum and the structural check. (R107.) -/
def Obligations.PackedPayloadDecodesBack : Prop :=
  ∀ (mt a tc : Byte) (ts : Option Stamp) (E : List Pattern) (L : Nat),
    Codec.supported tc = true → (∀ p ∈ E, p.toNat < 2 ^ (8 * Codec.size tc)) →
      L = E.length * Codec.size tc + Codec.payloadOffset (Codec.ptByte tc ts) - 1 → L ≤ 255 →
        ∃ F, (Codec.encode mt L a tc ts (Codec.pack tc E)).map Codec.finalizeChecksum = some F ∧
          Codec.decodePayload F = E ∧ Codec.validateChecksum F = true ∧ Codec.validateStructure F = true

/-! ## Decoding and encoding -/

/-- For every configuration and every well-formed instruction that the configuration admits, decoding its encoding in
the format of its row gives that instruction back, with every operand; and the two header bytes of INVALID_MSGTYPE,
followed by any bytes, decode to INVALID_MSGTYPE and those bytes. (30_encoding.md R67, 30_encoding.md R70,
30_encoding.md R75, 30_encoding.md R92, 41_rxtx.md R110.) -/
def Obligations.DecodingAnEncodingGivesItBack : Prop :=
  (∀ (c : Cfg) (fmt : Format) (i : Instr), i.ok = true → i.okIn c = true → i.format? = some fmt →
    decodeAs fmt c (encode i) = .ok i) ∧
  ∀ (mt len : Byte) (rest : List Byte), (Instr.invalidMsgtype mt len).ok = true →
    decode (encode (.invalidMsgtype mt len) ++ rest) = .ok (.invalidMsgtype mt len, rest)

/-- For every well-formed READ, WRITE or EVENT_IN and any bytes after it, the stream decoder answers the instruction
and exactly the bytes after it: the length byte alone says where a frame ends. (30_encoding.md R85, 30_encoding.md
R94.) -/
def Obligations.StreamDecodesTheFirstRequest : Prop :=
  ∀ mk ∈ [Instr.read, Instr.write, Instr.eventIn], ∀ (o : MsgOps) (rest : List Byte), o.ok = true →
    decode (encode (mk o) ++ rest) = .ok (mk o, rest)

/-- For every frame and format, if the frame decodes to an instruction then encoding that instruction gives the frame
byte for byte, and the instruction is well formed: no two frames are one instruction and no bit of a frame is dropped.
(30_encoding.md R67, 30_encoding.md R83, 30_encoding.md R94.) -/
def Obligations.EncodingADecodedFrameGivesItsBytes : Prop :=
  ∀ (c : Cfg) (fmt : Format) (F : Frame) (i : Instr), decodeAs fmt c F = .ok i →
    encode i = F ∧ i.ok = true ∧ i.okIn c = true ∧ i.format? = some fmt

/-- A byte list decodes to a request if and only if its length is its length byte plus 2, its first byte is 1, 2 or 3,
its checksum is right and its structure is whole. (R115.) -/
def Obligations.ARequestIsWhatPassesFraming : Prop :=
  ∀ F : Frame, IsRequest F ↔
    ∃ mt len rest, F = mt :: len :: rest ∧ F.length = len.toNat + 2 ∧ (mt = 1 ∨ mt = 2 ∨ mt = 3) ∧
      Codec.validateChecksum F = true ∧ Codec.validateStructure F = true

/-- Five frames of the test vectors, one for each format, decode to the instructions they stand for: a READ of
WHO_AM_I, the same frame by its type code, the control WRITE by its address, an ERROR reply, an event notification.
(95_test_vectors.md S5, 95_test_vectors.md S7, 95_test_vectors.md S8, 45_events.md R176.) -/
def Obligations.WrittenOutFramesDecode : Prop :=
  decodeAs .request Cfg.test [0x01, 0x04, 0x00, 0xFF, 0x02, 0x06] = .ok (.read ⟨0, 0xFF, 0x02, none, []⟩) ∧
  decodeAs .payloadType Cfg.test [0x01, 0x04, 0x00, 0xFF, 0x02, 0x06] = .ok (.ptU16 ⟨.read, 0, 0xFF, none, []⟩) ∧
  decodeAs .address Cfg.test [0x02, 0x05, 0x0A, 0xFF, 0x01, 0x80, 0x91] =
    .ok (.regOperationCtrl ⟨.write, 0xFF, 0x01, none, [0x80]⟩) ∧
  decodeAs .reply Cfg.test [0x09, 0x0A, 0x20, 0xFF, 0x11, 0, 0, 0, 0, 0, 0, 0x43] =
    .ok (.errorRead ⟨0x20, 0x01, ⟨0, 0⟩, []⟩) ∧
  decodeAs .notification Cfg.test [0x03, 0x0E, 0x08, 0xFF, 0x14, 0xE8, 0x03, 0, 0, 0, 0, 0xE8, 0x03, 0, 0, 0x02] =
    .ok (.eventNotify ⟨8, 0x04, ⟨1000, 0⟩, [0xE8, 0x03, 0, 0]⟩)

/-! ## A step and the decoded instruction -/

/-- When DISP is chosen and no fire is in progress, and the frame it holds (or the head of rxq, when idle) decodes to
i, step is exec of i on the state with that choice consumed; the same for the reply frame in phase SEND; when RX is
chosen and the header completes with an invalid messageType, step is exec of INVALID_MSGTYPE on the state with the
byte taken; when the append of event e is chosen, step is exec of its staged notification on the state with the fire
ended. (44_dispatch.md R158, 41_rxtx.md R110, 45_events.md R181.) -/
def Obligations.AStepRunsTheDecodedInstruction : Prop :=
  ∀ (s : State) (ms : List Move) (i : Instr),
    (∀ F, s.moves = .disp :: ms → anyBusy s = false →
      ((s.disp = .idle ∧ ∃ q, s.rxq = F :: q) ∨ s.disp = .exec F ∨ (∃ res, s.disp = .stamp F res) ∨
        ∃ res ts, s.disp = .build F res ts) →
      decodeAs .request s.cfg F = .ok i → step s = exec i (s.setMoves ms)) ∧
    (∀ R, s.moves = .disp :: ms → anyBusy s = false → s.disp = .send R → decodeAs .reply s.cfg R = .ok i →
      step s = exec i (s.setMoves ms)) ∧
    (∀ mt len rest, s.moves = .rx :: ms → cooperativeIdle s = true → s.rx = ⟨.hdr, [mt], 1⟩ → s.rxIn = len :: rest →
      Codec.validateMessageType mt = false →
      step s = exec (.invalidMsgtype mt len) (((s.setMoves ms).setRxIn rest).setRx ⟨.hdr, [mt, len], 0⟩)) ∧
    ∀ e ev F, s.moves = .append e :: ms → s.evs[e]? = some ev → ev.busy = true → ev.stage = some F →
      decodeAs .notification s.cfg F = .ok i →
      step s = exec i (setEvent e { ev with stage := none, busy := false } (s.setMoves ms))

/-- If one inbound frame decodes to i in one of the formats request, payloadType, address and to j in another, exec i
and exec j agree on every state. That one frame is an instruction in each of the three formats is the model's reading
of the opcode table (log 1, DEDUCED); that its effect does not depend on the reading is the spec's one meaning for
each frame. (30_encoding.md R94, 30_encoding.md R88.) -/
def Obligations.TheThreeReadingsOfAFrameAgree : Prop :=
  ∀ (c : Cfg) (F : Frame) (i j : Instr), ∀ f ∈ [Format.request, .payloadType, .address],
    ∀ g ∈ [Format.request, .payloadType, .address], decodeAs f c F = .ok i → decodeAs g c F = .ok j →
      ∀ s, exec i s = exec j s

/-! ## Receiving and transmitting -/

/-- For every header and state, INVALID_MSGTYPE answers a next state: rx_buf is empty, rx_stage is HDR, rx_need is 2,
and every other part of the state is as before. (R113.) -/
def Obligations.AnInvalidHeaderIsDiscarded : Prop :=
  ∀ (mt len : Byte) (s : State), exec (.invalidMsgtype mt len) s = .next (s.setRx ⟨.hdr, [], 2⟩)

/-- With RX enabled and a byte ready: from an empty buffer the byte is kept and one more is needed; with one byte
kept, an invalid messageType discards both bytes, a valid one with a length above 0 moves to BODY needing that many
bytes, and a valid one with length 0 is discarded at once. Nothing else changes. (41_rxtx.md R109, 41_rxtx.md R110,
40_codec.md R97.) -/
def Obligations.AHeaderByteIsFramed : Prop :=
  ∀ (s : State) (b : Byte) (rest : List Byte), cooperativeIdle s = true → s.rxIn = b :: rest →
    (s.rx = ⟨.hdr, [], 2⟩ → agentStep .rx s = .next ((s.setRxIn rest).setRx ⟨.hdr, [b], 1⟩)) ∧
    ∀ mt, s.rx = ⟨.hdr, [mt], 1⟩ →
      (Codec.validateMessageType mt = false → agentStep .rx s = .next ((s.setRxIn rest).setRx ⟨.hdr, [], 2⟩)) ∧
      (Codec.validateMessageType mt = true → b ≠ 0 →
        agentStep .rx s = .next ((s.setRxIn rest).setRx ⟨.body, [mt, b], b.toNat⟩)) ∧
      (Codec.validateMessageType mt = true → b = 0 →
        agentStep .rx s = .next ((s.setRxIn rest).setRx ⟨.hdr, [], 2⟩))

/-- From an enabled RX with an empty buffer and a request frame at the head of the inbound stream, as many RX steps as
the frame has bytes take exactly those bytes and append the frame to rxq (a full rxq loses its oldest frame); every
other part of the state is as before. (41_rxtx.md R109, 41_rxtx.md R110, 41_rxtx.md R111, 41_rxtx.md R112, 41_rxtx.md
R116.) -/
def Obligations.AWholeFrameIsReceived : Prop :=
  ∀ (s : State) (F : Frame) (rest : List Byte), cooperativeIdle s = true → s.rx = ⟨.hdr, [], 2⟩ → IsRequest F →
    s.rxIn = F ++ rest →
      agentSteps .rx F.length s = .next ((s.setRxIn rest).setRxq (queueAppend s.cfg.rxqCap s.rxq F))

/-- From an enabled RX with an empty buffer, a valid messageType, a length byte and as many body bytes as it declares,
whose checksum or structure fails, are taken by one RX step a byte; after them only the inbound stream has changed: no
reply, no queue entry, no register, and the next byte starts a new header. (R113, R195.) -/
def Obligations.ABadFrameLeavesNoTrace : Prop :=
  ∀ (s : State) (mt len : Byte) (body rest : List Byte), cooperativeIdle s = true → s.rx = ⟨.hdr, [], 2⟩ →
    Codec.validateMessageType mt = true → body.length = len.toNat →
      (Codec.validateChecksum (mt :: len :: body) = false ∨ Codec.validateStructure (mt :: len :: body) = false) →
        s.rxIn = mt :: len :: body ++ rest → agentSteps .rx (body.length + 2) s = .next (s.setRxIn rest)

/-- With TX enabled and a non-empty txq, one TX step removes the oldest frame, appends its bytes to tx_out and changes
nothing else. (R117.) -/
def Obligations.TxSendsTheOldestFrameWhole : Prop :=
  ∀ (s : State) (F : Frame) (q : List Frame), cooperativeIdle s = true → s.txq = F :: q →
    agentStep .tx s = .next ((s.setTxq q).setTxOut (s.txOut ++ F))

/-- Whatever a step does, tx_out stays as it is, or TX was chosen and the oldest frame of txq left the queue and its
bytes, whole, were appended. (41_rxtx.md R117, 41_rxtx.md R119, 45_events.md R190.) -/
def Obligations.OutboundBytesAreQueuedFrames : Prop :=
  ∀ s t : State, step s = .next t →
    t.txOut = s.txOut ∨
      ∃ F q, (chooseMove s).1 = .tx ∧ s.txq = F :: q ∧ t.txq = q ∧ t.txOut = s.txOut ++ F

/-- While a fire is in progress RX, TX and DISP change nothing; while DISP is inside an iteration RX and TX change
nothing; RX with no byte, TX with an empty queue, and an idle DISP with no request and no pending poll event change
nothing. An idle DISP with no request, no fire in progress and some poll-driven event that has a pending tick goes to
SYNC, and nothing else changes. That a chosen agent with no step leaves the block as it is, is the form the model
gives the rules (log 4, DESIGN CHOICE). (41_rxtx.md R114, 41_rxtx.md R118, 44_dispatch.md R158, 44_dispatch.md R159,
45_events.md R191, 10_state.md R33.) -/
def Obligations.AgentsWithNothingToDoChangeNothing : Prop :=
  ∀ s : State,
    (anyBusy s = true → agentStep .rx s = .next s ∧ agentStep .tx s = .next s ∧ agentStep .disp s = .next s) ∧
    (s.disp ≠ .idle → agentStep .rx s = .next s ∧ agentStep .tx s = .next s) ∧
    (s.rxIn = [] → agentStep .rx s = .next s) ∧
    (s.txq = [] → agentStep .tx s = .next s) ∧
    (s.disp = .idle → s.rxq = [] → anyPending s = false → agentStep .disp s = .next s) ∧
    ∀ (k : Nat) (d : EventDesc) (ev : EventState), s.cfg.events[k]? = some d → s.evs[k]? = some ev → d.kind = .poll →
      ev.pending = true → anyBusy s = false → s.disp = .idle → s.rxq = [] → agentStep .disp s = .next (s.setDisp .sync)

/-! ## Queues -/

/-- Appending frames one after another to a queue of capacity C leaves the last C of the old queue followed by the
frames, in order: the oldest are lost first and no order changes. (20_memory.md R62, 45_events.md R186, 45_events.md
R187.) -/
def Obligations.AQueueKeepsTheNewestFrames : Prop :=
  ∀ (C : Nat) (q Fs : List Frame), 1 ≤ C → q.length ≤ C →
    Fs.foldl (queueAppend C) q = (q ++ Fs).drop ((q ++ Fs).length - C)

/-! ## The clock -/

/-- For every two 30-bit samples, the delta is (r - last + 2^30) mod 2^30: never negative and below one period.
(R121.) -/
def Obligations.TheTickDeltaIsModular : Prop :=
  ∀ r last : Tick, ((clockDelta r last).toNat : Int) = ((r.toNat : Int) - last.toNat + 2 ^ 30) % 2 ^ 30

/-- For every state whose clock total is not negative: ClockRead draws one sample, adds its delta to clk_acc, makes it
clk_last, keeps clk_off and changes nothing but the draw; seconds is the total divided by a million, modulo 2^32, and
ticks is the remainder divided by 32, at most 31249. (R122, R123.) -/
def Obligations.TheClockReadsTheMicrosecondTotal : Prop :=
  ∀ s : State, 0 ≤ clockTotal s →
    let r := (drawTick s).1
    let acc := s.clock.acc + (clockDelta r s.clock.last).toNat
    let total : Int := acc + s.clock.off.toInt
    let ts := (clockRead s).1
    (clockRead s).2 = (drawTick s).2.setClock ⟨acc, r, s.clock.off⟩ ∧ (ts.sec.toNat : Int) = total / 1000000 % 2 ^ 32 ∧
      (ts.ticks.toNat : Int) = total % 1000000 / 32 ∧ ts.ticks.toNat ≤ 31249

/-- After ClockWrite(T) whose offset T x 10^6 + sub - clk_acc is not below -2^63, so that the s_64 clk_off holds it, a
ClockRead whose sample is d microseconds later returns seconds T + (sub + d) / 10^6 modulo 2^32 and ticks ((sub + d)
mod 10^6) / 32, where sub is the sub-second position of the write; with d = 0 it returns T and sub / 32, below 31250.
A lower offset needs clk_acc above 2^63; the model leaves clk_off free there (log 22, DESIGN CHOICE). (42_clock.md
R126, 10_state.md R27.) -/
def Obligations.AfterAWriteTheClockReadsTheTarget : Prop :=
  ∀ (s : State) (T : BitVec 32),
    let w := clockWrite T s
    let sub := clockTotal (clockSample s) % 1000000
    let d := (clockDelta (drawTick w).1 w.clock.last).toNat
    let ts := (clockRead w).1
    let x : Int := (T.toNat : Int) * 1000000 + sub - (clockSample s).clock.acc
    x ≥ -2 ^ 63 →
      (ts.sec.toNat : Int) = (T.toNat + (sub + d) / 1000000) % 2 ^ 32 ∧
        (ts.ticks.toNat : Int) = (sub + d) % 1000000 / 32 ∧
        (d = 0 → ts.sec = T ∧ (ts.ticks.toNat : Int) = sub / 32 ∧ ts.ticks.toNat < 31250) ∧
        ((d : Int) < 1000000 - sub → ts.sec = T)

/-- For every state and every number of further samples between two reads, the second timestamp is at least the first,
in the order seconds then ticks, unless the seconds passed 2^32 - 1 in between. Every elapsed time below one period is
one delta. (R125.) -/
def Obligations.TheClockNeverRunsBackwards : Prop :=
  ∀ (s : State) (n : Nat), 0 ≤ clockTotal s →
    let u := clockSample^[n] (clockRead s).2
    let first := (clockRead s).1
    let second := (clockRead u).1
    clockTotal (clockSample s) / 4294967296000000 = clockTotal (clockSample u) / 4294967296000000 →
      first.sec.toNat < second.sec.toNat ∨ first.sec = second.sec ∧ first.ticks.toNat ≤ second.ticks.toNat

/-! ## The register mux -/

/-- In every state with the invariant, a read that succeeds addresses a cell of the request's type code and gives
exactly its count of elements, each a pattern of the element's width; a read that fails changes nothing.
(43_registers.md R140, 43_registers.md R142, 10_state.md R23.) -/
def Obligations.AReadGivesTheWholeTuple : Prop :=
  ∀ (s t : State) (a tc : Byte), Machine.Inv s →
    (∀ E, regRead a tc s = (.ok E, t) →
      ∃ d, s.cfg.cellAt a = some d ∧ tc = d.tcode ∧ E.length = d.count ∧ ∀ p ∈ E, p.toNat < 2 ^ (8 * Codec.size tc)) ∧
    ∀ cause, regRead a tc s = (.error cause, t) → t = s

/-- Whatever the address and type code, a register read keeps every register, queue, event, port and phase, and
clk_off; a read of an RO, RW or OPCTRL cell, or of no cell, changes nothing at all. (20_memory.md R59, 43_registers.md
R140.) -/
def Obligations.ReadsChangeOnlyTheSamples : Prop :=
  ∀ (s : State) (a tc : Byte),
    let t := (regRead a tc s).2
    t = (((s.setClock t.clock).setTickIn t.tickIn).setPinIn t.pinIn).setFreeCount t.freeCount ∧
      t.clock.off = s.clock.off ∧
      ((∀ d, s.cfg.cellAt a = some d → Stored d.variant) → t = s)

/-- A WRITE in phase EXEC to an RW cell, with the cell's type code and count of elements, answers the next state with
the cell's tuple replaced by the decoded payload and nothing else changed; a read then gives exactly those patterns,
and every other register holds what it held. (R139.) -/
def Obligations.AWriteToAnRwCellReadsBack : Prop :=
  ∀ (o : MsgOps) (d : Cell) (F : Frame) (s : State), s.disp = .exec F → s.cfg.cellAt o.addr = some d →
    d.variant = .rw → o.tc = d.tcode → o.payload.length / Codec.size o.tc = d.count →
      ∃ t, exec (.write o) s = .next t ∧
        t = (s.setStore (keyedSet s.store o.addr.toNat (Codec.decodeElems o.tc o.payload))).setDisp (.stamp F .ok) ∧
        regRead o.addr o.tc t = (.ok (Codec.decodeElems o.tc o.payload), t) ∧
        ∀ b, b ≠ o.addr → tupleAt t b = tupleAt s b

/-! ## The phases of a request -/

/-- For every instruction of the thirty inbound rows (READ, WRITE, EVENT_IN, the ten PT rows, the seventeen REG rows):
in IDLE it takes the oldest request off rxq into EXEC; in EXEC, unless it is a WRITE, it writes nothing and goes to
STAMP with ok; in STAMP it reads the clock and goes to BUILD with that timestamp. Nothing else changes. That any
instruction pops the oldest request in IDLE, whatever that request is, is the form the model gives POP (log 18, DESIGN
CHOICE). (44_dispatch.md R158, 44_dispatch.md R159, 44_dispatch.md R160, 44_dispatch.md R165.) -/
def Obligations.RequestsArePoppedAndStamped : Prop :=
  ∀ (i : Instr) (r : Request) (s : State), i.request? = some r →
    (∀ F q, s.disp = .idle → s.rxq = F :: q → exec i s = .next ((s.setRxq q).setDisp (.exec F))) ∧
    (∀ F, s.disp = .exec F → r.kind ≠ .write → exec i s = .next (s.setDisp (.stamp F .ok))) ∧
    ∀ F res, s.disp = .stamp F res → exec i s = .next ((clockRead s).2.setDisp (.build F res (clockRead s).1))

/-- For every instruction of the thirty inbound rows that is a WRITE, in phase EXEC: an address with no cell gives
UNKNOWN_ADDRESS; an RO or TS_MICRO cell gives READ_ONLY, before any type check; another type code than the cell's
gives TYPE_MISMATCH; another count of whole elements gives INDEX_RANGE. In each case only DISP's phase changes, to
STAMP with that cause. (R130, R136.) -/
def Obligations.AFailedWriteChangesNothing : Prop :=
  ∀ (i : Instr) (r : Request) (F : Frame) (s : State), i.request? = some r → r.kind = .write → s.disp = .exec F →
    (s.cfg.cellAt r.addr = none → exec i s = .next (s.setDisp (.stamp F (.err .unknownAddress)))) ∧
    ∀ d, s.cfg.cellAt r.addr = some d →
      (d.variant = .ro ∨ d.variant = .tsMicro → exec i s = .next (s.setDisp (.stamp F (.err .readOnly)))) ∧
      (d.variant ≠ .ro → d.variant ≠ .tsMicro → r.tc ≠ d.tcode →
        exec i s = .next (s.setDisp (.stamp F (.err .typeMismatch)))) ∧
      (d.variant ≠ .ro → d.variant ≠ .tsMicro → r.tc = d.tcode → r.payload.length / Codec.size r.tc ≠ d.count →
        exec i s = .next (s.setDisp (.stamp F (.err .indexRange))))

/-- For every instruction of the thirty inbound rows, in phase BUILD with an error carried from EXEC, or to an address
with no cell, or with another type code than the cell's: with L' the request's length plus 6 when it has no timestamp,
the ERROR reply (messageType with 0x08, the request's address and type code with HAS_TS, a WRITE's payload echoed and
zeros otherwise) goes to SEND if L' is at most 255; otherwise fault_reply_len is set and DISP goes to SYNC with no
reply. Nothing else changes. (R166, R167, R168.) -/
def Obligations.AnAccessErrorMakesAnErrorReply : Prop :=
  ∀ (i : Instr) (r : Request) (F : Frame) (res : Res) (ts : Stamp) (s : State), i.request? = some r →
    s.disp = .build F res ts →
      (res ≠ .ok ∨ s.cfg.cellAt r.addr = none ∨ ∃ d, s.cfg.cellAt r.addr = some d ∧ r.tc ≠ d.tcode) →
        exec i s =
          if r.frame.length - 2 + (if r.ts.isSome then 0 else 6) ≤ 255 then .next (s.setDisp (.send (errorBytes r ts)))
          else .next ((s.setFaultReplyLen true).setDisp .sync)

/-- In phase BUILD with no error, READ, WRITE and EVENT_IN to an RO, RW or OPCTRL cell of their type code whose tuple
fits a reply put the success reply into SEND: messageType 1, 2 or 3 unchanged, the request's address, port 0xFF, the
type code with HAS_TS, the stamp, the register's elements little-endian, the checksum. Nothing else changes.
(44_dispatch.md R161, 44_dispatch.md R162, 44_dispatch.md R163, 44_dispatch.md R164.) -/
def Obligations.MessageRowsReplyWithTheRegister : Prop :=
  ∀ row ∈ [(Instr.read, Kind.read), (Instr.write, Kind.write), (Instr.eventIn, Kind.event)],
    ∀ (o : MsgOps) (d : Cell) (F : Frame) (ts : Stamp) (s : State), s.disp = .build F .ok ts →
      s.cfg.cellAt o.addr = some d → Stored d.variant → o.tc = d.tcode →
        (tupleAt s o.addr).length * Codec.size o.tc + 10 ≤ 255 →
          exec (row.1 o) s =
            .next (s.setDisp (.send (replyBytes (o.request row.2) ts (tupleAt s o.addr))))

/-- In phase BUILD with no error, a request of any kind to WHO_AM_I (U16), the seven version registers (U8),
OPERATION_CTRL (U8), RESET_DEV (U8), DEVICE_NAME (U8) or SERIAL_NUMBER (U16), with the type code of its table row,
puts the reply with the stored tuple of addresses 0 to 7 and 10 to 13 into SEND, in every configuration. Nothing else
changes. (10_state.md R24, 43_registers.md R134, 43_registers.md R135, 43_registers.md R138, 43_registers.md R144.) -/
def Obligations.ReservedRegistersReply : Prop :=
  ∀ row ∈ [(Instr.regWhoAmI, (0 : Byte), (0x02 : Byte)), (Instr.regHwVersionH, 1, 0x01), (Instr.regHwVersionL, 2, 0x01),
      (Instr.regAssemblyVersion, 3, 0x01), (Instr.regHarpVersionH, 4, 0x01), (Instr.regHarpVersionL, 5, 0x01),
      (Instr.regFwVersionH, 6, 0x01), (Instr.regFwVersionL, 7, 0x01), (Instr.regOperationCtrl, 10, 0x01),
      (Instr.regResetDev, 11, 0x01), (Instr.regDeviceName, 12, 0x01), (Instr.regSerialNumber, 13, 0x02)],
    ∀ (o : AddrOps) (F : Frame) (ts : Stamp) (s : State), s.disp = .build F .ok ts → o.tc = row.2.2 →
      (tupleAt s row.2.1).length * Codec.size o.tc + 10 ≤ 255 →
        exec (row.1 o) s =
          .next (s.setDisp (.send (replyBytes (o.request row.2.1) ts (tupleAt s row.2.1))))

/-- In phase EXEC, in every configuration: a WRITE of one byte to RESET_DEV stores it (nothing resets); a WRITE of
exactly NAME_LEN bytes to DEVICE_NAME stores them in order; a WRITE of two bytes, and at most one residue byte, to
SERIAL_NUMBER stores the little-endian number. Nothing else changes. (R154, 43_registers.md R155, 43_registers.md
R156, 20_memory.md R56.) -/
def Obligations.ReadWriteRegistersStore : Prop :=
  ∀ (o : AddrOps) (F : Frame) (s : State), o.kind = .write → s.disp = .exec F →
    (∀ b, o.tc = 0x01 → o.payload = [b] → exec (.regResetDev o) s =
      .next ((s.setStore (keyedSet s.store 11 [b.setWidth 64])).setDisp (.stamp F .ok))) ∧
    (o.tc = 0x01 → o.payload.length = s.cfg.nameLen → exec (.regDeviceName o) s =
      .next ((s.setStore (keyedSet s.store 12 (o.payload.map (·.setWidth 64)))).setDisp (.stamp F .ok))) ∧
    ∀ b0 b1 residue, o.tc = 0x02 → o.payload = b0 :: b1 :: residue → residue.length ≤ 1 → exec (.regSerialNumber o) s =
      .next ((s.setStore (keyedSet s.store 13 [BitVec.ofNat 64 (b0.toNat + 256 * b1.toNat)])).setDisp (.stamp F .ok))

/-- In phase EXEC, in every configuration, a WRITE of one byte v to OPERATION_CTRL answers the next state in which
address 10 holds v, opled_en is bit 6, visual_en is bit 5, each event has ev_en and arm set to (v[7] and mode not 0)
for heartbeat class and (mode not 0) for the others, with its busy, staged and pending state kept, and nothing else
has changed. (R145, R146, R147, R193.) -/
def Obligations.AControlWriteRunsTheHook : Prop :=
  ∀ (o : AddrOps) (v : Byte) (F : Frame) (s : State), o.kind = .write → o.tc = 0x01 → o.payload = [v] →
    s.disp = .exec F →
      ∃ evs, exec (.regOperationCtrl o) s =
          .next ((((s.setStore (keyedSet s.store 10 [v.setWidth 64])).setEvs evs).setLevels
            (v.getLsbD 6) (v.getLsbD 5)).setDisp (.stamp F .ok)) ∧
        evs.length = s.evs.length ∧
        ∀ (k : Nat) (d : EventDesc) (ev : EventState), s.cfg.events[k]? = some d → s.evs[k]? = some ev →
          let b := (v.toNat % 4 != 0) && (d.cls == .other || v.getLsbD 7)
          evs[k]? = some { ev with en := b, arm := b }

/-- In phase EXEC, in every configuration, a WRITE of four bytes (and at most three residue bytes) to TIMESTAMP_SECOND
draws one sample r, adds its delta to clk_acc, makes it clk_last, replaces clk_off and stores nothing. The new clk_off
is target x 10^6 + sub - clk_acc, where sub is the position within the current second, if that fits an s_64; whatever
it is, clk_acc + clk_off is not negative. That a value that does not fit leaves clk_off free is the form of the model
(log 22, DESIGN CHOICE). (42_clock.md R124, 42_clock.md R128, 10_state.md R27, 10_state.md R28.) -/
def Obligations.ASecondsWriteRebasesTheClock : Prop :=
  ∀ (o : AddrOps) (b0 b1 b2 b3 : Byte) (residue : List Byte) (F : Frame) (s : State), o.kind = .write → o.tc = 0x04 →
    o.payload = b0 :: b1 :: b2 :: b3 :: residue → residue.length ≤ 3 → s.disp = .exec F →
      let r := (drawTick s).1
      let acc := s.clock.acc + (clockDelta r s.clock.last).toNat
      let target : Nat := b0.toNat + 256 * b1.toNat + 65536 * b2.toNat + 16777216 * b3.toNat
      let x : Int := (target : Int) * 1000000 + (acc + s.clock.off.toInt) % 1000000 - acc
      ∃ off : BitVec 64, (-2 ^ 63 ≤ x → x < 2 ^ 63 → off.toInt = x) ∧ 0 ≤ (acc : Int) + off.toInt ∧
        exec (.regTimestampSecond o) s =
          .next (((drawTick s).2.setClock ⟨acc, r, off⟩).setDisp (.stamp F .ok))

/-- In phase BUILD with no error, in every configuration: a request to TIMESTAMP_SECOND with type U32, or
TIMESTAMP_MICRO with type U16, reads the clock and replies with its seconds, or its ticks; with any other type code,
and a payload of at most 245 bytes, the ERROR reply is built and the clock is not sampled. (R127, R129.) -/
def Obligations.TimestampRegistersReplyFromTheClock : Prop :=
  ∀ (o : AddrOps) (F : Frame) (ts : Stamp) (s : State), s.disp = .build F .ok ts →
    (o.tc = 0x04 → exec (.regTimestampSecond o) s =
      .next ((clockRead s).2.setDisp (.send (replyBytes (o.request 8) ts [(clockRead s).1.sec.setWidth 64])))) ∧
    (o.tc = 0x02 → exec (.regTimestampMicro o) s =
      .next ((clockRead s).2.setDisp (.send (replyBytes (o.request 9) ts [(clockRead s).1.ticks.setWidth 64])))) ∧
    (o.tc ≠ 0x04 → o.payload.length ≤ 245 → exec (.regTimestampSecond o) s =
      .next (s.setDisp (.send (errorBytes (o.request 8) ts)))) ∧
    (o.tc ≠ 0x02 → o.payload.length ≤ 245 → exec (.regTimestampMicro o) s =
      .next (s.setDisp (.send (errorBytes (o.request 9) ts))))

/-- To the address of a pin register, with type U8: a WRITE of one byte, in phase EXEC, drives the output level of its
pin high for any non-zero byte and low for 0, and stores nothing; in phase BUILD with no error the reply carries one
fresh draw of the input level, 1 or 0. With any other type code, and a payload of at most 245 bytes, the ERROR reply
is built and no level is drawn. Nothing else changes. (R152, R153.) -/
def Obligations.PinRegistersDriveAndSample : Prop :=
  ∀ (a : Byte) (o : AddrOps) (d : Cell) (p : Nat) (F : Frame) (s : State), s.cfg.cellAt a = some d →
    d.variant = .pin p →
    (o.tc = 0x01 → (∀ v, o.kind = .write → o.payload = [v] → s.disp = .exec F → exec (.regPin a o) s =
        .next ((s.setPinOut (keyedSet s.pinOut p (v != 0))).setDisp (.stamp F .ok))) ∧
      ∀ ts, s.disp = .build F .ok ts → exec (.regPin a o) s =
        .next ((drawPin p s).2.setDisp (.send (replyBytes (o.request a) ts [if (drawPin p s).1 then 1 else 0])))) ∧
    (o.tc ≠ 0x01 → ∀ ts, s.disp = .build F .ok ts → o.payload.length ≤ 245 → exec (.regPin a o) s =
      .next (s.setDisp (.send (errorBytes (o.request a) ts))))

/-- To the address of an RO or RW cell, with its type code: in phase BUILD with no error the reply carries the stored
tuple; a WRITE of the cell's count of whole elements to an RW cell, in phase EXEC, replaces the tuple. Nothing else
changes. (43_registers.md R137, 43_registers.md R135, 43_registers.md R138, 43_registers.md R139.) -/
def Obligations.ApplicationRegistersReplyAndStore : Prop :=
  ∀ (a : Byte) (o : AddrOps) (d : Cell) (F : Frame) (s : State), s.cfg.cellAt a = some d → o.tc = d.tcode →
    (∀ ts, d.variant = .ro ∨ d.variant = .rw → s.disp = .build F .ok ts →
      (tupleAt s a).length * Codec.size o.tc + 10 ≤ 255 → exec (.regApp a o) s =
        .next (s.setDisp (.send (replyBytes (o.request a) ts (tupleAt s a))))) ∧
    (d.variant = .rw → o.kind = .write → s.disp = .exec F → o.payload.length / Codec.size o.tc = d.count →
      exec (.regApp a o) s =
        .next ((s.setStore (keyedSet s.store a.toNat (Codec.decodeElems o.tc o.payload))).setDisp (.stamp F .ok)))

/-- To an address with no cell: in phase EXEC a WRITE carries UNKNOWN_ADDRESS to STAMP and any other request carries
ok, with nothing else changed; in phase BUILD, with a payload of at most 245 bytes, the ERROR reply with the same
address, messageType with 0x08 set and a WRITE's payload echoed goes to SEND, and nothing else changes. (R173.) -/
def Obligations.AnUnmappedAddressGetsAnErrorReply : Prop :=
  ∀ (a : Byte) (o : AddrOps) (F : Frame) (s : State), s.cfg.cellAt a = none →
    (s.disp = .exec F → exec (.regUnmapped a o) s =
      .next (s.setDisp (.stamp F (if o.kind = .write then .err .unknownAddress else .ok)))) ∧
    ∀ res ts, s.disp = .build F res ts → o.payload.length ≤ 245 → exec (.regUnmapped a o) s =
      .next (s.setDisp (.send (Codec.wholeFrame (o.kind.byte ||| 0x08) a 0xFF o.tc (some ts)
        (if o.kind = .write then o.payload else List.replicate o.payload.length 0))))

/-- For each of PT_U8, PT_S8, PT_U16, PT_S16, PT_U32, PT_S32, PT_U64, PT_S64 and PT_FLOAT, to a cell of that type
code: in phase BUILD with no error, from an RO, RW or OPCTRL cell, the reply carries the stored patterns little-endian
at that size; a WRITE in phase EXEC of the cell's count of elements to an RW cell stores the little-endian patterns of
its payload. Nothing else changes. (30_encoding.md R75, 30_encoding.md R81, 30_encoding.md R82, 10_state.md R23,
20_memory.md R52.) -/
def Obligations.SupportedTypeRowsReplyAndStore : Prop :=
  ∀ row ∈ [(Instr.ptU8, (0x01 : Byte)), (Instr.ptS8, 0x81), (Instr.ptU16, 0x02), (Instr.ptS16, 0x82),
      (Instr.ptU32, 0x04), (Instr.ptS32, 0x84), (Instr.ptU64, 0x08), (Instr.ptS64, 0x88), (Instr.ptFloat, 0x44)],
    ∀ (o : TypeOps) (d : Cell) (F : Frame) (s : State), s.cfg.cellAt o.addr = some d → d.tcode = row.2 →
      (∀ ts, s.disp = .build F .ok ts → Stored d.variant →
        (tupleAt s o.addr).length * Codec.size row.2 + 10 ≤ 255 → exec (row.1 o) s =
          .next (s.setDisp (.send (replyBytes (o.request row.2) ts (tupleAt s o.addr))))) ∧
      (∀ E : List Pattern, s.disp = .exec F → o.kind = .write → d.variant = .rw → E.length = d.count →
        (∀ p ∈ E, p.toNat < 2 ^ (8 * Codec.size row.2)) → o.payload = Codec.pack row.2 E → exec (row.1 o) s =
          .next ((s.setStore (keyedSet s.store o.addr.toNat E)).setDisp (.stamp F .ok)))

/-- In every state whose configuration passed its check, a request with an unsupported type code: as a WRITE in phase
EXEC it changes no register and carries a cause to STAMP, otherwise it carries ok; in phase BUILD, with a payload of
at most 245 bytes, its ERROR reply goes to SEND with that type code and HAS_TS. Nothing else changes: the payload is
never decoded. (30_encoding.md R76, 43_registers.md R142.) -/
def Obligations.AnUnsupportedTypeGetsAnErrorReply : Prop :=
  ∀ (tc : Byte) (o : TypeOps) (F : Frame) (s : State), s.cfg.wf = true → Codec.supported tc = false →
    (s.disp = .exec F → o.kind = .write →
      ∃ cause, exec (.ptUnsupported tc o) s = .next (s.setDisp (.stamp F (.err cause)))) ∧
    (s.disp = .exec F → o.kind ≠ .write → exec (.ptUnsupported tc o) s = .next (s.setDisp (.stamp F .ok))) ∧
    ∀ res ts, s.disp = .build F res ts → o.payload.length ≤ 245 → exec (.ptUnsupported tc o) s =
      .next (s.setDisp (.send (errorBytes (o.request tc) ts)))

/-- In phase SEND, each of REPLY_READ (0x01), REPLY_WRITE (0x02), REPLY_EVENT (0x03), ERROR_READ (0x09), ERROR_WRITE
(0x0A) and ERROR_EVENT (0x0B) with a payload of at most 245 bytes appends its frame (that messageType, length P + 10,
port 0xFF, HAS_TS, its stamp and payload, the checksum) to txq, a full queue losing its oldest frame, and DISP goes to
SYNC. Nothing else changes. (R169, 30_encoding.md R87, 45_events.md R187.) -/
def Obligations.RepliesAreQueued : Prop :=
  ∀ row ∈ [(Instr.replyRead, (0x01 : Byte)), (Instr.replyWrite, 0x02), (Instr.replyEvent, 0x03), (Instr.errorRead, 0x09),
      (Instr.errorWrite, 0x0A), (Instr.errorEvent, 0x0B)],
    ∀ (o : OutOps) (R : Frame) (s : State), s.disp = .send R → o.payload.length ≤ 245 → exec (row.1 o) s =
      .next ((s.setTxq ((if s.txq.length = s.cfg.txqCap then s.txq.drop 1 else s.txq) ++
        [Codec.wholeFrame row.2 o.addr 0xFF o.tc (some o.stamp) o.payload])).setDisp .sync)

/-- EVENT_NOTIFY with a payload of at most 245 bytes appends its frame (messageType 0x03, length P + 10, port 0xFF,
HAS_TS, its stamp and payload, the checksum) to txq, a full queue losing its oldest frame. Nothing else changes,
DISP's phase included. (45_events.md R176, 45_events.md R181, 45_events.md R187.) -/
def Obligations.NotificationsAreQueued : Prop :=
  ∀ (o : OutOps) (s : State), o.payload.length ≤ 245 → exec (.eventNotify o) s =
    .next (s.setTxq ((if s.txq.length = s.cfg.txqCap then s.txq.drop 1 else s.txq) ++
      [Codec.wholeFrame 0x03 o.addr 0xFF o.tc (some o.stamp) o.payload]))

/-- An instruction of the thirty inbound rows changes nothing while DISP is in SEND, SYNC or POLL, or is idle with an
empty rxq; a reply or ERROR reply changes nothing unless DISP is in SEND. The spec runs no instruction there; that
exec then answers the same state is the model's choice (logs 17 and 18, DESIGN CHOICE). (44_dispatch.md R158.) -/
def Obligations.OutsideItsPhasesAnInstructionChangesNothing : Prop :=
  ∀ s : State,
    (∀ (i : Instr) (r : Request), i.request? = some r →
      ((∃ R, s.disp = .send R) ∨ s.disp = .sync ∨ (∃ k, s.disp = .poll k) ∨ s.disp = .idle ∧ s.rxq = []) →
        exec i s = .next s) ∧
    ∀ mk ∈ [Instr.replyRead, Instr.replyWrite, Instr.replyEvent, Instr.errorRead, Instr.errorWrite, Instr.errorEvent],
      ∀ o, (∀ R, s.disp ≠ .send R) → exec (mk o) s = .next s

/-! ## Whole iterations -/

/-- From every state with the invariant in which DISP holds a request and no fire is in progress: four DISP steps
append exactly one frame to txq, with the request's address and its messageType or that with 0x08 set, leave
fault_reply_len as it was and end in SYNC; or, only when the request has no timestamp and more than 245 payload bytes,
three DISP steps set fault_reply_len, leave txq as it was and end in SYNC. The invariant puts no condition on the mode
or the mute-reply bit. (44_dispatch.md R172, 44_dispatch.md R158, 43_registers.md R150, 60_exceptions.md R196.) -/
def Obligations.EveryRequestGetsExactlyOneReply : Prop :=
  ∀ (s : State) (F : Frame) (r : Request), Machine.Inv s → anyBusy s = false → s.disp = .exec F →
    decodeRequest F = .ok r →
      (∃ t R, agentSteps .disp 4 s = .next t ∧ t.disp = .sync ∧ t.txq = queueAppend s.cfg.txqCap s.txq R ∧
        (R[0]? = some r.kind.byte ∨ R[0]? = some (r.kind.byte ||| 0x08)) ∧ R[2]? = some r.addr ∧
        t.faultReplyLen = s.faultReplyLen ∧ t.rxq = s.rxq ∧ t.rx = s.rx) ∨
      (∃ t, agentSteps .disp 3 s = .next t ∧ t.disp = .sync ∧ t.txq = s.txq ∧ t.faultReplyLen = true ∧
        245 < r.payload.length ∧ r.ts = none ∧ t.rxq = s.rxq ∧ t.rx = s.rx)

/-- From every state with the invariant, in SYNC with no fire in progress, as many DISP steps as there are events,
plus 2, end in IDLE, with the receive queue, the RX state and every register as they were. (44_dispatch.md R158,
44_dispatch.md R170, 44_dispatch.md R171.) -/
def Obligations.AnIterationComesBackToIdle : Prop :=
  ∀ s : State, Machine.Inv s → anyBusy s = false → s.disp = .sync →
    ∃ t, agentSteps .disp (s.cfg.events.length + 2) s = .next t ∧ t.disp = .idle ∧ t.rxq = s.rxq ∧ t.rx = s.rx ∧
      t.store = s.store

/-! ## Events -/

/-- In every state with the invariant, the SYNC step re-applies a hook whose result already stands: enables, arm
levels and indicator levels stay as they are, and DISP goes to POLL(0). (44_dispatch.md R170, 43_registers.md R146,
43_registers.md R147.) -/
def Obligations.SyncReappliesWhatAlreadyStands : Prop :=
  ∀ s : State, Machine.Inv s → anyBusy s = false → s.disp = .sync → agentStep .disp s = .next (s.setDisp (.poll 0))

/-- In every state with the invariant, for a timer- or edge-driven event e: if its fire is in progress or it is
disabled, the trigger changes nothing; otherwise the payload is its fixed elements or one read of its bound register
(which cannot fail), then the clock is read, and the frame with that timestamp and payload is staged and e marked
busy. Nothing else changes. (R180, R182.) -/
def Obligations.AFireStagesOneFrame : Prop :=
  ∀ (s : State) (e : Nat) (d : EventDesc) (ev : EventState), Machine.Inv s → s.cfg.events[e]? = some d →
    s.evs[e]? = some ev → d.kind ≠ .poll →
      (ev.busy = true ∨ ev.en = false → agentStep (.fire e) s = .next s) ∧
      (ev.busy = false → ev.en = true →
        ∃ E u, ((∃ E0, d.src = .fixed E0 ∧ E = E0 ∧ u = s) ∨ ∃ a, d.src = .reg a ∧ regRead a d.tcode s = (.ok E, u)) ∧
          agentStep (.fire e) s =
            .next (setEvent e { ev with stage := some (eventBytes d (clockRead u).1 E), busy := true } (clockRead u).2))

/-- For every event with a fire in progress and a staged notification frame, whatever its enable, the append step adds
exactly that frame to txq, clears the staged frame and the busy mark, and changes nothing else. (R181.) -/
def Obligations.AStagedFrameIsAppendedEvenIfDisabled : Prop :=
  ∀ (s : State) (e : Nat) (ev : EventState) (F : Frame), s.evs[e]? = some ev → ev.busy = true → ev.stage = some F →
    IsNotification s.cfg F →
      agentStep (.append e) s = .next ((setEvent e { ev with stage := none, busy := false } s).setTxq
        (queueAppend s.cfg.txqCap s.txq F))

/-- For a poll-driven event: a tick while enabled sets its pending mark and changes nothing else; a tick while
disabled changes nothing; any number of ticks after the first, before DISP serves the event, leave the state the first
one left. (R183.) -/
def Obligations.PollTicksMerge : Prop :=
  ∀ (s : State) (e : Nat) (d : EventDesc) (ev : EventState), s.cfg.events[e]? = some d → s.evs[e]? = some ev →
    d.kind = .poll →
      (ev.en = false → agentStep (.tick e) s = .next s) ∧
      (ev.en = true → ∀ n, agentSteps (.tick e) (n + 1) s = .next (setEvent e { ev with pending := true } s))

/-- With no fire in progress, in phase POLL(k): past the last event DISP goes to IDLE and nothing else changes. If
event k is not poll-driven or has no pending tick, DISP goes to POLL(k + 1) and nothing else changes: no frame is
sent. If it is poll-driven and pending, in every state with the invariant: if it is disabled its mark is cleared and
nothing else changes but the phase; otherwise its mark is cleared, its payload is read, then the clock, and one frame
with that timestamp and payload is appended to txq. DISP goes to POLL(k + 1). (R184, 44_dispatch.md R171.) -/
def Obligations.APollServiceSendsOneFrame : Prop :=
  ∀ (s : State) (k : Nat), anyBusy s = false → s.disp = .poll k →
    (k = s.cfg.events.length → agentStep .disp s = .next (s.setDisp .idle)) ∧
    ∀ (d : EventDesc) (ev : EventState), s.cfg.events[k]? = some d → s.evs[k]? = some ev →
      (d.kind ≠ .poll ∨ ev.pending = false → agentStep .disp s = .next (s.setDisp (.poll (k + 1)))) ∧
      (Machine.Inv s → d.kind = .poll → ev.pending = true →
        let s1 := setEvent k { ev with pending := false } (s.setDisp (.poll (k + 1)))
        (ev.en = false → agentStep .disp s = .next s1) ∧
        (ev.en = true →
          ∃ E u, ((∃ E0, d.src = .fixed E0 ∧ E = E0 ∧ u = s1) ∨
              ∃ a, d.src = .reg a ∧ regRead a d.tcode s1 = (.ok E, u)) ∧
            agentStep .disp s = .next ((clockRead u).2.setTxq
              (queueAppend s.cfg.txqCap s.txq (eventBytes d (clockRead u).1 E)))))

/-- Whatever interrupt step of event e is taken (fire, append or poll tick), the registers, rxq, the RX state, DISP's
phase, the indicator levels, the pin outputs, fault_reply_len, the enables and arm levels, both byte streams, clk_off
and every other event stay as they are. (60_exceptions.md R205, 60_exceptions.md R206.) -/
def Obligations.InterruptStepsTouchOnlyTheirOwn : Prop :=
  ∀ (s t : State) (e : Nat), ∀ m ∈ [Move.fire e, Move.append e, Move.tick e], agentStep m s = .next t →
    t.store = s.store ∧ t.rxq = s.rxq ∧ t.rx = s.rx ∧ t.disp = s.disp ∧ t.opledEn = s.opledEn ∧
      t.visualEn = s.visualEn ∧ t.pinOut = s.pinOut ∧ t.faultReplyLen = s.faultReplyLen ∧ t.rxIn = s.rxIn ∧
      t.txOut = s.txOut ∧ t.clock.off = s.clock.off ∧
      t.evs.map (fun ev => (ev.en, ev.arm)) = s.evs.map (fun ev => (ev.en, ev.arm)) ∧
      ∀ k, k ≠ e → t.evs[k]? = s.evs[k]?

/-! ## Reset and the whole machine -/

/-- For every well-formed configuration and first sample r0, the reset state has the configured tuples in the reserved
and application cells, clk_acc and clk_last r0 and clk_off 0, RX at HDR with an empty buffer needing 2, empty queues,
each event with enable and arm as the class and OPCTRL_RESET give and nothing busy, staged or pending, DISP idle, the
indicator levels of OPCTRL_RESET, no pin driven, no fault, and no byte sent. (R46.) -/
def Obligations.ResetGivesEveryElementItsValue : Prop :=
  ∀ (c : Cfg) (r0 : Tick), c.wf = true →
    let s := State.resetWith c r0
    (tupleAt s 0 = [c.whoAmI.setWidth 64] ∧ tupleAt s 1 = [c.hwVersionH.setWidth 64] ∧
      tupleAt s 2 = [c.hwVersionL.setWidth 64] ∧ tupleAt s 3 = [c.assemblyVersion.setWidth 64] ∧
      tupleAt s 4 = [c.harpVersionH.setWidth 64] ∧ tupleAt s 5 = [c.harpVersionL.setWidth 64] ∧
      tupleAt s 6 = [c.fwVersionH.setWidth 64] ∧ tupleAt s 7 = [c.fwVersionL.setWidth 64] ∧
      tupleAt s 10 = [c.opctrlReset.setWidth 64] ∧ tupleAt s 11 = [c.rstdevReset.setWidth 64] ∧
      tupleAt s 12 = c.nameReset.map (·.setWidth 64) ∧ tupleAt s 13 = [c.serialReset.setWidth 64]) ∧
    (∀ r ∈ c.appRegs, tupleAt s r.addr = r.reset) ∧
    s.clock = ⟨r0.toNat, r0, 0⟩ ∧ s.rx = ⟨.hdr, [], 2⟩ ∧ s.rxq = [] ∧ s.txq = [] ∧
    s.evs.length = c.events.length ∧
    (∀ (k : Nat) (d : EventDesc), c.events[k]? = some d →
      let b := (c.opctrlReset.toNat % 4 != 0) && (d.cls == .other || c.opctrlReset.getLsbD 7)
      s.evs[k]? = some ⟨b, b, false, none, false⟩) ∧
    s.disp = .idle ∧ s.opledEn = c.opctrlReset.getLsbD 6 ∧ s.visualEn = c.opctrlReset.getLsbD 5 ∧
    (∀ p, pinOutAt s p = none) ∧ s.faultReplyLen = false ∧ s.txOut = []

/-- Booting a configuration that fails the check of R8 is refused as BAD_CONFIG, for every first sample, and one that
passes gives the reset state; a configuration with a queue of capacity 0 fails the check. That the refusal is an
outcome of the model's boot function is the model's form (log 9). (60_exceptions.md R197, 00_scope.md R8,
70_reset_and_hazards.md R214.) -/
def Obligations.ABadConfigurationHasNoReset : Prop :=
  ∀ (c : Cfg) (r0 : Tick),
    (c.wf = false → boot c r0 = .refused .badConfig) ∧ (c.wf = true → boot c r0 = .next (State.resetWith c r0)) ∧
      (c.rxqCap = 0 ∨ c.txqCap = 0 → c.wf = false)

/-- For every configuration that passes its check and every first sample the reset state meets the invariant, and so
does State.reset, whose configuration and first sample are the model's choice (logs 7 and 8, DESIGN CHOICE).
(10_state.md R46, 70_reset_and_hazards.md R214.) -/
def Obligations.ResetMeetsTheInvariant : Prop :=
  (∀ (c : Cfg) (r0 : Tick), c.wf = true → Machine.Inv (State.resetWith c r0)) ∧ Machine.Inv State.reset

/-- From every state with the invariant, a step that answers a next state answers one with the invariant: the
configuration is well formed, the register map and pin outputs are in canonical form, every stored tuple has its
cell's count and widths, clk_acc + clk_off is not negative, the RX buffer is a prefix of a frame, the queues are
within capacity and hold only requests and only built frames, enables and arm levels follow the control byte, a frame
is staged exactly during a fire, the indicator levels mirror the control byte, and DISP's phase holds a frame of its
kind. (10_state.md R28, 10_state.md R29, 10_state.md R30, 10_state.md R31, 10_state.md R33, 10_state.md R35,
10_state.md R21, 45_events.md R185, 70_reset_and_hazards.md R215.) -/
def Obligations.EveryStepKeepsTheInvariant : Prop :=
  ∀ s t : State, Machine.Inv s → step s = .next t → Machine.Inv t

/-- The block has no reachable stop: in every state with the invariant, whoever is chosen and whatever the environment
draws, step answers a next state. (00_scope.md R19, 30_encoding.md R94, 44_dispatch.md R174, 60_exceptions.md R198.)
-/
def Obligations.AStepNeverStops : Prop :=
  ∀ s : State, Machine.Inv s → ∃ t, step s = .next t

/-- In every configuration addresses 0 to 7 are RO cells. Whatever a step does, their stored tuples and those of every
cell of variant RO stay as they are, and so does the configuration that fixes which cells there are. (R157.) -/
def Obligations.ReadOnlyRegistersNeverChange : Prop :=
  ∀ s t : State, step s = .next t → t.cfg = s.cfg ∧
    (∀ a : Byte, a.toNat < 8 → (∃ d, s.cfg.cellAt a = some d ∧ d.variant = .ro) ∧ tupleAt t a = tupleAt s a) ∧
    ∀ (a : Byte) (d : Cell), s.cfg.cellAt a = some d → d.variant = .ro → tupleAt t a = tupleAt s a

/-- If a step changes the stored tuple of an address, then DISP was in EXEC with a WRITE request to exactly that
address, and the WRITE passed every check: no interrupt, no reply, no other request and no other agent changes a
register. (10_state.md R21, 43_registers.md R141, 20_memory.md R60, 60_exceptions.md R196.) -/
def Obligations.OnlyAWriteChangesARegister : Prop :=
  ∀ (s t : State) (a : Byte), step s = .next t → tupleAt t a ≠ tupleAt s a →
    ∃ F r, s.disp = .exec F ∧ decodeRequest F = .ok r ∧ r.kind = .write ∧ r.addr = a ∧ t.disp = .stamp F .ok

/-- Whatever a step does, a set fault_reply_len stays set; and a step that sets it is the BUILD of a request with more
than 245 payload bytes and no timestamp. (R40.) -/
def Obligations.TheOverflowFaultIsSticky : Prop :=
  ∀ s t : State, step s = .next t →
    (s.faultReplyLen = true → t.faultReplyLen = true) ∧
    (s.faultReplyLen = false → t.faultReplyLen = true →
      ∃ F res ts r, s.disp = .build F res ts ∧ decodeRequest F = .ok r ∧ 245 < r.payload.length ∧ r.ts = none)

/-- Two requests that differ only in the port byte, and in the value (not the presence) of the inbound timestamp, have
the same effect in every state. (30_encoding.md R72, 30_encoding.md R86.) -/
def Obligations.PortAndInboundTimestampAreIgnored : Prop :=
  ∀ mk ∈ [Instr.read, Instr.write, Instr.eventIn], ∀ (o : MsgOps) (p : Byte) (f : Stamp → Stamp) (s : State),
    exec (mk { o with port := p, ts := o.ts.map f }) s = exec (mk o) s

/-! ## What is observed, and the values of elements -/

/-- For every state: the observation's register readings that succeed are exactly the reads that RegRead answers,
address, type code and elements; among them are the clock's seconds at address 8 and its ticks at address 9, and one
draw of the input level at the address of each pin register. The other parts of the observation are tx_out, each arm
level, opled_en, visual_en, the pin outputs and fault_reply_len. That each cell is read apart from the others is the
model's form (log 21, DESIGN CHOICE). (00_scope.md R18, 43_registers.md R140, 42_clock.md R127, 42_clock.md R129,
43_registers.md R152.) -/
def Obligations.TheObservationIsWhatRegReadReturns : Prop :=
  ∀ s : State,
    (∀ (a tc : Byte) (E : List Pattern), ⟨a, tc, .ok E⟩ ∈ (observe s).regs ↔ (regRead a tc s).1 = .ok E) ∧
    ⟨8, 0x04, .ok [(clockRead s).1.sec.setWidth 64]⟩ ∈ (observe s).regs ∧
    ⟨9, 0x02, .ok [(clockRead s).1.ticks.setWidth 64]⟩ ∈ (observe s).regs ∧
    (∀ (a : Byte) (d : Cell) (p : Nat), s.cfg.cellAt a = some d → d.variant = .pin p →
      ⟨a, 0x01, .ok [if (drawPin p s).1 then 1 else 0]⟩ ∈ (observe s).regs) ∧
    (observe s).txOut = s.txOut ∧ (observe s).arm = s.evs.map EventState.arm ∧ (observe s).opledEn = s.opledEn ∧
    (observe s).visualEn = s.visualEn ∧ (observe s).pinOut = s.pinOut ∧
    (observe s).faultReplyLen = s.faultReplyLen

/-- For every pattern: U8, U16, U32 and U64 (0x01, 0x02, 0x04, 0x08) read it as the unsigned number. For a pattern of
the width, S8, S16, S32 and S64 (0x81, 0x82, 0x84, 0x88) read it as the number of the two's-complement range that is
congruent to it. FLOAT (0x44) reads the pattern with sign sg, exponent field e and fraction f as the IEEE-754 binary32
datum of those fields. An unsupported code gives no value. Two patterns of the width with the same value are the same
pattern: a view loses nothing. (30_encoding.md R73, 30_encoding.md R75, 30_encoding.md R76, 30_encoding.md R81,
40_codec.md R99, 10_state.md R23.) -/
def Obligations.EachTypeCodeReadsItsElements : Prop :=
  (∀ (p : Pattern), ∀ tc ∈ [(0x01 : Byte), 0x02, 0x04, 0x08], Codec.value? tc p = some (.integer p.toNat)) ∧
  (∀ (p : Pattern), ∀ tc ∈ [(0x81 : Byte), 0x82, 0x84, 0x88], p.toNat < 2 ^ (8 * Codec.size tc) →
    ∃ v : Int, Codec.value? tc p = some (.integer v) ∧ -2 ^ (8 * Codec.size tc - 1) ≤ v ∧
      v < 2 ^ (8 * Codec.size tc - 1) ∧ v % 2 ^ (8 * Codec.size tc) = p.toNat) ∧
  (∀ (sg : Bool) (e : BitVec 8) (f : BitVec 23) (p : Pattern),
    p.toNat = sg.toNat * 2 ^ 31 + e.toNat * 2 ^ 23 + f.toNat →
      Codec.value? 0x44 p = some (.float
        (if e = 255 then (if f = 0 then .infinity sg else .nan sg f)
        else if e = 0 then .finite sg f.toNat (-149)
        else .finite sg (2 ^ 23 + f.toNat) ((e.toNat : Int) - 127 - 23)))) ∧
  (∀ (tc : Byte) (p : Pattern), Codec.supported tc = false → Codec.value? tc p = none) ∧
  ∀ (tc : Byte) (p q : Pattern), Codec.supported tc = true → p.toNat < 2 ^ (8 * Codec.size tc) →
    q.toNat < 2 ^ (8 * Codec.size tc) → Codec.value? tc p = Codec.value? tc q → p = q

end
end

