-- ==== Sys2Proof/Laws/Codec.lean ====
section
/-! SUPPORT. Laws of the frame codec: byte order, checksum, what a whole frame is made of, and the views of a pattern. -/
namespace Sys2Proof.Codec

@[simp] theorem leBytes_length (n v : Nat) : (leBytes n v).length = n := by
  induction n generalizing v with
  | zero => rfl
  | succ n ih => simp [leBytes, ih]

theorem unle_leBytes (n v : Nat) : unle (leBytes n v) = v % 256 ^ n := by
  induction n generalizing v with
  | zero => simp [leBytes, unle, Nat.mod_one]
  | succ n ih =>
    have h : v % 256 ^ (n + 1) = v % 256 + 256 * (v / 256 % 256 ^ n) := by
      rw [Nat.pow_succ', Nat.mod_mul]
    simp only [leBytes, unle, ih, BitVec.toNat_ofNat, h]

theorem unle_lt (B : List Byte) : unle B < 256 ^ B.length := by
  induction B with
  | nil => simp [unle]
  | cons b B ih =>
    have := b.isLt
    simp only [unle, List.length_cons, pow_succ']
    omega

theorem leBytes_unle (B : List Byte) : leBytes B.length (unle B) = B := by
  induction B with
  | nil => rfl
  | cons b B ih =>
    have hb : b.toNat < 256 := b.isLt
    have h2 : (b.toNat + 256 * unle B) / 256 = unle B := by omega
    simp only [List.length_cons, leBytes, unle, h2, ih]
    congr 1
    apply BitVec.eq_of_toNat_eq
    simp only [BitVec.toNat_ofNat]
    omega

@[simp] theorem stampBytes_some_length (t : Stamp) : (stampBytes (some t)).length = 6 := by
  simp [stampBytes]

theorem stampBytes_length (ts : Option Stamp) : (stampBytes ts).length = if ts.isSome then 6 else 0 := by
  cases ts <;> simp [stampBytes]

theorem validateChecksum_append (B : List Byte) : validateChecksum (B ++ [sum8 B]) = true := by
  simp [validateChecksum]

theorem validateChecksum_iff (B : List Byte) (c : Byte) : validateChecksum (B ++ [c]) = true ↔ c = sum8 B := by
  simp [validateChecksum]

theorem finalizeChecksum_append (B : List Byte) (c : Byte) : finalizeChecksum (B ++ [c]) = B ++ [sum8 B] := by
  simp [finalizeChecksum]

theorem hasTs_iff (pt : Byte) : hasTs pt = pt.getLsbD 4 := by revert pt; decide

theorem hasTs_or (pt : Byte) : hasTs (pt ||| 0x10) = true := by revert pt; decide

theorem hasTs_and (pt : Byte) : hasTs (pt &&& 0xEF) = false := by revert pt; decide

@[simp] theorem hasTs_ptByte (pt : Byte) (ts : Option Stamp) : hasTs (ptByte pt ts) = ts.isSome := by
  cases ts with
  | none => exact hasTs_and pt
  | some t => exact hasTs_or pt

theorem tcode_ptByte (tc : Byte) (ts : Option Stamp) (h : typeCodeOk tc = true) : tcode (ptByte tc ts) = tc := by
  cases ts with
  | none => revert tc; decide
  | some t =>
    have : ∀ tc : Byte, typeCodeOk tc = true → tcode (tc ||| 0x10) = tc := by decide
    exact this tc h

theorem ptByte_tcode (pt : Byte) (ts : Option Stamp) (h : hasTs pt = ts.isSome) : ptByte (tcode pt) ts = pt := by
  cases ts with
  | none =>
    have : ∀ pt : Byte, hasTs pt = false → tcode pt &&& 0xEF = pt := by decide
    exact this pt h
  | some t =>
    have : ∀ pt : Byte, hasTs pt = true → tcode pt ||| 0x10 = pt := by decide
    exact this pt h

theorem typeCodeOk_tcode (pt : Byte) : typeCodeOk (tcode pt) = true := by revert pt; decide

theorem typeCodeOk_of_supported (tc : Byte) (h : supported tc = true) : typeCodeOk tc = true := by
  revert tc; decide

/-- The size of a supported type code is 1, 2, 4 or 8 (30_encoding.md R75). -/
theorem size_of_supported (tc : Byte) (h : supported tc = true) :
    size tc = 1 ∨ size tc = 2 ∨ size tc = 4 ∨ size tc = 8 := by
  revert tc; decide

theorem size_pos (tc : Byte) (h : supported tc = true) : 0 < size tc := by
  rcases size_of_supported tc h with h | h | h | h <;> omega

/-- The offset of the payload of a frame built with, or without, a timestamp. -/
def offsetOf (ts : Option Stamp) : Nat := if ts.isSome then 11 else 5

@[simp] theorem offsetOf_none : offsetOf none = 5 := rfl

@[simp] theorem offsetOf_some (t : Stamp) : offsetOf (some t) = 11 := rfl

theorem offsetOf_pos (ts : Option Stamp) : 5 ≤ offsetOf ts := by cases ts <;> simp

@[simp] theorem payloadOffset_ptByte (pt : Byte) (ts : Option Stamp) :
    payloadOffset (ptByte pt ts) = offsetOf ts := by
  simp [payloadOffset, offsetOf]

theorem body_length (mt len a port pt : Byte) (ts : Option Stamp) (PB : List Byte) :
    (body mt len a port pt ts PB).length = offsetOf ts + PB.length := by
  cases ts <;> simp [body, stampBytes] <;> omega

theorem drop_body (mt len a port pt : Byte) (ts : Option Stamp) (PB rest : List Byte) :
    (body mt len a port pt ts PB ++ rest).drop (offsetOf ts) = PB ++ rest := by
  cases ts with
  | none => simp [body, stampBytes]
  | some t =>
    have h : (stampBytes (some t)).length = 6 := by simp
    simp only [body, List.cons_append, List.append_assoc, offsetOf_some, List.drop_succ_cons]
    exact List.drop_left' h

theorem wholeFrame_length (mt a port pt : Byte) (ts : Option Stamp) (PB : List Byte) :
    (wholeFrame mt a port pt ts PB).length = offsetOf ts + PB.length + 1 := by
  simp [wholeFrame, body_length]

theorem validateChecksum_wholeFrame (mt a port pt : Byte) (ts : Option Stamp) (PB : List Byte) :
    validateChecksum (wholeFrame mt a port pt ts PB) = true :=
  validateChecksum_append _

/-- The length byte of a whole frame that fits. -/
theorem wholeFrame_len (ts : Option Stamp) (PB : List Byte) (h : offsetOf ts + PB.length ≤ 256) :
    (BitVec.ofNat 8 (offsetOf ts + PB.length - 1)).toNat = offsetOf ts + PB.length - 1 := by
  have := offsetOf_pos ts
  simp only [BitVec.toNat_ofNat]
  omega

theorem wholeFrame_fields (mt a port pt : Byte) (ts : Option Stamp) (PB : List Byte)
    (h : offsetOf ts + PB.length ≤ 256) :
    fields (wholeFrame mt a port pt ts PB) =
      some ⟨mt, BitVec.ofNat 8 (offsetOf ts + PB.length - 1), a, port, ptByte pt ts, offsetOf ts, PB⟩ := by
  have hl := wholeFrame_len ts PB h
  have hpos := offsetOf_pos ts
  have hd := drop_body mt (BitVec.ofNat 8 (offsetOf ts + PB.length - 1)) a port pt ts PB
    [sum8 (body mt (BitVec.ofNat 8 (offsetOf ts + PB.length - 1)) a port pt ts PB)]
  have e : offsetOf ts + PB.length - 1 + 1 - offsetOf ts = PB.length := by omega
  have key : ((wholeFrame mt a port pt ts PB).drop (offsetOf ts)).take (offsetOf ts + PB.length - 1 + 1 - offsetOf ts)
      = PB := by
    simp only [wholeFrame, payloadOffset_ptByte]
    rw [hd, e, List.take_left' rfl]
  simp only [wholeFrame, payloadOffset_ptByte, body, List.cons_append, fields, hl] at key ⊢
  rw [key]

theorem validateStructure_wholeFrame (mt a port pt : Byte) (ts : Option Stamp) (PB : List Byte)
    (h : offsetOf ts + PB.length ≤ 256) : validateStructure (wholeFrame mt a port pt ts PB) = true := by
  have hl := wholeFrame_len ts PB h
  simp only [validateStructure, wholeFrame, body, List.cons_append, List.getElem?_cons_succ, List.getElem?_cons_zero,
    hasTs_ptByte, payloadOffset_ptByte, hl]
  cases ts with
  | none => simp
  | some t => simp; omega

theorem decodeTimestamp_wholeFrame (mt a port pt : Byte) (t : Stamp) (PB : List Byte) :
    decodeTimestamp (wholeFrame mt a port pt (some t) PB) = t := by
  have h4 := unle_leBytes 4 t.sec.toNat
  have h2 := unle_leBytes 2 t.ticks.toNat
  have l4 : (leBytes 4 t.sec.toNat).length = 4 := by simp
  have b4 := t.sec.isLt
  have b2 := t.ticks.isLt
  simp only [decodeTimestamp, wholeFrame, body, stampBytes, List.cons_append, List.append_assoc]
  rw [show (9 : Nat) = 4 + 1 + 1 + 1 + 1 + 1 from rfl]
  simp only [List.drop_succ_cons, List.drop_zero]
  rw [List.take_left' l4, List.drop_left' l4, List.take_left' (by simp), h4, h2]
  cases t with
  | mk sec ticks =>
    simp only [Stamp.mk.injEq]
    constructor <;> apply BitVec.eq_of_toNat_eq <;> (simp only [BitVec.toNat_ofNat]; omega)

/-- `encode` and `finalize_checksum` of a payload that fills its region give a whole frame (40_codec.md R102, R103). -/
theorem finalize_encode (mt a pt : Byte) (L : Nat) (ts : Option Stamp) (PB : List Byte)
    (hL : L + 1 = offsetOf ts + PB.length) (h : L ≤ 255) :
    (encode mt L a pt ts PB).map finalizeChecksum = some (wholeFrame mt a 0xFF pt ts PB) := by
  have hb : L = payloadOffset (ptByte pt ts) + PB.length - 1 := by
    rw [payloadOffset_ptByte]; omega
  have hc : L ≤ 255 ∧ payloadOffset (ptByte pt ts) + PB.length ≤ L + 1 := by
    rw [payloadOffset_ptByte]; omega
  have hr : L + 1 - (payloadOffset (ptByte pt ts) + PB.length) = 0 := by rw [payloadOffset_ptByte]; omega
  simp only [encode, hc, and_self, if_true, hr, List.replicate_zero, List.append_nil, Option.map_some,
    finalizeChecksum_append, wholeFrame, ← hb]

/-- Exactly the supported codes have an interpretation (30_encoding.md R75, R76). -/
theorem interp?_isSome (tc : Byte) : (interp? tc).isSome = supported tc := by revert tc; decide

/-- The two's-complement view of a pattern of `s` bytes lies in the signed range and is congruent to the pattern
(30_encoding.md R81). -/
theorem signedView_spec {s : Nat} {p : Pattern} (hs : 1 ≤ s) (hp : p.toNat < 2 ^ (8 * s)) :
    -2 ^ (8 * s - 1) ≤ signedView s p ∧ signedView s p < 2 ^ (8 * s - 1) ∧ signedView s p % 2 ^ (8 * s) = p.toNat := by
  obtain ⟨k, hk⟩ : ∃ k, 8 * s = k + 1 := ⟨8 * s - 1, by omega⟩
  have hp' : (p.toNat : Int) < 2 ^ (8 * s) := by exact_mod_cast hp
  rw [hk, pow_succ] at hp'
  unfold signedView
  rw [hk, Nat.add_sub_cancel, pow_succ]
  have h0 : (0 : Int) < 2 ^ k := by positivity
  split
  · rename_i h
    have h' : (p.toNat : Int) < 2 ^ k := by exact_mod_cast h
    exact ⟨by omega, h', Int.emod_eq_of_lt (by omega) (by omega)⟩
  · rename_i h
    have h' : (2 : Int) ^ k ≤ p.toNat := by exact_mod_cast not_lt.1 h
    refine ⟨by omega, by omega, ?_⟩
    rw [← Int.add_emod_right, sub_add_cancel]
    exact Int.emod_eq_of_lt (by omega) (by omega)

/-- The fields of the pattern they make up (40_codec.md R99). -/
theorem floatView_eq {sg : Bool} {e : BitVec 8} {f : BitVec 23} {p : Pattern}
    (h : p.toNat = sg.toNat * 2 ^ 31 + e.toNat * 2 ^ 23 + f.toNat) : floatView p = (sg, e, f) := by
  have he := e.isLt
  have hf := f.isLt
  have hs : sg.toNat ≤ 1 := Bool.toNat_le sg
  unfold floatView
  refine Prod.ext ?_ (Prod.ext ?_ ?_)
  · simp only [BitVec.getLsbD, Nat.testBit_eq_decide_div_mod_eq, h]
    cases sg <;> simp <;> omega
  · apply BitVec.eq_of_toNat_eq
    simp only [BitVec.extractLsb'_toNat, Nat.shiftRight_eq_div_pow, h]
    omega
  · apply BitVec.eq_of_toNat_eq
    simp only [BitVec.extractLsb'_toNat, Nat.shiftRight_eq_div_pow, h]
    omega

/-- The fields make up the pattern, if it has no bit above bit 31. -/
theorem floatView_makes {p : Pattern} (h : p.toNat < 2 ^ 32) :
    p.toNat = (floatView p).1.toNat * 2 ^ 31 + (floatView p).2.1.toNat * 2 ^ 23 + (floatView p).2.2.toNat := by
  simp only [floatView, BitVec.getLsbD, Nat.testBit_eq_decide_div_mod_eq, BitVec.extractLsb'_toNat,
    Nat.shiftRight_eq_div_pow]
  by_cases hb : p.toNat / 2 ^ 31 % 2 = 1
  · rw [decide_eq_true hb, Bool.toNat_true]; omega
  · rw [decide_eq_false hb, Bool.toNat_false]; omega

end Sys2Proof.Codec
end

