-- ==== Sys2Proof/Laws/Frames.lean ====
section
/-! SUPPORT. What the frame-building operations build: whole frames. -/
namespace Sys2Proof.Machine

open Codec (wholeFrame offsetOf)

/-- An outbound frame that fits is the whole frame of its fields; one that does not fit is refused (40_codec.md R102). -/
theorem builtFrame_eq (mt a tc : Byte) (ts : Stamp) (PB : List Byte) :
    builtFrame mt a tc ts PB =
      if PB.length ≤ 245 then some (wholeFrame mt a 0xFF tc (some ts) PB) else none := by
  unfold builtFrame
  split
  · exact Codec.finalize_encode mt a tc _ (some ts) PB (by simp; omega) (by omega)
  · simp only [Codec.encode]
    rw [if_neg (by omega)]
    rfl

theorem encodeElement_length (tc : Byte) (p : Pattern) : (Codec.encodeElement tc p).length = Codec.size tc := by
  simp [Codec.encodeElement]

theorem pack_length (tc : Byte) (E : List Pattern) : (Codec.pack tc E).length = E.length * Codec.size tc := by
  induction E with
  | nil => simp [Codec.pack]
  | cons p E ih =>
    simp only [Codec.pack, List.flatMap_cons, List.length_append, encodeElement_length, List.length_cons] at ih ⊢
    rw [ih]; ring

/-- A reply that fits is the whole frame of its fields (44_dispatch.md R163). -/
theorem replyFrame_eq (r : Request) (E : List Pattern) (ts : Stamp) (h : E.length * Codec.size r.tc + 10 ≤ 255) :
    replyFrame r E ts =
      some (wholeFrame r.kind.byte r.addr 0xFF r.tc (some ts) (Codec.pack r.tc E)) := by
  have hl := pack_length r.tc E
  exact Codec.finalize_encode _ _ _ _ (some ts) _ (by simp [hl]; omega) (by omega)

theorem errorPayload_length (r : Request) : (errorPayload r).length = r.payload.length := by
  cases hk : r.kind <;> simp [errorPayload, hk]

theorem errorLen_eq (r : Request) : errorLen r = r.payload.length + 10 := by
  unfold errorLen reqLen reqOffset
  split <;> omega

/-- An ERROR reply that fits is the whole frame of its fields (44_dispatch.md R166). -/
theorem errorFrame_eq (r : Request) (ts : Stamp) (h : r.payload.length ≤ 245) :
    errorFrame r ts =
      some (wholeFrame (r.kind.byte ||| 0x08) r.addr 0xFF r.tc (some ts) (errorPayload r)) := by
  have hl := errorPayload_length r
  have he := errorLen_eq r
  exact Codec.finalize_encode _ _ _ _ (some ts) _ (by simp [hl, he]; omega) (by omega)

end Sys2Proof.Machine
end

