-- ==== Sys2Proof/Laws/State.lean ====
section
/-! SUPPORT. The derived accessors of a state under each named update. The lemmas for the fields themselves (one for each
field of each update, tagged simp, true by rfl) come from `@[simps]` on the updates in Machine/State.lean. -/
namespace Sys2Proof.Machine

@[simp] theorem tupleAt_setClock (s : State) (c : Clock) (a : Byte) : tupleAt (s.setClock c) a = tupleAt s a := rfl
@[simp] theorem tupleAt_setRx (s : State) (r : Rx) (a : Byte) : tupleAt (s.setRx r) a = tupleAt s a := rfl
@[simp] theorem tupleAt_setRxq (s : State) (q : List Frame) (a : Byte) : tupleAt (s.setRxq q) a = tupleAt s a := rfl
@[simp] theorem tupleAt_setTxq (s : State) (q : List Frame) (a : Byte) : tupleAt (s.setTxq q) a = tupleAt s a := rfl
@[simp] theorem tupleAt_setEvs (s : State) (E : List EventState) (a : Byte) : tupleAt (s.setEvs E) a = tupleAt s a := rfl
@[simp] theorem tupleAt_setDisp (s : State) (ph : DispPhase) (a : Byte) : tupleAt (s.setDisp ph) a = tupleAt s a := rfl
@[simp] theorem tupleAt_setLevels (s : State) (x y : Bool) (a : Byte) : tupleAt (s.setLevels x y) a = tupleAt s a := rfl
@[simp] theorem tupleAt_setPinOut (s : State) (m : Keyed Bool) (a : Byte) : tupleAt (s.setPinOut m) a = tupleAt s a := rfl
@[simp] theorem tupleAt_setFaultReplyLen (s : State) (b : Bool) (a : Byte) : tupleAt (s.setFaultReplyLen b) a = tupleAt s a := rfl
@[simp] theorem tupleAt_setRxIn (s : State) (bs : List Byte) (a : Byte) : tupleAt (s.setRxIn bs) a = tupleAt s a := rfl
@[simp] theorem tupleAt_setTxOut (s : State) (bs : List Byte) (a : Byte) : tupleAt (s.setTxOut bs) a = tupleAt s a := rfl
@[simp] theorem tupleAt_setTickIn (s : State) (ts : List Tick) (a : Byte) : tupleAt (s.setTickIn ts) a = tupleAt s a := rfl
@[simp] theorem tupleAt_setPinIn (s : State) (vs : List Bool) (a : Byte) : tupleAt (s.setPinIn vs) a = tupleAt s a := rfl
@[simp] theorem tupleAt_setMoves (s : State) (ms : List Move) (a : Byte) : tupleAt (s.setMoves ms) a = tupleAt s a := rfl
@[simp] theorem tupleAt_setFreeCount (s : State) (n : Nat) (a : Byte) : tupleAt (s.setFreeCount n) a = tupleAt s a := rfl

@[simp] theorem opctrl_setClock (s : State) (c : Clock) : opctrl (s.setClock c) = opctrl s := rfl
@[simp] theorem opctrl_setRx (s : State) (r : Rx) : opctrl (s.setRx r) = opctrl s := rfl
@[simp] theorem opctrl_setRxq (s : State) (q : List Frame) : opctrl (s.setRxq q) = opctrl s := rfl
@[simp] theorem opctrl_setTxq (s : State) (q : List Frame) : opctrl (s.setTxq q) = opctrl s := rfl
@[simp] theorem opctrl_setEvs (s : State) (E : List EventState) : opctrl (s.setEvs E) = opctrl s := rfl
@[simp] theorem opctrl_setDisp (s : State) (ph : DispPhase) : opctrl (s.setDisp ph) = opctrl s := rfl
@[simp] theorem opctrl_setLevels (s : State) (x y : Bool) : opctrl (s.setLevels x y) = opctrl s := rfl
@[simp] theorem opctrl_setPinOut (s : State) (m : Keyed Bool) : opctrl (s.setPinOut m) = opctrl s := rfl
@[simp] theorem opctrl_setFaultReplyLen (s : State) (b : Bool) : opctrl (s.setFaultReplyLen b) = opctrl s := rfl
@[simp] theorem opctrl_setRxIn (s : State) (bs : List Byte) : opctrl (s.setRxIn bs) = opctrl s := rfl
@[simp] theorem opctrl_setTxOut (s : State) (bs : List Byte) : opctrl (s.setTxOut bs) = opctrl s := rfl
@[simp] theorem opctrl_setTickIn (s : State) (ts : List Tick) : opctrl (s.setTickIn ts) = opctrl s := rfl
@[simp] theorem opctrl_setPinIn (s : State) (vs : List Bool) : opctrl (s.setPinIn vs) = opctrl s := rfl
@[simp] theorem opctrl_setMoves (s : State) (ms : List Move) : opctrl (s.setMoves ms) = opctrl s := rfl
@[simp] theorem opctrl_setFreeCount (s : State) (n : Nat) : opctrl (s.setFreeCount n) = opctrl s := rfl

@[simp] theorem pinOutAt_setStore (s : State) (m : Keyed (List Pattern)) (p : Nat) : pinOutAt (s.setStore m) p = pinOutAt s p := rfl
@[simp] theorem pinOutAt_setClock (s : State) (c : Clock) (p : Nat) : pinOutAt (s.setClock c) p = pinOutAt s p := rfl
@[simp] theorem pinOutAt_setRx (s : State) (r : Rx) (p : Nat) : pinOutAt (s.setRx r) p = pinOutAt s p := rfl
@[simp] theorem pinOutAt_setRxq (s : State) (q : List Frame) (p : Nat) : pinOutAt (s.setRxq q) p = pinOutAt s p := rfl
@[simp] theorem pinOutAt_setTxq (s : State) (q : List Frame) (p : Nat) : pinOutAt (s.setTxq q) p = pinOutAt s p := rfl
@[simp] theorem pinOutAt_setEvs (s : State) (E : List EventState) (p : Nat) : pinOutAt (s.setEvs E) p = pinOutAt s p := rfl
@[simp] theorem pinOutAt_setDisp (s : State) (ph : DispPhase) (p : Nat) : pinOutAt (s.setDisp ph) p = pinOutAt s p := rfl
@[simp] theorem pinOutAt_setLevels (s : State) (x y : Bool) (p : Nat) : pinOutAt (s.setLevels x y) p = pinOutAt s p := rfl
@[simp] theorem pinOutAt_setFaultReplyLen (s : State) (b : Bool) (p : Nat) : pinOutAt (s.setFaultReplyLen b) p = pinOutAt s p := rfl
@[simp] theorem pinOutAt_setRxIn (s : State) (bs : List Byte) (p : Nat) : pinOutAt (s.setRxIn bs) p = pinOutAt s p := rfl
@[simp] theorem pinOutAt_setTxOut (s : State) (bs : List Byte) (p : Nat) : pinOutAt (s.setTxOut bs) p = pinOutAt s p := rfl
@[simp] theorem pinOutAt_setTickIn (s : State) (ts : List Tick) (p : Nat) : pinOutAt (s.setTickIn ts) p = pinOutAt s p := rfl
@[simp] theorem pinOutAt_setPinIn (s : State) (vs : List Bool) (p : Nat) : pinOutAt (s.setPinIn vs) p = pinOutAt s p := rfl
@[simp] theorem pinOutAt_setMoves (s : State) (ms : List Move) (p : Nat) : pinOutAt (s.setMoves ms) p = pinOutAt s p := rfl
@[simp] theorem pinOutAt_setFreeCount (s : State) (n : Nat) (p : Nat) : pinOutAt (s.setFreeCount n) p = pinOutAt s p := rfl

@[simp] theorem anyBusy_setStore (s : State) (m : Keyed (List Pattern)) : anyBusy (s.setStore m) = anyBusy s := rfl
@[simp] theorem anyBusy_setClock (s : State) (c : Clock) : anyBusy (s.setClock c) = anyBusy s := rfl
@[simp] theorem anyBusy_setRx (s : State) (r : Rx) : anyBusy (s.setRx r) = anyBusy s := rfl
@[simp] theorem anyBusy_setRxq (s : State) (q : List Frame) : anyBusy (s.setRxq q) = anyBusy s := rfl
@[simp] theorem anyBusy_setTxq (s : State) (q : List Frame) : anyBusy (s.setTxq q) = anyBusy s := rfl
@[simp] theorem anyBusy_setDisp (s : State) (ph : DispPhase) : anyBusy (s.setDisp ph) = anyBusy s := rfl
@[simp] theorem anyBusy_setLevels (s : State) (x y : Bool) : anyBusy (s.setLevels x y) = anyBusy s := rfl
@[simp] theorem anyBusy_setPinOut (s : State) (m : Keyed Bool) : anyBusy (s.setPinOut m) = anyBusy s := rfl
@[simp] theorem anyBusy_setFaultReplyLen (s : State) (b : Bool) : anyBusy (s.setFaultReplyLen b) = anyBusy s := rfl
@[simp] theorem anyBusy_setRxIn (s : State) (bs : List Byte) : anyBusy (s.setRxIn bs) = anyBusy s := rfl
@[simp] theorem anyBusy_setTxOut (s : State) (bs : List Byte) : anyBusy (s.setTxOut bs) = anyBusy s := rfl
@[simp] theorem anyBusy_setTickIn (s : State) (ts : List Tick) : anyBusy (s.setTickIn ts) = anyBusy s := rfl
@[simp] theorem anyBusy_setPinIn (s : State) (vs : List Bool) : anyBusy (s.setPinIn vs) = anyBusy s := rfl
@[simp] theorem anyBusy_setMoves (s : State) (ms : List Move) : anyBusy (s.setMoves ms) = anyBusy s := rfl
@[simp] theorem anyBusy_setFreeCount (s : State) (n : Nat) : anyBusy (s.setFreeCount n) = anyBusy s := rfl

@[simp] theorem anyPending_setStore (s : State) (m : Keyed (List Pattern)) : anyPending (s.setStore m) = anyPending s := rfl
@[simp] theorem anyPending_setClock (s : State) (c : Clock) : anyPending (s.setClock c) = anyPending s := rfl
@[simp] theorem anyPending_setRx (s : State) (r : Rx) : anyPending (s.setRx r) = anyPending s := rfl
@[simp] theorem anyPending_setRxq (s : State) (q : List Frame) : anyPending (s.setRxq q) = anyPending s := rfl
@[simp] theorem anyPending_setTxq (s : State) (q : List Frame) : anyPending (s.setTxq q) = anyPending s := rfl
@[simp] theorem anyPending_setDisp (s : State) (ph : DispPhase) : anyPending (s.setDisp ph) = anyPending s := rfl
@[simp] theorem anyPending_setLevels (s : State) (x y : Bool) : anyPending (s.setLevels x y) = anyPending s := rfl
@[simp] theorem anyPending_setPinOut (s : State) (m : Keyed Bool) : anyPending (s.setPinOut m) = anyPending s := rfl
@[simp] theorem anyPending_setFaultReplyLen (s : State) (b : Bool) : anyPending (s.setFaultReplyLen b) = anyPending s := rfl
@[simp] theorem anyPending_setRxIn (s : State) (bs : List Byte) : anyPending (s.setRxIn bs) = anyPending s := rfl
@[simp] theorem anyPending_setTxOut (s : State) (bs : List Byte) : anyPending (s.setTxOut bs) = anyPending s := rfl
@[simp] theorem anyPending_setTickIn (s : State) (ts : List Tick) : anyPending (s.setTickIn ts) = anyPending s := rfl
@[simp] theorem anyPending_setPinIn (s : State) (vs : List Bool) : anyPending (s.setPinIn vs) = anyPending s := rfl
@[simp] theorem anyPending_setMoves (s : State) (ms : List Move) : anyPending (s.setMoves ms) = anyPending s := rfl
@[simp] theorem anyPending_setFreeCount (s : State) (n : Nat) : anyPending (s.setFreeCount n) = anyPending s := rfl

@[simp] theorem clockTotal_setStore (s : State) (m : Keyed (List Pattern)) : clockTotal (s.setStore m) = clockTotal s := rfl
@[simp] theorem clockTotal_setRx (s : State) (r : Rx) : clockTotal (s.setRx r) = clockTotal s := rfl
@[simp] theorem clockTotal_setRxq (s : State) (q : List Frame) : clockTotal (s.setRxq q) = clockTotal s := rfl
@[simp] theorem clockTotal_setTxq (s : State) (q : List Frame) : clockTotal (s.setTxq q) = clockTotal s := rfl
@[simp] theorem clockTotal_setEvs (s : State) (E : List EventState) : clockTotal (s.setEvs E) = clockTotal s := rfl
@[simp] theorem clockTotal_setDisp (s : State) (ph : DispPhase) : clockTotal (s.setDisp ph) = clockTotal s := rfl
@[simp] theorem clockTotal_setLevels (s : State) (x y : Bool) : clockTotal (s.setLevels x y) = clockTotal s := rfl
@[simp] theorem clockTotal_setPinOut (s : State) (m : Keyed Bool) : clockTotal (s.setPinOut m) = clockTotal s := rfl
@[simp] theorem clockTotal_setFaultReplyLen (s : State) (b : Bool) : clockTotal (s.setFaultReplyLen b) = clockTotal s := rfl
@[simp] theorem clockTotal_setRxIn (s : State) (bs : List Byte) : clockTotal (s.setRxIn bs) = clockTotal s := rfl
@[simp] theorem clockTotal_setTxOut (s : State) (bs : List Byte) : clockTotal (s.setTxOut bs) = clockTotal s := rfl
@[simp] theorem clockTotal_setTickIn (s : State) (ts : List Tick) : clockTotal (s.setTickIn ts) = clockTotal s := rfl
@[simp] theorem clockTotal_setPinIn (s : State) (vs : List Bool) : clockTotal (s.setPinIn vs) = clockTotal s := rfl
@[simp] theorem clockTotal_setMoves (s : State) (ms : List Move) : clockTotal (s.setMoves ms) = clockTotal s := rfl
@[simp] theorem clockTotal_setFreeCount (s : State) (n : Nat) : clockTotal (s.setFreeCount n) = clockTotal s := rfl

end Sys2Proof.Machine
end

