-- ==== Sys2Proof/Laws/Clock.lean ====
section
/-! SUPPORT. Laws of the draws and the clock synchronizer (42_clock.md): what a sample changes, and what the clock
reads. -/
namespace Sys2Proof.Machine

/-- `t` is `s` but for the clock and what the environment's draws used up: what a read may change. -/
def Sampled (s t : State) : Prop :=
  ∃ c ti pi n, t = (((s.setClock c).setTickIn ti).setPinIn pi).setFreeCount n

theorem Sampled.refl (s : State) : Sampled s s := ⟨s.clock, s.tickIn, s.pinIn, s.freeCount, rfl⟩

theorem Sampled.trans {s t u : State} (h : Sampled s t) (k : Sampled t u) : Sampled s u := by
  obtain ⟨c, ti, pi, n, rfl⟩ := h
  obtain ⟨c', ti', pi', n', rfl⟩ := k
  exact ⟨c', ti', pi', n', rfl⟩

/-- A tick draw uses up a listed sample or a free value, and changes nothing else. -/
theorem drawTick_frame (s : State) :
    ∃ ti n, (drawTick s).2 = (s.setTickIn ti).setFreeCount n := by
  unfold drawTick
  split
  · rename_i rs _; exact ⟨rs, s.freeCount, rfl⟩
  · exact ⟨s.tickIn, s.freeCount + 1, rfl⟩

/-- A pin draw uses up a listed level or a free value, and changes nothing else. -/
theorem drawPin_frame (p : Nat) (s : State) :
    ∃ pi n, (drawPin p s).2 = (s.setPinIn pi).setFreeCount n := by
  unfold drawPin
  split
  · rename_i vs _; exact ⟨vs, s.freeCount, rfl⟩
  · exact ⟨s.pinIn, s.freeCount + 1, rfl⟩

theorem clockSample_eq (s : State) :
    clockSample s = (drawTick s).2.setClock
      ⟨s.clock.acc + (clockDelta (drawTick s).1 s.clock.last).toNat, (drawTick s).1, s.clock.off⟩ := rfl

theorem sampled_clockSample (s : State) : Sampled s (clockSample s) := by
  obtain ⟨ti, n, h⟩ := drawTick_frame s
  rw [clockSample_eq, h]
  exact ⟨⟨s.clock.acc + (clockDelta (drawTick s).1 s.clock.last).toNat, (drawTick s).1, s.clock.off⟩, ti, s.pinIn, n, rfl⟩

theorem clockRead_fst (s : State) : (clockRead s).1 = stampOf (clockTotal (clockSample s)) := rfl

theorem clockRead_snd (s : State) : (clockRead s).2 = clockSample s := rfl

theorem sampled_clockRead (s : State) : Sampled s (clockRead s).2 := sampled_clockSample s

theorem sampled_clockWrite (v : BitVec 32) (s : State) : Sampled s (clockWrite v s) := by
  obtain ⟨c, ti, pi, n, h⟩ := sampled_clockSample s
  refine ⟨(clockWrite v s).clock, ti, pi, n, ?_⟩
  simp only [clockWrite, h]
  rfl

theorem sampled_drawPin (p : Nat) (s : State) : Sampled s (drawPin p s).2 := by
  obtain ⟨pi, n, h⟩ := drawPin_frame p s
  rw [h]
  exact ⟨s.clock, s.tickIn, pi, n, rfl⟩

/-- A sample adds the modular delta, which is less than one period (42_clock.md R121, R122). -/
theorem clockTotal_clockSample (s : State) :
    clockTotal (clockSample s) = clockTotal s + (clockDelta (drawTick s).1 s.clock.last).toNat := by
  simp only [clockSample_eq, clockTotal, State.setClock_clock]
  push_cast
  ring

theorem clockTotal_le_clockSample (s : State) : clockTotal s ≤ clockTotal (clockSample s) := by
  rw [clockTotal_clockSample]; omega

theorem fitsS64_iff (x : Int) : fitsS64 x = true ↔ -2 ^ 63 ≤ x ∧ x < 2 ^ 63 := by
  simp [fitsS64]

/-- An offset that fits an s_64 is held exactly (10_state.md R27). -/
theorem toOffset_toInt {x : Int} (h : fitsS64 x = true) : (toOffset x).toInt = x := by
  obtain ⟨h1, h2⟩ := (fitsS64_iff x).1 h
  rw [toOffset, if_pos h, BitVec.toInt_ofInt, Int.bmod_eq_of_le] <;> omega

/-- The offset that 42_clock.md R124 gives a rebase to `v`. -/
def rebaseOffset (v : BitVec 32) (s : State) : Int :=
  (v.toNat : Int) * 1000000 + clockTotal (clockSample s) % 1000000 - (clockSample s).clock.acc

/-- A rebase takes one sample and replaces the offset, and nothing else (42_clock.md R124). -/
theorem clockWrite_eq (v : BitVec 32) (s : State) :
    clockWrite v s =
      (clockSample s).setClock { (clockSample s).clock with off := toOffset (rebaseOffset v s) } := rfl

/-- After a rebase whose offset fits, the total is the target second and the sub-second position of the write
(42_clock.md R124). -/
theorem clockTotal_clockWrite {v : BitVec 32} {s : State} (h : fitsS64 (rebaseOffset v s) = true) :
    clockTotal (clockWrite v s) = (v.toNat : Int) * 1000000 + clockTotal (clockSample s) % 1000000 := by
  rw [clockWrite_eq, clockTotal, State.setClock_clock, toOffset_toInt h, rebaseOffset]
  ring

/-- An offset of a rebase that does not fit is too low, so `clk_acc` is above 2^63, and with any offset of 64 bits the
total is not negative: 10_state.md R28 holds whatever the free value is. -/
theorem clockTotal_clockWrite_nonneg (v : BitVec 32) (s : State) : 0 ≤ clockTotal (clockWrite v s) := by
  have hsub := Int.emod_nonneg (clockTotal (clockSample s)) (show (1000000 : Int) ≠ 0 by decide)
  have hlt := Int.emod_lt_of_pos (clockTotal (clockSample s)) (show (0 : Int) < 1000000 by decide)
  by_cases h : fitsS64 (rebaseOffset v s) = true
  · rw [clockTotal_clockWrite h]; omega
  · have hv := v.isLt
    have hlo := BitVec.le_two_mul_toInt (x := toOffset (rebaseOffset v s))
    rw [fitsS64_iff] at h
    rw [clockWrite_eq, clockTotal, State.setClock_clock]
    simp only [rebaseOffset] at h hlo ⊢
    omega

/-- The micro-ticks the block builds are less than 31250 (30_encoding.md R78). -/
theorem stampOf_ticks_lt (total : Int) : (stampOf total).ticks.toNat < 31250 := by
  have h0 := Int.emod_nonneg total (show (1000000 : Int) ≠ 0 by decide)
  have h1 := Int.emod_lt_of_pos total (show (0 : Int) < 1000000 by decide)
  simp only [stampOf, BitVec.toNat_ofInt]
  omega

end Sys2Proof.Machine
end

