-- ==== Sys2Proof/Laws/Keyed.lean ====
section
/-! SUPPORT. Laws of sparse data keyed by a number: a read after a write, the canonical form, and that every operation
keeps it. -/
namespace Sys2Proof

theorem keyedGet_keyedSet {α : Type} (m : Keyed α) (k j : Nat) (v : α) :
    keyedGet (keyedSet m k v) j = if k = j then some v else keyedGet m j := by
  induction m with
  | nil => simp [keyedSet, keyedGet]
  | cons p m ih =>
    obtain ⟨i, w⟩ := p
    simp only [keyedSet]
    split
    · simp only [keyedGet]
    · split
      · simp only [keyedGet]
        split <;> simp_all
      · simp only [keyedGet, ih]
        split <;> split <;> simp_all

@[simp] theorem keyedGet_keyedSet_same {α : Type} (m : Keyed α) (k : Nat) (v : α) :
    keyedGet (keyedSet m k v) k = some v := by
  simp [keyedGet_keyedSet]

theorem keyedGet_keyedSet_other {α : Type} (m : Keyed α) (k j : Nat) (v : α) (h : k ≠ j) :
    keyedGet (keyedSet m k v) j = keyedGet m j := by
  simp [keyedGet_keyedSet, h]

theorem mem_keys_keyedSet {α : Type} (m : Keyed α) (k j : Nat) (v : α) :
    j ∈ (keyedSet m k v).map Prod.fst ↔ j = k ∨ j ∈ m.map Prod.fst := by
  induction m with
  | nil => simp [keyedSet]
  | cons p m ih =>
    obtain ⟨i, w⟩ := p
    simp only [keyedSet]
    split
    · simp
    · split
      · subst_vars; simp
      · simp only [List.map_cons, List.mem_cons, ih]; tauto

/-- A write keeps the canonical form. -/
theorem keyedWf_keyedSet {α : Type} (m : Keyed α) (k : Nat) (v : α) (h : keyedWf m) : keyedWf (keyedSet m k v) := by
  induction m with
  | nil => simp [keyedSet, keyedWf]
  | cons p m ih =>
    obtain ⟨i, w⟩ := p
    simp only [keyedWf, List.map_cons, List.pairwise_cons] at h ih ⊢
    simp only [keyedSet]
    split
    · rename_i hk
      simp only [List.map_cons, List.pairwise_cons, List.mem_cons]
      refine ⟨?_, h⟩
      rintro j (rfl | hj)
      · exact hk
      · exact hk.trans (h.1 j hj)
    · split
      · subst_vars; simpa using h
      · simp only [List.map_cons, List.pairwise_cons]
        refine ⟨?_, ih h.2⟩
        intro j hj
        rcases (mem_keys_keyedSet m k j v).1 hj with rfl | hj
        · omega
        · exact h.1 j hj

/-- The reset tuples are in canonical form. -/
theorem keyedWf_resetStore (c : Cfg) : keyedWf c.resetStore := by
  have : ∀ (ps : List (Nat × List Pattern)) (m : Keyed (List Pattern)), keyedWf m →
      keyedWf (ps.foldl (fun m p => keyedSet m p.1 p.2) m) := by
    intro ps
    induction ps with
    | nil => exact fun m h => h
    | cons p ps ih => exact fun m h => ih _ (keyedWf_keyedSet m p.1 p.2 h)
  exact this _ _ (by simp [keyedWf])

end Sys2Proof
end

