-- ==== Sys2Proof/Laws/Mux.lean ====
section
/-! SUPPORT. Laws of the register mux (43_registers.md): what a read and a write can do. -/
namespace Sys2Proof.Machine

theorem sampled_readStored (c : Cell) (tc : Byte) (s : State) : (readStored c tc s).2 = s := by
  unfold readStored; split <;> rfl

/-- A register read changes nothing but the clock and what the environment's draws used up (20_memory.md R59). -/
theorem sampled_regRead (a tc : Byte) (s : State) : Sampled s (regRead a tc s).2 := by
  unfold regRead
  split
  · exact Sampled.refl s
  · split
    · rw [sampled_readStored]; exact Sampled.refl s
    · rw [sampled_readStored]; exact Sampled.refl s
    · rw [sampled_readStored]; exact Sampled.refl s
    · unfold readSeconds; split
      · exact Sampled.refl s
      · exact sampled_clockRead s
    · unfold readMicro; split
      · exact Sampled.refl s
      · exact sampled_clockRead s
    · unfold readPin; split
      · exact Sampled.refl s
      · exact sampled_drawPin _ s

/-- A read fails only on an address with no cell or on another type code, and then nothing has changed
(43_registers.md R140, R142). -/
theorem regRead_error {a tc : Byte} {s t : State} {cause : Cause} (h : regRead a tc s = (.error cause, t)) :
    t = s ∧ ((s.cfg.cellAt a = none ∧ cause = .unknownAddress) ∨
      ∃ c, s.cfg.cellAt a = some c ∧ tc ≠ c.tcode ∧ cause = .typeMismatch) := by
  unfold regRead at h
  split at h
  · cases h; exact ⟨rfl, .inl ⟨‹_›, rfl⟩⟩
  · rename_i c hc
    suffices hh : t = s ∧ tc ≠ c.tcode ∧ cause = .typeMismatch from ⟨hh.1, .inr ⟨c, hc, hh.2⟩⟩
    split at h <;>
      (first | unfold readStored at h | unfold readSeconds at h | unfold readMicro at h | unfold readPin at h) <;>
      split at h <;> cases h <;> exact ⟨rfl, ‹_›, rfl⟩

/-- A read that succeeds addresses a cell of the same type code (43_registers.md R142). -/
theorem regRead_ok {a tc : Byte} {s t : State} {E : List Pattern} (h : regRead a tc s = (.ok E, t)) :
    ∃ c, s.cfg.cellAt a = some c ∧ tc = c.tcode ∧
      (Stored c.variant ∧ E = tupleAt s c.addr ∧ t = s ∨
        c.variant = .tsSec ∧ E = [(clockRead s).1.sec.setWidth 64] ∧ t = clockSample s ∨
        c.variant = .tsMicro ∧ E = [(clockRead s).1.ticks.setWidth 64] ∧ t = clockSample s ∨
        ∃ p, c.variant = .pin p ∧ E = [if (drawPin p s).1 then 1 else 0] ∧ t = (drawPin p s).2) := by
  unfold regRead at h
  split at h
  · cases h
  · rename_i c hc
    refine ⟨c, hc, ?_⟩
    split at h
    · unfold readStored at h; split at h
      · cases h
      · cases h; exact ⟨not_not.1 ‹_›, .inl ⟨.inl ‹_›, rfl, rfl⟩⟩
    · unfold readStored at h; split at h
      · cases h
      · cases h; exact ⟨not_not.1 ‹_›, .inl ⟨.inr (.inl ‹_›), rfl, rfl⟩⟩
    · unfold readStored at h; split at h
      · cases h
      · cases h; exact ⟨not_not.1 ‹_›, .inl ⟨.inr (.inr ‹_›), rfl, rfl⟩⟩
    · unfold readSeconds at h; split at h
      · cases h
      · cases h; exact ⟨not_not.1 ‹_›, .inr (.inl ⟨‹_›, rfl, rfl⟩)⟩
    · unfold readMicro at h; split at h
      · cases h
      · cases h; exact ⟨not_not.1 ‹_›, .inr (.inr (.inl ⟨‹_›, rfl, rfl⟩))⟩
    · unfold readPin at h; split at h
      · cases h
      · cases h; exact ⟨not_not.1 ‹_›, .inr (.inr (.inr ⟨_, ‹_›, rfl, rfl⟩))⟩

/-- A write fails with no change, or passes every check and has the effect of its cell's variant
(43_registers.md R141). -/
theorem regWrite_cases {a tc : Byte} {E : List Pattern} {s t : State} {res : Res} (h : regWrite a tc E s = (res, t)) :
    (∃ cause, res = .err cause ∧ t = s) ∨
      ∃ c, s.cfg.cellAt a = some c ∧ writeProtected c.variant = false ∧ tc = c.tcode ∧ E.length = c.count ∧
        res = .ok ∧ t = writeCell c E s := by
  unfold regWrite at h
  split at h
  · cases h; exact .inl ⟨_, rfl, rfl⟩
  · split at h
    · cases h; exact .inl ⟨_, rfl, rfl⟩
    · split at h
      · cases h; exact .inl ⟨_, rfl, rfl⟩
      · split at h
        · cases h; exact .inl ⟨_, rfl, rfl⟩
        · cases h
          exact .inr ⟨_, ‹_›, by simpa using ‹¬writeProtected _ = true›, not_not.1 ‹_›, not_not.1 ‹_›, rfl, rfl⟩

/-- What is read of a stored cell is its tuple (43_registers.md R135, R138, R144). -/
theorem reading_stored {s : State} {c : Cell} (h : s.cfg.cellAt c.addr = some c) (hv : Stored c.variant) :
    reading s c = ⟨c.addr, c.tcode, .ok (tupleAt s c.addr)⟩ := by
  unfold reading regRead
  rw [h]
  rcases hv with hv | hv | hv <;> simp [hv, readStored]

/-- What is observed of the register map is what is read of its cells (00_scope.md R18). -/
theorem mem_regs {s : State} {r : Reading} : r ∈ (observe s).regs ↔ ∃ c ∈ s.cfg.cells, reading s c = r :=
  List.mem_map

end Sys2Proof.Machine
end

