-- ==== Sys2Proof/Laws/Phases.lean ====
section
/-! SUPPORT. What the phases of a request, SEND and a notification can do (44_dispatch.md). -/
namespace Sys2Proof.Machine

open Codec (wholeFrame)

/-- Taking an access error ends in the ERROR reply, or, when it does not fit, in the sticky fault; it never stops
(44_dispatch.md R166, R168). -/
theorem takeAccessError_eq (cause : Cause) (r : Request) (ts : Stamp) (s : State) :
    takeAccessError cause r ts s =
      if r.payload.length ≤ 245 then
        .next (s.setDisp (.send (wholeFrame (r.kind.byte ||| 0x08) r.addr 0xFF r.tc (some ts) (errorPayload r))))
      else .next ((s.setFaultReplyLen true).setDisp .sync) := by
  unfold takeAccessError
  rw [errorLen_eq]
  split
  · rw [if_neg (by omega)]
  · rw [errorFrame_eq r ts (by omega), if_pos (by omega)]

/-- EXEC changes DISP's phase and, for a WRITE, what the register write changes (44_dispatch.md R160). -/
theorem execPhase_eq (r : Request) (F : Frame) (s : State) :
    execPhase r F s =
      if r.kind = .write then
        (regWrite r.addr r.tc (reqElems r) s).2.setDisp (.stamp F (regWrite r.addr r.tc (reqElems r) s).1)
      else s.setDisp (.stamp F .ok) := by
  unfold execPhase
  cases h : r.kind <;> simp

/-- STAMP samples the clock and reads it (44_dispatch.md R165). -/
theorem stampPhase_eq (F : Frame) (res : Res) (s : State) :
    stampPhase F res s = (clockSample s).setDisp (.build F res (stampOf (clockTotal (clockSample s)))) := rfl

/-- BUILD ends in an ERROR reply, in a reply that holds the register's elements, or, for a register too large for any
configuration that passed its check, in a refusal (44_dispatch.md R161 to R168). -/
theorem buildPhase_cases (r : Request) (res : Res) (ts : Stamp) (s : State) :
    (∃ cause, res = .err cause ∧ buildPhase r res ts s = takeAccessError cause r ts s) ∨
      (∃ cause, res = .ok ∧ regRead r.addr r.tc s = (.error cause, s) ∧
        buildPhase r res ts s = takeAccessError cause r ts s) ∨
      ∃ E t, res = .ok ∧ regRead r.addr r.tc s = (.ok E, t) ∧
        buildPhase r res ts s =
          (match replyFrame r E ts with
            | some R => .next (t.setDisp (.send R))
            | none => .refused .encodeOverflow) := by
  cases res with
  | err cause => exact .inl ⟨cause, rfl, rfl⟩
  | ok =>
    rcases h : regRead r.addr r.tc s with ⟨_ | _, t⟩
    · obtain rfl := (regRead_error h).1
      exact .inr (.inl ⟨_, rfl, rfl, by simp [buildPhase, h]⟩)
    · exact .inr (.inr ⟨_, t, rfl, rfl, by unfold buildPhase; simp only [h]; try rfl⟩)

/-- SEND of a frame that fits appends it and moves on to SYNC (44_dispatch.md R169). -/
theorem sendPhase_eq {mt : Byte} {o : OutOps} {s : State} {R : Frame} (hs : s.disp = .send R)
    (h : o.payload.length ≤ 245) : sendPhase mt o s = .next ((appendTx (o.frame mt) s).setDisp .sync) := by
  simp only [sendPhase, hs, builtFrame_eq, h, if_true]
  rfl

/-- A notification that fits is appended (45_events.md R181, R184). -/
theorem notify_eq {o : OutOps} (s : State) (h : o.payload.length ≤ 245) :
    notify o s = .next (appendTx (o.frame 0x03) s) := by
  simp only [notify, builtFrame_eq, h, if_true]
  rfl

end Sys2Proof.Machine
end

