-- ==== Sys2Proof/Laws/Dispatch.lean ====
section
/-! SUPPORT. What `exec` does by the kind of instruction: a request's next phase, SEND, or a notification. -/
namespace Sys2Proof.Machine

/-- The instruction of an inbound row takes the next phase of the request that it is. -/
theorem exec_of_request {i : Instr} {r : Request} (h : i.request? = some r) (s : State) : exec i s = requestStep r s := by
  cases i <;> simp only [Instr.request?, Option.some.injEq, reduceCtorEq] at h <;> subst h <;> rfl

/-- The request of the instruction that a request is by its messageType. -/
@[simp] theorem request?_byMessageType (r : Request) : r.byMessageType.request? = some r := by
  cases r with
  | mk k a p tc ts PB => cases k <;> rfl

/-- The instruction that a decoded reply frame is runs SEND on the frame's fields. -/
theorem exec_of_replyInstr {mt : Byte} {o : OutOps} {i : Instr} (h : replyInstr mt o = .ok i) (s : State) :
    exec i s = sendPhase mt o s := by
  unfold replyInstr at h
  split at h
  · cases h; subst_vars; rfl
  split at h
  · cases h; subst_vars; rfl
  split at h
  · cases h; subst_vars; rfl
  split at h
  · cases h; subst_vars; rfl
  split at h
  · cases h; subst_vars; rfl
  split at h
  · cases h; subst_vars; rfl
  · cases h

/-- The instruction that a decoded notification is appends the frame. -/
theorem exec_of_notificationInstr {mt : Byte} {o : OutOps} {i : Instr} (h : notificationInstr mt o = .ok i) (s : State) :
    exec i s = notify o s := by
  unfold notificationInstr at h
  split at h
  · cases h; rfl
  · cases h

end Sys2Proof.Machine
end

