-- ==== Sys2Proof/Laws/Queues.lean ====
section
/-! SUPPORT. Laws of the queues and of the control hook (45_events.md R187, R188; 43_registers.md R146). -/
namespace Sys2Proof.Machine

/-- Append never lets a queue outgrow its capacity (45_events.md R186, R187). -/
theorem queueAppend_length_le {cap : Nat} {q : List Frame} (F : Frame) (hcap : 1 ≤ cap) (h : q.length ≤ cap) :
    (queueAppend cap q F).length ≤ cap := by
  unfold queueAppend
  split <;> simp <;> omega

/-- What a queue holds after Append: the new frame, and nothing that was not in it. -/
theorem mem_queueAppend {cap : Nat} {q : List Frame} {F G : Frame} (h : G ∈ queueAppend cap q F) : G = F ∨ G ∈ q := by
  unfold queueAppend at h
  simp only [List.mem_append, List.mem_singleton] at h
  rcases h with h | h
  · split at h
    · exact .inr (List.mem_of_mem_drop h)
    · exact .inr h
  · exact .inl h

theorem queuePop_eq {q q' : List Frame} {F : Frame} (h : queuePop q = some (F, q')) : q = F :: q' := by
  unfold queuePop at h
  split at h <;> cases h
  rfl

@[simp] theorem hookEvents_length (v : Byte) (ds : List EventDesc) (es : List EventState) :
    (hookEvents v ds es).length = es.length := by
  induction ds generalizing es with
  | nil => rfl
  | cons d ds ih => cases es with
    | nil => rfl
    | cons e es => simp [hookEvents, ih]

/-- The hook sets the enable and the arm level of each event and nothing else of it (45_events.md R177). -/
theorem hookEvents_getElem? (v : Byte) (ds : List EventDesc) (es : List EventState) (k : Nat) :
    (hookEvents v ds es)[k]? =
      match ds[k]?, es[k]? with
      | some d, some e => some (setEnabled (syncEn d.cls v) e)
      | _, x => x := by
  induction ds generalizing es k with
  | nil => cases h : es[k]? <;> simp [hookEvents, h]
  | cons d ds ih =>
    cases es with
    | nil => simp [hookEvents]
    | cons e es =>
      cases k with
      | zero => simp [hookEvents]
      | succ k => simp [hookEvents, ih]

end Sys2Proof.Machine
end

