-- ==== Sys2Proof/Laws/Agents.lean ====
section
/-! SUPPORT. What each agent's step can do (41_rxtx.md, 44_dispatch.md, 45_events.md): one lemma an operation, to cite
instead of unfolding it. -/
namespace Sys2Proof.Machine

variable {s : State}

/-- Choosing who steps uses up a listed choice or a free value, and changes nothing else. -/
theorem chooseMove_frame (s : State) : ∃ ms n, (chooseMove s).2 = (s.setMoves ms).setFreeCount n := by
  unfold chooseMove
  split
  · rename_i ms _; exact ⟨ms, s.freeCount, rfl⟩
  · exact ⟨s.moves, s.freeCount + 1, rfl⟩

/-- A listed choice is the one taken. -/
theorem step_of_moves {m : Move} {ms : List Move} (h : s.moves = m :: ms) : step s = agentStep m (s.setMoves ms) := by
  simp only [step, chooseMove, h]

/-- Stage 2 of RX changes RX's own state, and may append the frame (41_rxtx.md R112, R113). -/
theorem rxComplete_cases (s : State) :
    rxComplete s = s.setRx ⟨.hdr, [], 2⟩ ∨
      Codec.validateChecksum s.rx.buf = true ∧ Codec.validateStructure s.rx.buf = true ∧
        rxComplete s = (appendRx s.rx.buf s).setRx ⟨.hdr, [], 2⟩ := by
  unfold rxComplete
  split
  · exact .inl rfl
  · split
    · exact .inl rfl
    · exact .inr ⟨by simpa using ‹¬(!Codec.validateChecksum s.rx.buf) = true›,
        by simpa using ‹¬(!Codec.validateStructure s.rx.buf) = true›, rfl⟩

/-- A step of RX changes the inbound bytes, RX's own state and the receive queue, and nothing else. -/
theorem rxStep_frame (s : State) : ∃ bs r q, rxStep s = .next (((s.setRxIn bs).setRx r).setRxq q) := by
  have done : ∀ (bs : List Byte) (r : Rx), ∃ bs' r' q', rxComplete ((s.setRxIn bs).setRx r)
      = ((s.setRxIn bs').setRx r').setRxq q' := by
    intro bs r
    rcases rxComplete_cases ((s.setRxIn bs).setRx r) with h | ⟨_, _, h⟩
    · exact ⟨bs, ⟨.hdr, [], 2⟩, s.rxq, h⟩
    · exact ⟨bs, ⟨.hdr, [], 2⟩, queueAppend s.cfg.rxqCap s.rxq r.buf, h⟩
  have lift : ∀ (bs : List Byte) (r : Rx), ∃ bs' r' q', (.next (rxComplete ((s.setRxIn bs).setRx r)) :
      Host.Outcome State Fault Refusal) = .next (((s.setRxIn bs').setRx r').setRxq q') := by
    intro bs r
    obtain ⟨bs', r', q', h⟩ := done bs r
    exact ⟨bs', r', q', by rw [h]⟩
  have keep : ∀ (bs : List Byte) (r : Rx), ∃ bs' r' q', (.next ((s.setRxIn bs).setRx r) :
      Host.Outcome State Fault Refusal) = .next (((s.setRxIn bs').setRx r').setRxq q') :=
    fun bs r => ⟨bs, r, s.rxq, rfl⟩
  unfold rxStep
  split
  · exact ⟨s.rxIn, s.rx, s.rxq, rfl⟩
  · rename_i b rest _
    split
    · unfold rxHeader
      dsimp only
      split
      · rename_i b0 b1 _
        split
        · split
          · exact lift rest _
          · exact keep rest _
        · exact ⟨rest, ⟨.hdr, [], 2⟩, s.rxq, rfl⟩
      · exact keep rest _
    · split
      · exact ⟨s.rxIn, s.rx, s.rxq, rfl⟩
      · unfold rxBody
        dsimp only
        split
        · exact lift rest _
        · exact keep rest _

/-- A step of TX sends the oldest frame whole, or is none (41_rxtx.md R117, R118). -/
theorem txStep_cases (s : State) :
    s.txq = [] ∧ txStep s = .next s ∨
      ∃ F q, s.txq = F :: q ∧ txStep s = .next ((s.setTxq q).setTxOut (s.txOut ++ F)) := by
  cases h : s.txq with
  | nil => exact .inl ⟨rfl, by simp [txStep, h, queuePop]⟩
  | cons F q => exact .inr ⟨F, q, rfl, by simp [txStep, h, queuePop]⟩

/-- A poll tick marks an enabled poll-driven event pending, or does nothing (45_events.md R183). -/
theorem tickStep_cases (e : Nat) (s : State) :
    tickStep e s = s ∨
      ∃ d ev, s.cfg.events[e]? = some d ∧ s.evs[e]? = some ev ∧ d.kind = .poll ∧ ev.en = true ∧
        tickStep e s = setEvent e { ev with pending := true } s := by
  unfold tickStep
  split
  · rename_i d ev hd hev
    split
    · rename_i h; exact .inr ⟨d, ev, hd, hev, h.1, h.2, rfl⟩
    · exact .inl rfl
  · exact .inl rfl

/-- The two samples of an event change the clock and what the draws used up (45_events.md R180). -/
theorem sampled_eventOps (d : EventDesc) (s : State) : Sampled s (eventOps d s).2 := by
  have h : Sampled s (eventElems d s).2 := by
    unfold eventElems
    split
    · exact sampled_regRead _ _ s
    · exact Sampled.refl s
  unfold eventOps
  rcases he : eventElems d s with ⟨_ | E, t⟩ <;> rw [he] at h
  · exact h
  · exact h.trans (sampled_clockSample t)

/-- A trigger that goes on does nothing, or takes the samples and stages the event's frame (45_events.md R180, R182). -/
theorem fireStep_cases {e : Nat} {t : State} (h : fireStep e s = .next t) :
    t = s ∨
      ∃ d ev o u, s.cfg.events[e]? = some d ∧ s.evs[e]? = some ev ∧ d.kind ≠ .poll ∧ ev.busy = false ∧ ev.en = true ∧
        eventOps d s = (.ok o, u) ∧
          t = setEvent e { ev with stage := some (o.frame 0x03), busy := true } u := by
  unfold fireStep at h
  split at h
  · rename_i d ev hd hev
    split at h
    · cases h; exact .inl rfl
    · rename_i hc
      push Not at hc
      split at h
      · cases h
      · rename_i o u ho
        simp only [builtFrame_eq] at h
        by_cases hl : o.payload.length ≤ 245
        · simp only [if_pos hl] at h
          cases h
          exact .inr ⟨d, ev, o, u, hd, hev, hc.1, by simpa using hc.2.1, by simpa using hc.2.2, ho, rfl⟩
        · simp only [if_neg hl] at h
          cases h
  · cases h; exact .inl rfl

end Sys2Proof.Machine
end

