-- ==== Sys2Proof/Laws/Decode.lean ====
section
/-! SUPPORT. Laws of the decoder: what it answers on a whole frame, and that what it answers is well formed. -/
namespace Sys2Proof

open Codec (wholeFrame offsetOf)

@[simp] theorem Kind.ofByte?_byte (k : Kind) : Kind.ofByte? k.byte = some k := by cases k <;> rfl

theorem Kind.byte_of_ofByte? {mt : Byte} {k : Kind} (h : Kind.ofByte? mt = some k) : k.byte = mt := by
  unfold Kind.ofByte? at h
  split at h
  · cases h; subst_vars; rfl
  · split at h
    · cases h; subst_vars; rfl
    · split at h
      · cases h; subst_vars; rfl
      · cases h

theorem Kind.ofByte?_isSome (mt : Byte) : (Kind.ofByte? mt).isSome = Codec.validateMessageType mt := by
  revert mt; decide

/-- The fields of a request are well formed: HAS_TS is clear in the type code, and the frame fits. -/
def Request.ok (r : Request) : Bool := typeCodeOk r.tc && requestFits r.ts r.payload

theorem requestFits_iff (ts : Option Stamp) (PB : List Byte) :
    requestFits ts PB = true ↔ offsetOf ts + PB.length ≤ 256 := by
  cases ts <;> simp [requestFits] <;> omega

/-- A frame of two bytes or more, of the length its length byte declares, has the header its first bytes say. -/
theorem wholeFrame_cons (mt a port pt : Byte) (ts : Option Stamp) (PB : List Byte) :
    ∃ rest, wholeFrame mt a port pt ts PB = mt :: BitVec.ofNat 8 (offsetOf ts + PB.length - 1) :: rest := by
  simp only [wholeFrame, Codec.payloadOffset_ptByte, Codec.body, List.cons_append]
  exact ⟨_, rfl⟩

/-- The decoder reads an outbound frame back to its fields (30_encoding.md R87). -/
theorem decodeOut_frame (mt : Byte) (o : OutOps) (htc : typeCodeOk o.tc = true) (h : o.payload.length ≤ 245) :
    decodeOut (o.frame mt) = .ok (mt, o) := by
  have hf : offsetOf (some o.stamp) + o.payload.length ≤ 256 := by simp; omega
  have h1 := Codec.wholeFrame_fields mt o.addr 0xFF o.tc (some o.stamp) o.payload hf
  have h2 := Codec.wholeFrame_length mt o.addr 0xFF o.tc (some o.stamp) o.payload
  have h3 := Codec.wholeFrame_len (some o.stamp) o.payload hf
  have h4 := Codec.validateChecksum_wholeFrame mt o.addr 0xFF o.tc (some o.stamp) o.payload
  have h5 := Codec.validateStructure_wholeFrame mt o.addr 0xFF o.tc (some o.stamp) o.payload hf
  have h6 := Codec.decodeTimestamp_wholeFrame mt o.addr 0xFF o.tc o.stamp o.payload
  have h7 := Codec.tcode_ptByte o.tc (some o.stamp) htc
  have h8 := Codec.offsetOf_pos (some o.stamp)
  unfold decodeOut OutOps.frame
  simp only [h1, h2, h3, h4, h5, h6, h7, Codec.hasTs_ptByte]
  rw [if_neg (by omega), if_neg (by omega)]
  rfl

end Sys2Proof
end

