-- ==== Sys2Proof/Laws/Invariant.lean ====
section
/-! SUPPORT. The checks of a configuration as propositions, and how the invariant passes through each field's update. -/
namespace Sys2Proof.Machine

/-- The checks of 00_scope.md R8, one by one. -/
theorem cfg_wf_iff (c : Cfg) :
    c.wf = true ↔
      1 ≤ c.rxqCap ∧ 1 ≤ c.txqCap ∧ (c.cells.map Cell.addr).Nodup ∧
        (∀ d ∈ c.cells, Codec.supported d.tcode = true) ∧ (∀ d ∈ c.cells, fitsReply d.tcode d.count = true) ∧
        c.nameReset.length = c.nameLen ∧ (∀ r ∈ c.appRegs, fitsTuple r.tcode r.count r.reset = true) ∧
        (∀ e ∈ c.events, c.eventOk e = true) ∧ c.tickPeriod = 2 ^ 30 := by
  simp only [Cfg.wf, Bool.and_eq_true, decide_eq_true_eq, List.all_eq_true, and_assoc]

/-- The decoder answers a cell of the map, at the address asked (20_memory.md R49). -/
theorem cellAt_mem {c : Cfg} {a : Byte} {d : Cell} (h : c.cellAt a = some d) : d ∈ c.cells ∧ d.addr = a := by
  unfold Cfg.cellAt at h
  exact ⟨List.mem_of_find?_eq_some h, by simpa using List.find?_some h⟩

/-- A tuple fits iff it has the cell's count of elements, each of the cell's width (10_state.md R21, R23). -/
theorem fitsTuple_iff (tc : Byte) (n : Nat) (E : List Pattern) :
    fitsTuple tc n E = true ↔ E.length = n ∧ ∀ p ∈ E, p.toNat < 2 ^ (8 * Codec.size tc) := by
  simp [fitsTuple, fitsWidth]

/-- The type code and count of each cell without a plain tuple, and the place of the OPCTRL cell (10_state.md R24). -/
theorem special_cells {c : Cfg} {d : Cell} (hd : d ∈ c.cells) :
    (d.variant = .tsSec → d.tcode = 4 ∧ d.count = 1) ∧ (d.variant = .tsMicro → d.tcode = 2 ∧ d.count = 1) ∧
      (d.variant = .opctrl → d.tcode = 1 ∧ d.count = 1 ∧ d.addr = 10) ∧
        ∀ p, d.variant = .pin p → d.tcode = 1 ∧ d.count = 1 := by
  simp only [Cfg.cells, Cfg.reservedCells, List.mem_append, List.mem_map] at hd
  rcases hd with hd | ⟨r, _, rfl⟩ | ⟨r, _, rfl⟩
  · fin_cases hd <;> simp
  · unfold AppReg.cell; split <;> simp
  · simp [PinReg.cell]

variable {s : State}

theorem Inv.sampled {t : State} (h : Inv s) (hs : Sampled s t) (hc : 0 ≤ clockTotal t) : Inv t := by
  obtain ⟨c, ti, pi, n, rfl⟩ := hs
  exact { h with clock_nonneg := hc }

theorem Inv.setDisp (h : Inv s) {p : DispPhase} (hp : DispOk s.cfg p) : Inv (s.setDisp p) := { h with disp_ok := hp }

theorem Inv.setFaultReplyLen (h : Inv s) (b : Bool) : Inv (s.setFaultReplyLen b) := { h with }

theorem Inv.setRxIn (h : Inv s) (bs : List Byte) : Inv (s.setRxIn bs) := { h with }

theorem Inv.setTxOut (h : Inv s) (bs : List Byte) : Inv (s.setTxOut bs) := { h with }

theorem Inv.setTickIn (h : Inv s) (ts : List Tick) : Inv (s.setTickIn ts) := { h with }

theorem Inv.setPinIn (h : Inv s) (vs : List Bool) : Inv (s.setPinIn vs) := { h with }

theorem Inv.setMoves (h : Inv s) (ms : List Move) : Inv (s.setMoves ms) := { h with }

theorem Inv.setFreeCount (h : Inv s) (n : Nat) : Inv (s.setFreeCount n) := { h with }

theorem Inv.setRx (h : Inv s) {r : Rx} (hr : RxOk r) : Inv (s.setRx r) := { h with rx_ok := hr }

theorem Inv.setPinOut (h : Inv s) {m : Keyed Bool} (hm : keyedWf m) : Inv (s.setPinOut m) := { h with pinOut_wf := hm }

end Sys2Proof.Machine
end

