-- ==== Sys2Proof/Laws/PerInstr.lean ====
section
/-! SUPPORT. One family of statements about every instruction: a well-formed instruction's request, or its outbound
operands, fit a frame. -/
namespace Sys2Proof.Laws

/-- A well-formed instruction's fields fit a frame: HAS_TS is clear in the type code, and the payload fits the length
byte (30_encoding.md R68, R74, R85). -/
def Fits.Statement (i : Instr) : Prop :=
  i.ok = true → (∀ r, i.request? = some r → r.ok = true) ∧ ∀ mt o, i.outbound? = some (mt, o) → o.errorOk = true

/-- The operands of a reply fit a frame. -/
theorem errorOk_of_replyOk (o : OutOps) (h : o.replyOk = true) : o.errorOk = true := by
  simp only [OutOps.replyOk, Bool.and_eq_true] at h
  simp only [OutOps.errorOk, Bool.and_eq_true]
  exact ⟨Codec.typeCodeOk_of_supported _ h.1.1, h.2⟩

/-- An instruction that is request `r` fits when `r` does. -/
theorem fits_of_request {i : Instr} {r : Request} (hi : i.request? = some r) (ho : i.outbound? = none)
    (h : i.ok = true → r.ok = true) : Fits.Statement i :=
  fun hok => ⟨fun _ hr => by rw [hi] at hr; cases hr; exact h hok, fun _ _ hr => by rw [ho] at hr; cases hr⟩

/-- An instruction with outbound operands `o` fits when `o` does. -/
theorem fits_of_outbound {i : Instr} {mt : Byte} {o : OutOps} (hi : i.request? = none) (ho : i.outbound? = some (mt, o))
    (h : i.ok = true → o.errorOk = true) : Fits.Statement i :=
  fun hok => ⟨fun _ hr => by (rw [hi] at hr; cases hr), fun _ _ hr => by (rw [ho] at hr; cases hr; exact h hok)⟩

/-- A payloadType row's request fits: its type code is one of the row, and HAS_TS is clear in it. -/
theorem typeOps_ok {tc : Byte} {o : TypeOps} (htc : typeCodeOk tc = true) (h : o.ok = true) :
    (o.request tc).ok = true := by
  simp only [Request.ok, TypeOps.request, htc, Bool.true_and]; exact h


theorem Fits.read (o : MsgOps) : Fits.Statement (.read o) := fits_of_request rfl rfl id

theorem Fits.write (o : MsgOps) : Fits.Statement (.write o) := fits_of_request rfl rfl id

theorem Fits.eventIn (o : MsgOps) : Fits.Statement (.eventIn o) := fits_of_request rfl rfl id

theorem Fits.replyRead (o : OutOps) : Fits.Statement (.replyRead o) := fits_of_outbound rfl rfl (errorOk_of_replyOk o)

theorem Fits.replyWrite (o : OutOps) : Fits.Statement (.replyWrite o) := fits_of_outbound rfl rfl (errorOk_of_replyOk o)

theorem Fits.replyEvent (o : OutOps) : Fits.Statement (.replyEvent o) := fits_of_outbound rfl rfl (errorOk_of_replyOk o)

theorem Fits.eventNotify (o : OutOps) : Fits.Statement (.eventNotify o) := fits_of_outbound rfl rfl (errorOk_of_replyOk o)

theorem Fits.errorRead (o : OutOps) : Fits.Statement (.errorRead o) := fits_of_outbound rfl rfl id

theorem Fits.errorWrite (o : OutOps) : Fits.Statement (.errorWrite o) := fits_of_outbound rfl rfl id

theorem Fits.errorEvent (o : OutOps) : Fits.Statement (.errorEvent o) := fits_of_outbound rfl rfl id

theorem Fits.invalidMsgtype (mt len : Byte) : Fits.Statement (.invalidMsgtype mt len) :=
  fun _ => ⟨fun _ hr => by (cases hr), fun _ _ hr => by (cases hr)⟩

theorem Fits.ptU8 (o : TypeOps) : Fits.Statement (.ptU8 o) := fits_of_request rfl rfl (typeOps_ok rfl)

theorem Fits.ptS8 (o : TypeOps) : Fits.Statement (.ptS8 o) := fits_of_request rfl rfl (typeOps_ok rfl)

theorem Fits.ptU16 (o : TypeOps) : Fits.Statement (.ptU16 o) := fits_of_request rfl rfl (typeOps_ok rfl)

theorem Fits.ptS16 (o : TypeOps) : Fits.Statement (.ptS16 o) := fits_of_request rfl rfl (typeOps_ok rfl)

theorem Fits.ptU32 (o : TypeOps) : Fits.Statement (.ptU32 o) := fits_of_request rfl rfl (typeOps_ok rfl)

theorem Fits.ptS32 (o : TypeOps) : Fits.Statement (.ptS32 o) := fits_of_request rfl rfl (typeOps_ok rfl)

theorem Fits.ptU64 (o : TypeOps) : Fits.Statement (.ptU64 o) := fits_of_request rfl rfl (typeOps_ok rfl)

theorem Fits.ptS64 (o : TypeOps) : Fits.Statement (.ptS64 o) := fits_of_request rfl rfl (typeOps_ok rfl)

theorem Fits.ptFloat (o : TypeOps) : Fits.Statement (.ptFloat o) := fits_of_request rfl rfl (typeOps_ok rfl)

theorem Fits.ptUnsupported (tc : Byte) (o : TypeOps) : Fits.Statement (.ptUnsupported tc o) :=
  fits_of_request rfl rfl fun h => by
    simp only [Instr.ok, Bool.and_eq_true] at h
    exact typeOps_ok h.1.1 h.2

theorem Fits.regWhoAmI (o : AddrOps) : Fits.Statement (.regWhoAmI o) := fits_of_request rfl rfl id

theorem Fits.regHwVersionH (o : AddrOps) : Fits.Statement (.regHwVersionH o) := fits_of_request rfl rfl id

theorem Fits.regHwVersionL (o : AddrOps) : Fits.Statement (.regHwVersionL o) := fits_of_request rfl rfl id

theorem Fits.regAssemblyVersion (o : AddrOps) : Fits.Statement (.regAssemblyVersion o) := fits_of_request rfl rfl id

theorem Fits.regHarpVersionH (o : AddrOps) : Fits.Statement (.regHarpVersionH o) := fits_of_request rfl rfl id

theorem Fits.regHarpVersionL (o : AddrOps) : Fits.Statement (.regHarpVersionL o) := fits_of_request rfl rfl id

theorem Fits.regFwVersionH (o : AddrOps) : Fits.Statement (.regFwVersionH o) := fits_of_request rfl rfl id

theorem Fits.regFwVersionL (o : AddrOps) : Fits.Statement (.regFwVersionL o) := fits_of_request rfl rfl id

theorem Fits.regTimestampSecond (o : AddrOps) : Fits.Statement (.regTimestampSecond o) := fits_of_request rfl rfl id

theorem Fits.regTimestampMicro (o : AddrOps) : Fits.Statement (.regTimestampMicro o) := fits_of_request rfl rfl id

theorem Fits.regOperationCtrl (o : AddrOps) : Fits.Statement (.regOperationCtrl o) := fits_of_request rfl rfl id

theorem Fits.regResetDev (o : AddrOps) : Fits.Statement (.regResetDev o) := fits_of_request rfl rfl id

theorem Fits.regDeviceName (o : AddrOps) : Fits.Statement (.regDeviceName o) := fits_of_request rfl rfl id

theorem Fits.regSerialNumber (o : AddrOps) : Fits.Statement (.regSerialNumber o) := fits_of_request rfl rfl id

theorem Fits.regUnmapped (a : Byte) (o : AddrOps) : Fits.Statement (.regUnmapped a o) :=
  fits_of_request rfl rfl fun h => (Bool.and_eq_true _ _ ▸ h).2

theorem Fits.regApp (a : Byte) (o : AddrOps) : Fits.Statement (.regApp a o) :=
  fits_of_request rfl rfl fun h => (Bool.and_eq_true _ _ ▸ h).2

theorem Fits.regPin (a : Byte) (o : AddrOps) : Fits.Statement (.regPin a o) :=
  fits_of_request rfl rfl fun h => (Bool.and_eq_true _ _ ▸ h).2

/-- Every well-formed instruction fits. -/
theorem fits (i : Instr) : Fits.Statement i :=
  match i with
  | .read o => Fits.read o
  | .write o => Fits.write o
  | .eventIn o => Fits.eventIn o
  | .replyRead o => Fits.replyRead o
  | .replyWrite o => Fits.replyWrite o
  | .replyEvent o => Fits.replyEvent o
  | .eventNotify o => Fits.eventNotify o
  | .errorRead o => Fits.errorRead o
  | .errorWrite o => Fits.errorWrite o
  | .errorEvent o => Fits.errorEvent o
  | .invalidMsgtype a o => Fits.invalidMsgtype a o
  | .ptU8 o => Fits.ptU8 o
  | .ptS8 o => Fits.ptS8 o
  | .ptU16 o => Fits.ptU16 o
  | .ptS16 o => Fits.ptS16 o
  | .ptU32 o => Fits.ptU32 o
  | .ptS32 o => Fits.ptS32 o
  | .ptU64 o => Fits.ptU64 o
  | .ptS64 o => Fits.ptS64 o
  | .ptFloat o => Fits.ptFloat o
  | .ptUnsupported a o => Fits.ptUnsupported a o
  | .regWhoAmI o => Fits.regWhoAmI o
  | .regHwVersionH o => Fits.regHwVersionH o
  | .regHwVersionL o => Fits.regHwVersionL o
  | .regAssemblyVersion o => Fits.regAssemblyVersion o
  | .regHarpVersionH o => Fits.regHarpVersionH o
  | .regHarpVersionL o => Fits.regHarpVersionL o
  | .regFwVersionH o => Fits.regFwVersionH o
  | .regFwVersionL o => Fits.regFwVersionL o
  | .regTimestampSecond o => Fits.regTimestampSecond o
  | .regTimestampMicro o => Fits.regTimestampMicro o
  | .regOperationCtrl o => Fits.regOperationCtrl o
  | .regResetDev o => Fits.regResetDev o
  | .regDeviceName o => Fits.regDeviceName o
  | .regSerialNumber o => Fits.regSerialNumber o
  | .regUnmapped a o => Fits.regUnmapped a o
  | .regApp a o => Fits.regApp a o
  | .regPin a o => Fits.regPin a o

end Sys2Proof.Laws
end

