-- ==== Sys2Proof/Tests/Slice0.lean ====
section
/-! SUPPORT. Tests: ill-formed terms refused, frames written out by hand, single steps with the results that the spec's
vectors (95_test_vectors.md) or a hand calculation from its rules give, and for each obligation with hypotheses a
witness that meets them. -/
namespace Sys2Proof.Tests
open Sys2Proof.Machine

/-! ## Fixtures -/

/-- The timer event of E1, the edge event of E3, the poll event of E2. -/
def heartbeat : EventDesc := ⟨.timer, .heartbeat, 8, 0x04, 1, .reg 8, 0⟩
def edge : EventDesc := ⟨.edge, .other, 0x21, 0x82, 2, .fixed [0xFFFE, 0x0001], 0⟩
def poll : EventDesc := ⟨.poll, .other, 0x20, 0x01, 1, .fixed [0x01], 0⟩

/-- `Cfg_T` with `OPCTRL_RESET = 0x81` (Z3), the three events, the pin cell of G21, an RW cell of each type code at 0x40
to 0x48, and an RO cell at 0x50. -/
def cfg : Cfg :=
  { Cfg.test with
    opctrlReset := 0x81
    appRegs := [⟨0x40, true, 0x01, 1, [0]⟩, ⟨0x41, true, 0x81, 1, [0xFF]⟩, ⟨0x42, true, 0x02, 1, [0]⟩,
      ⟨0x43, true, 0x82, 2, [0, 0x8000]⟩, ⟨0x44, true, 0x04, 1, [0]⟩, ⟨0x45, true, 0x84, 1, [0xFFFFFFFF]⟩,
      ⟨0x46, true, 0x08, 1, [0x0102030405060708]⟩, ⟨0x47, true, 0x88, 1, [0]⟩, ⟨0x48, true, 0x44, 1, [0x7FC00001]⟩,
      ⟨0x50, false, 0x02, 1, [0xABCD]⟩]
    pinRegs := [⟨0x30, 2⟩]
    events := [heartbeat, edge, poll] }

/-- The state right after reset of that configuration, with tick samples and pin levels ready. -/
def start : State := ((State.resetWith cfg 0).setTickIn [0, 0, 0]).setPinIn [true, false]

/-- The same in a phase of DISP. -/
def inPhase (p : DispPhase) : State := start.setDisp p

/-- The outcome is a next state with the property `p`. -/
def nextIs (o : Host.Outcome State Fault Refusal) (p : State → Bool) : Bool :=
  match o with
  | .next t => p t
  | .fault _ => false
  | .refused _ => false

/-- The next state is exactly `t`. -/
def goesTo (o : Host.Outcome State Fault Refusal) (t : State) : Bool := nextIs o (· == t)

/-- Decoding answers exactly the instruction `i`. -/
def reads (fmt : Format) (F : Frame) (i : Instr) : Bool := decodeAs fmt cfg F == .ok i

/-! ## Well-formedness: each check refuses an ill-formed term -/

theorem test_type_code_with_HAS_TS_refused : (Instr.read ⟨0, 0xFF, 0x12, none, []⟩).ok = false := by decide
theorem test_register_type_code_with_HAS_TS_refused : (Instr.regWhoAmI ⟨.read, 0xFF, 0x12, none, []⟩).ok = false := by
  decide
theorem test_payload_of_252_refused : requestFits none (List.replicate 252 0) = false := by
  simp only [requestFits, List.length_replicate]; decide
theorem test_payload_of_251_accepted : requestFits none (List.replicate 251 0) = true := by
  simp only [requestFits, List.length_replicate]; decide
theorem test_stamped_payload_of_246_refused : requestFits (some ⟨0, 0⟩) (List.replicate 246 0) = false := by
  simp only [requestFits, List.length_replicate]; decide
theorem test_stamped_payload_of_245_accepted : requestFits (some ⟨0, 0⟩) (List.replicate 245 0) = true := by
  simp only [requestFits, List.length_replicate]; decide
theorem test_typed_payload_of_252_refused : (Instr.ptU8 ⟨.write, 10, 0xFF, none, List.replicate 252 0⟩).ok = false := by
  simp only [Instr.ok, TypeOps.ok, requestFits, List.length_replicate]; decide
theorem test_reserved_address_refused :
    (Instr.regUnmapped 13 ⟨.read, 0xFF, 0x01, none, []⟩).ok = false ∧
      (Instr.regApp 13 ⟨.read, 0xFF, 0x01, none, []⟩).ok = false ∧
      (Instr.regPin 13 ⟨.read, 0xFF, 0x01, none, []⟩).ok = false ∧
      (Instr.regUnmapped 14 ⟨.read, 0xFF, 0x01, none, []⟩).ok = true := by decide
theorem test_reply_of_unsupported_code_refused : (Instr.replyRead ⟨0, 0x03, ⟨0, 0⟩, []⟩).ok = false := by decide
theorem test_reply_with_residue_refused : (Instr.replyRead ⟨0, 0x02, ⟨0, 0⟩, [1, 2, 3]⟩).ok = false := by decide
theorem test_notification_with_residue_refused : (Instr.eventNotify ⟨8, 0x04, ⟨0, 0⟩, [1, 2]⟩).ok = false := by decide
theorem test_reply_payload_of_246_refused :
    (Instr.replyWrite ⟨0, 0x01, ⟨0, 0⟩, List.replicate 246 0⟩).ok = false := by
  simp only [Instr.ok, OutOps.replyOk, List.length_replicate]; decide
theorem test_error_type_code_with_HAS_TS_refused : (Instr.errorRead ⟨0, 0x13, ⟨0, 0⟩, []⟩).ok = false := by decide
theorem test_error_payload_of_246_refused :
    (Instr.errorWrite ⟨0, 0x01, ⟨0, 0⟩, List.replicate 246 0⟩).ok = false := by
  simp only [Instr.ok, OutOps.errorOk, List.length_replicate]; decide
theorem test_supported_code_is_not_unsupported :
    (Instr.ptUnsupported 0x01 ⟨.read, 0, 0xFF, none, []⟩).ok = false ∧
      (Instr.ptUnsupported 0x13 ⟨.read, 0, 0xFF, none, []⟩).ok = false ∧
      (Instr.ptUnsupported 0x03 ⟨.read, 0, 0xFF, none, []⟩).ok = true := by decide
theorem test_valid_messageType_is_not_invalid :
    (Instr.invalidMsgtype 0x03 5).ok = false ∧ (Instr.invalidMsgtype 0x0A 5).ok = true := by decide
theorem test_address_rows_follow_the_configuration :
    (Instr.regUnmapped 0x40 ⟨.read, 0xFF, 0x01, none, []⟩).okIn cfg = false ∧
      (Instr.regApp 0x30 ⟨.read, 0xFF, 0x01, none, []⟩).okIn cfg = false ∧
      (Instr.regPin 0x40 ⟨.read, 0xFF, 0x01, none, []⟩).okIn cfg = false := by decide

/-! ## Decoding: a frame written out for every row of the opcode table -/

/-- D1. -/
theorem test_decode_read : reads .request [0x01, 0x04, 0x00, 0xFF, 0x02, 0x06] (.read ⟨0, 0xFF, 0x02, none, []⟩) = true := by
  decide
/-- D6: the residue byte is kept. -/
theorem test_decode_write : reads .request [0x02, 0x07, 0x0D, 0xFF, 0x02, 0x39, 0x30, 0xAA, 0x2A]
    (.write ⟨13, 0xFF, 0x02, none, [0x39, 0x30, 0xAA]⟩) = true := by decide
/-- D8. -/
theorem test_decode_eventIn : reads .request [0x03, 0x04, 0x00, 0xFF, 0x02, 0x08]
    (.eventIn ⟨0, 0xFF, 0x02, none, []⟩) = true := by decide
/-- R11, C21: an inbound timestamp, seconds then ticks. -/
theorem test_decode_stamped : reads .request [0x01, 0x0A, 0x20, 0xFF, 0x11, 7, 0, 0, 0, 7, 0, 0x49]
    (.read ⟨0x20, 0xFF, 0x01, some ⟨7, 7⟩, []⟩) = true := by decide
/-- S1. -/
theorem test_decode_replyRead :
    reads .reply [0x01, 0x0C, 0x00, 0xFF, 0x12, 0xE8, 0x03, 0, 0, 0x64, 0, 0x34, 0x12, 0xB3]
      (.replyRead ⟨0, 0x02, ⟨1000, 100⟩, [0x34, 0x12]⟩) = true := by decide
/-- D4. -/
theorem test_decode_replyWrite : reads .reply [0x02, 0x0B, 0x0A, 0xFF, 0x11, 0, 0, 0, 0, 0, 0, 0x80, 0xA7]
    (.replyWrite ⟨10, 0x01, ⟨0, 0⟩, [0x80]⟩) = true := by decide
/-- D8. -/
theorem test_decode_replyEvent :
    reads .reply [0x03, 0x0C, 0x00, 0xFF, 0x12, 0xE8, 0x03, 0, 0, 0x64, 0, 0x34, 0x12, 0xB5]
      (.replyEvent ⟨0, 0x02, ⟨1000, 100⟩, [0x34, 0x12]⟩) = true := by decide
/-- E3. -/
theorem test_decode_eventNotify :
    reads .notification [0x03, 0x0E, 0x21, 0xFF, 0x92, 2, 0, 0, 0, 3, 0, 0xFE, 0xFF, 0x01, 0x00, 0xC6]
      (.eventNotify ⟨0x21, 0x82, ⟨2, 3⟩, [0xFE, 0xFF, 0x01, 0x00]⟩) = true := by decide
/-- X5: the type code stays unsupported. -/
theorem test_decode_errorRead : reads .reply [0x09, 0x0A, 0x00, 0xFF, 0x13, 0, 0, 0, 0, 0, 0, 0x25]
    (.errorRead ⟨0, 0x03, ⟨0, 0⟩, []⟩) = true := by decide
/-- X8. -/
theorem test_decode_errorWrite :
    reads .reply [0x0A, 0x0C, 0x09, 0xFF, 0x12, 0xE8, 0x03, 0, 0, 0x85, 0x1E, 0, 0, 0xBE]
      (.errorWrite ⟨9, 0x02, ⟨1000, 7813⟩, [0, 0]⟩) = true := by decide
/-- X3. -/
theorem test_decode_errorEvent : reads .reply [0x0B, 0x0A, 0x20, 0xFF, 0x11, 0, 0, 0, 0, 0, 0, 0x45]
    (.errorEvent ⟨0x20, 0x01, ⟨0, 0⟩, []⟩) = true := by decide
/-- R10: two bytes are taken, and the frame behind them is next. -/
theorem test_decode_invalidMsgtype : decode [0x0B, 0x0A, 0x01, 0x04, 0x00, 0xFF, 0x02, 0x06] =
    .ok (.invalidMsgtype 0x0B 0x0A, [0x01, 0x04, 0x00, 0xFF, 0x02, 0x06]) := by decide
/-- The first of two requests (P5), and the bytes of the second after it. -/
theorem test_decode_stream : decode [0x01, 0x04, 0x00, 0xFF, 0x02, 0x06, 0x01, 0x04] =
    .ok (.read ⟨0, 0xFF, 0x02, none, []⟩, [0x01, 0x04]) := by decide

theorem test_decode_ptU8 : reads .payloadType [0x02, 0x05, 0x0A, 0xFF, 0x01, 0x80, 0x91]
    (.ptU8 ⟨.write, 10, 0xFF, none, [0x80]⟩) = true := by decide
theorem test_decode_ptS8 : reads .payloadType [0x02, 0x05, 0x41, 0xFF, 0x81, 0xFE, 0xC6]
    (.ptS8 ⟨.write, 0x41, 0xFF, none, [0xFE]⟩) = true := by decide
/-- G9. -/
theorem test_decode_ptU16 : reads .payloadType [0x02, 0x06, 0x0D, 0xFF, 0x02, 0x39, 0x30, 0x7F]
    (.ptU16 ⟨.write, 13, 0xFF, none, [0x39, 0x30]⟩) = true := by decide
/-- X6. -/
theorem test_decode_ptS16 : reads .payloadType [0x01, 0x04, 0x09, 0xFF, 0x82, 0x8F]
    (.ptS16 ⟨.read, 9, 0xFF, none, []⟩) = true := by decide
/-- D10: payloadType 0x14 is U32 with a timestamp. -/
theorem test_decode_ptU32 :
    reads .payloadType [0x02, 0x0E, 0x08, 0xFF, 0x14, 0, 0, 0, 0, 0, 0, 0xE8, 0x03, 0, 0, 0x16]
      (.ptU32 ⟨.write, 8, 0xFF, some ⟨0, 0⟩, [0xE8, 0x03, 0, 0]⟩) = true := by decide
theorem test_decode_ptS32 : reads .payloadType [0x01, 0x04, 0x45, 0xFF, 0x84, 0xCD]
    (.ptS32 ⟨.read, 0x45, 0xFF, none, []⟩) = true := by decide
theorem test_decode_ptU64 : reads .payloadType [0x01, 0x04, 0x46, 0xFF, 0x08, 0x52]
    (.ptU64 ⟨.read, 0x46, 0xFF, none, []⟩) = true := by decide
theorem test_decode_ptS64 : reads .payloadType [0x01, 0x04, 0x47, 0xFF, 0x88, 0xD3]
    (.ptS64 ⟨.read, 0x47, 0xFF, none, []⟩) = true := by decide
/-- X13. -/
theorem test_decode_ptFloat : reads .payloadType [0x02, 0x08, 0x08, 0xFF, 0x44, 0x00, 0x00, 0x80, 0x3F, 0x14]
    (.ptFloat ⟨.write, 8, 0xFF, none, [0x00, 0x00, 0x80, 0x3F]⟩) = true := by decide
/-- X5. -/
theorem test_decode_ptUnsupported : reads .payloadType [0x01, 0x04, 0x00, 0xFF, 0x03, 0x07]
    (.ptUnsupported 0x03 ⟨.read, 0, 0xFF, none, []⟩) = true := by decide

/-- D1. -/
theorem test_decode_regWhoAmI : reads .address [0x01, 0x04, 0x00, 0xFF, 0x02, 0x06]
    (.regWhoAmI ⟨.read, 0xFF, 0x02, none, []⟩) = true := by decide
/-- D3. -/
theorem test_decode_regHwVersionH : reads .address [0x01, 0x04, 0x01, 0xFF, 0x01, 0x06]
    (.regHwVersionH ⟨.read, 0xFF, 0x01, none, []⟩) = true := by decide
theorem test_decode_version_registers :
    reads .address [0x01, 0x04, 0x02, 0xFF, 0x01, 0x07] (.regHwVersionL ⟨.read, 0xFF, 0x01, none, []⟩) = true ∧
      reads .address [0x01, 0x04, 0x03, 0xFF, 0x01, 0x08] (.regAssemblyVersion ⟨.read, 0xFF, 0x01, none, []⟩) = true ∧
      reads .address [0x01, 0x04, 0x04, 0xFF, 0x01, 0x09] (.regHarpVersionH ⟨.read, 0xFF, 0x01, none, []⟩) = true ∧
      reads .address [0x01, 0x04, 0x05, 0xFF, 0x01, 0x0A] (.regHarpVersionL ⟨.read, 0xFF, 0x01, none, []⟩) = true ∧
      reads .address [0x01, 0x04, 0x06, 0xFF, 0x01, 0x0B] (.regFwVersionH ⟨.read, 0xFF, 0x01, none, []⟩) = true ∧
      reads .address [0x01, 0x04, 0x07, 0xFF, 0x01, 0x0C] (.regFwVersionL ⟨.read, 0xFF, 0x01, none, []⟩) = true := by
  decide
/-- D9. -/
theorem test_decode_regTimestampSecond :
    reads .address [0x02, 0x08, 0x08, 0xFF, 0x04, 0xE8, 0x03, 0x00, 0x00, 0x00]
      (.regTimestampSecond ⟨.write, 0xFF, 0x04, none, [0xE8, 0x03, 0, 0]⟩) = true := by decide
/-- X8. -/
theorem test_decode_regTimestampMicro : reads .address [0x02, 0x06, 0x09, 0xFF, 0x02, 0x00, 0x00, 0x12]
    (.regTimestampMicro ⟨.write, 0xFF, 0x02, none, [0, 0]⟩) = true := by decide
/-- S8. -/
theorem test_decode_regOperationCtrl : reads .address [0x02, 0x05, 0x0A, 0xFF, 0x01, 0x80, 0x91]
    (.regOperationCtrl ⟨.write, 0xFF, 0x01, none, [0x80]⟩) = true := by decide
theorem test_decode_regResetDev : reads .address [0x02, 0x05, 0x0B, 0xFF, 0x01, 0x07, 0x19]
    (.regResetDev ⟨.write, 0xFF, 0x01, none, [0x07]⟩) = true := by decide
theorem test_decode_regDeviceName : reads .address [0x01, 0x04, 0x0C, 0xFF, 0x01, 0x11]
    (.regDeviceName ⟨.read, 0xFF, 0x01, none, []⟩) = true := by decide
/-- D7. -/
theorem test_decode_regSerialNumber : reads .address [0x01, 0x04, 0x0D, 0xFF, 0x02, 0x13]
    (.regSerialNumber ⟨.read, 0xFF, 0x02, none, []⟩) = true := by decide
/-- X1. -/
theorem test_decode_regUnmapped : reads .address [0x01, 0x04, 0x20, 0xFF, 0x01, 0x25]
    (.regUnmapped 0x20 ⟨.read, 0xFF, 0x01, none, []⟩) = true := by decide
theorem test_decode_regApp : reads .address [0x01, 0x04, 0x40, 0xFF, 0x01, 0x45]
    (.regApp 0x40 ⟨.read, 0xFF, 0x01, none, []⟩) = true := by decide
theorem test_decode_regPin : reads .address [0x02, 0x05, 0x30, 0xFF, 0x01, 0x05, 0x3C]
    (.regPin 0x30 ⟨.write, 0xFF, 0x01, none, [0x05]⟩) = true := by decide

/-! Frames that are no instruction, each by its name: R3, C24, C23, R8, R9, R4, and the length errors. -/

theorem test_refuse_bad_checksum : decodeAs .request cfg [0x02, 0x05, 0x0A, 0xFF, 0x01, 0x80, 0x92] = .error .badChecksum := by
  decide
theorem test_refuse_length_3 : decodeAs .request cfg [0x01, 0x03, 0x00, 0xFF, 0x03] = .error .shortFrame := by decide
theorem test_refuse_short_stamped : decodeAs .request cfg [0x01, 0x04, 0x00, 0xFF, 0x12, 0x16] = .error .shortFrame := by
  decide
theorem test_refuse_length_1 : decodeAs .request cfg [0x01, 0x01, 0x02] = .error .shortFrame := by decide
theorem test_refuse_length_0 : decodeAs .request cfg [0x01, 0x00] = .error .badChecksum := by decide
theorem test_refuse_error_bit_inbound :
    decodeAs .request cfg [0x09, 0x0A, 0x20, 0xFF, 0x11, 0, 0, 0, 0, 0, 0, 0x43] = .error .invalidMsgType := by decide
theorem test_refuse_incomplete : decodeAs .request cfg [0x01, 0x04, 0x00, 0xFF, 0x02] = .error .incomplete := by decide
theorem test_refuse_trailing : decodeAs .request cfg [0x01, 0x04, 0x00, 0xFF, 0x02, 0x06, 0x00] = .error .trailingBytes := by
  decide
theorem test_refuse_reply_without_stamp : decodeAs .reply cfg [0x01, 0x04, 0x00, 0xFF, 0x02, 0x06] = .error .neverBuilt := by
  decide

/-! ## Codec vectors (95_test_vectors.md section 2), those that no frame above shows -/

theorem test_C2_message_types :
    ([0x01, 0x02, 0x03].all Codec.validateMessageType) = true ∧
      ([0x00, 0x04, 0x09, 0x0A, 0x0B, 0xFF].any Codec.validateMessageType) = false := by decide
theorem test_C7_signed_values :
    Codec.decodeElems 0x82 [0xFE, 0xFF] = [0xFFFE] ∧ Codec.value? 0x82 0xFFFE = some (.integer (-2)) ∧
      Codec.value? 0x82 0x8000 = some (.integer (-32768)) ∧ Codec.value? 0x81 0xFF = some (.integer (-1)) ∧
      Codec.value? 0x01 0xFF = some (.integer 255) := by decide
/-- C11's least S64, and the largest U64 of 40_codec.md R99. -/
theorem test_C11_64_bit_values :
    Codec.value? 0x88 0x8000000000000000 = some (.integer (-9223372036854775808)) ∧
      Codec.value? 0x08 0xFFFFFFFFFFFFFFFF = some (.integer 18446744073709551615) := by decide
/-- C12 (1.0), C13 (a NaN), C14 (-0.0), an infinity and the least subnormal number. -/
theorem test_C12_to_C14_float_values :
    Codec.value? 0x44 0x3F800000 = some (.float (.finite false 8388608 (-23))) ∧
      Codec.value? 0x44 0x7FC00001 = some (.float (.nan false 0x400001)) ∧
      Codec.value? 0x44 0x80000000 = some (.float (.finite true 0 (-149))) ∧
      Codec.value? 0x44 0xFF800000 = some (.float (.infinity true)) ∧
      Codec.value? 0x44 0x00000001 = some (.float (.finite false 1 (-149))) := by decide
/-- Unsupported codes have no value: a size of 0, bit 5, the float marker outside 0x44. -/
theorem test_unsupported_codes_have_no_value :
    [0x00, 0x80, 0x40, 0x21, 0xC4, 0x48].map (fun tc => Codec.value? tc 1) = List.replicate 6 none := by decide
theorem test_C10_u64_bytes : Codec.encodeElement 0x08 0x0102030405060708 = [8, 7, 6, 5, 4, 3, 2, 1] := by decide
theorem test_C13_nan_kept : Codec.decodeElems 0x44 [0x01, 0x00, 0xC0, 0x7F] = [0x7FC00001] := by decide
theorem test_C15_built_frame :
    (Codec.encode 3 14 0x21 0x82 (some ⟨2, 3⟩) [0xFE, 0xFF, 0x01, 0x00]).map Codec.finalizeChecksum =
      some [0x03, 0x0E, 0x21, 0xFF, 0x92, 2, 0, 0, 0, 3, 0, 0xFE, 0xFF, 0x01, 0x00, 0xC6] := by decide
theorem test_C17_payload_offsets : [0x02, 0x12, 0xEF, 0x10].map Codec.payloadOffset = [5, 11, 5, 11] := by decide
theorem test_C18_residue_not_decoded :
    Codec.decodePayload [0x02, 0x07, 0x0D, 0xFF, 0x02, 0x39, 0x30, 0xAA, 0x2A] = [0x3039] := by decide
theorem test_C19_short_payload : Codec.decodePayload [0x02, 0x05, 0x0D, 0xFF, 0x02, 0x39, 0x4E] = [] := by decide

set_option maxRecDepth 8000

/-! ## Receiving and transmitting: one step (95_test_vectors.md section 3) -/

/-- `start` with RX in the given state and the given bytes waiting. -/
def receiving (r : Rx) (bytes : List Byte) : State := (start.setRx r).setRxIn bytes

theorem test_R1_first_header_byte :
    goesTo (agentStep .rx (receiving ⟨.hdr, [], 2⟩ [0x01])) (receiving ⟨.hdr, [0x01], 1⟩ []) = true := by decide
theorem test_R2_last_byte_appends :
    goesTo (agentStep .rx (receiving ⟨.body, [0x02, 0x05, 0x0A, 0xFF, 0x01, 0x80], 1⟩ [0x91]))
      ((receiving ⟨.hdr, [], 2⟩ []).setRxq [[0x02, 0x05, 0x0A, 0xFF, 0x01, 0x80, 0x91]]) = true := by decide
theorem test_R3_bad_checksum_discards :
    goesTo (agentStep .rx (receiving ⟨.body, [0x02, 0x05, 0x0A, 0xFF, 0x01, 0x80], 1⟩ [0x92]))
      (receiving ⟨.hdr, [], 2⟩ []) = true := by decide
theorem test_R4_error_bit_header_discards :
    goesTo (agentStep .rx (receiving ⟨.hdr, [0x0A], 1⟩ [0x05, 0x01])) (receiving ⟨.hdr, [], 2⟩ [0x01]) = true := by
  decide
theorem test_R6_short_frame_discards :
    goesTo (agentStep .rx (receiving ⟨.body, [0x01, 0x04, 0x00, 0xFF, 0x12], 1⟩ [0x16]))
      (receiving ⟨.hdr, [], 2⟩ []) = true := by decide
theorem test_R9_length_0_discards_at_once :
    goesTo (agentStep .rx (receiving ⟨.hdr, [0x01], 1⟩ [0x00])) (receiving ⟨.hdr, [], 2⟩ []) = true := by decide
theorem test_R12_full_queue_evicts :
    queueAppend 1 [[0x01, 0x04, 0x00, 0xFF, 0x02, 0x06]] [0x01, 0x04, 0x0A, 0xFF, 0x01, 0x0F] =
      [[0x01, 0x04, 0x0A, 0xFF, 0x01, 0x0F]] := by decide
theorem test_R13_body_byte_is_no_header :
    goesTo (agentStep .rx (receiving ⟨.body, [0x01, 0x05, 0x0A, 0xFF], 3⟩ [0x01]))
      (receiving ⟨.body, [0x01, 0x05, 0x0A, 0xFF, 0x01], 2⟩ []) = true := by decide
theorem test_T1_transmit :
    goesTo (agentStep .tx ((start.setTxq [[0x01, 0x02], [0x03]]).setTxOut [0x00]))
      ((start.setTxq [[0x03]]).setTxOut [0x00, 0x01, 0x02]) = true := by decide
theorem test_T2_no_transmit_inside_an_iteration :
    goesTo (agentStep .tx ((inPhase .sync).setTxq [[0x01]])) ((inPhase .sync).setTxq [[0x01]]) = true := by decide

/-! ## The clock (95_test_vectors.md section 4) -/

/-- `start` with the given clock and samples. -/
def timed (acc : Nat) (last : Tick) (off : Int) (samples : List Tick) : State :=
  (start.setClock ⟨acc, last, BitVec.ofInt 64 off⟩).setTickIn samples

theorem test_K1_K2_deltas :
    clockDelta 5 0x3FFFFFFB = 10 ∧ clockDelta 100 100 = 0 ∧ clockDelta 0 0x3FFFFFFF = 1 ∧
      clockDelta 0x3FFFFFFF 0 = 0x3FFFFFFF := by decide
theorem test_K3_sample_over_a_wrap :
    (clockSample (timed 1073741820 0x3FFFFFFC 0 [6])).clock = ⟨1073741830, 6, 0⟩ := by decide
theorem test_K4_to_K6_stamps :
    [0, 31, 32, 999999, 1000000, 2500031, 3999999].map stampOf =
      [⟨0, 0⟩, ⟨0, 0⟩, ⟨0, 1⟩, ⟨0, 31249⟩, ⟨1, 0⟩, ⟨2, 15625⟩, ⟨3, 31249⟩] := by decide
theorem test_K7_rebase :
    (clockWrite 1000 (timed 7250000 7250000 0 [7250000])).clock = ⟨7250000, 7250000, 993000000⟩ := by decide
theorem test_K8_negative_offset :
    (clockWrite 0 (timed 7250000 7250000 0 [7250000])).clock = ⟨7250000, 7250000, -7000000⟩ := by decide
/-- R27: the least s_64 is the last offset that is held exactly. -/
theorem test_least_offset :
    (clockWrite 0 (timed (2 ^ 63) 0 (-2 ^ 63) [0])).clock = ⟨2 ^ 63, 0, 0x8000000000000000⟩ ∧
      clockTotal (clockWrite 0 (timed (2 ^ 63) 0 (-2 ^ 63) [0])) = 0 ∧ fitsS64 (-2 ^ 63 - 1) = false := by decide
theorem test_K9_seconds_wrap :
    (clockRead (clockWrite 0xFFFFFFFF (timed 5999990 5999990 0 [5999990, 6000010]))).1 = ⟨0, 0⟩ := by decide
theorem test_K10_next_second :
    (clockRead (clockWrite 7 (timed 999999 999999 0 [999999, 1000000]))).1 = ⟨8, 0⟩ := by decide

/-! ## Requests: one phase (95_test_vectors.md sections 4 to 7). The whole next state is compared. -/

/-- The request frame of D1; the phases carry a frame, and a meaning reads its operands from the instruction. -/
def aFrame : Frame := [0x01, 0x04, 0x00, 0xFF, 0x02, 0x06]

/-- The instruction, in phase BUILD with stamp `ts`, hands exactly `R` to phase SEND and changes nothing else. -/
def builds (i : Instr) (ts : Stamp) (R : Frame) : Bool :=
  goesTo (exec i (inPhase (.build aFrame .ok ts))) (inPhase (.send R))

/-- The instruction, in phase EXEC, carries `res` to STAMP and changes nothing else. -/
def carries (i : Instr) (res : Res) : Bool := goesTo (exec i (inPhase (.exec aFrame))) (inPhase (.stamp aFrame res))

/-- The instruction, in phase EXEC, stores `E` at address `a` and changes nothing else. -/
def stores (i : Instr) (a : Nat) (E : List Pattern) : Bool :=
  goesTo (exec i (inPhase (.exec aFrame))) ((inPhase (.stamp aFrame .ok)).setStore (keyedSet start.store a E))

/-- D1. -/
theorem test_read_replies : builds (.read ⟨0, 0xFF, 0x02, none, []⟩) ⟨1000, 100⟩
    [0x01, 0x0C, 0x00, 0xFF, 0x12, 0xE8, 0x03, 0, 0, 0x64, 0, 0x34, 0x12, 0xB3] = true := by decide
/-- X2. -/
theorem test_read_unmapped_errors : builds (.read ⟨0x20, 0xFF, 0x01, some ⟨7, 7⟩, []⟩) ⟨0, 0⟩
    [0x09, 0x0A, 0x20, 0xFF, 0x11, 0, 0, 0, 0, 0, 0, 0x43] = true := by decide
/-- G12. -/
theorem test_write_stores : stores (.write ⟨13, 0xFF, 0x02, none, [0x39, 0x30, 0xAA]⟩) 13 [0x3039] = true := by decide
/-- X9. -/
theorem test_write_error_echoes :
    goesTo (exec (.write ⟨13, 0xFF, 0x02, none, [0x39, 0x30, 0x01, 0x00]⟩)
        (inPhase (.build aFrame (.err .indexRange) ⟨0, 0⟩)))
      (inPhase (.send [0x0A, 0x0E, 0x0D, 0xFF, 0x12, 0, 0, 0, 0, 0, 0, 0x39, 0x30, 0x01, 0x00, 0xA0])) = true := by decide
/-- D8. -/
theorem test_eventIn_replies : builds (.eventIn ⟨0, 0xFF, 0x02, none, []⟩) ⟨1000, 100⟩
    [0x03, 0x0C, 0x00, 0xFF, 0x12, 0xE8, 0x03, 0, 0, 0x64, 0, 0x34, 0x12, 0xB5] = true := by decide
/-- X3. -/
theorem test_eventIn_unmapped_errors : builds (.eventIn ⟨0x20, 0xFF, 0x01, none, []⟩) ⟨0, 0⟩
    [0x0B, 0x0A, 0x20, 0xFF, 0x11, 0, 0, 0, 0, 0, 0, 0x45] = true := by decide
/-- D1's reply, appended; SYNC is next. -/
theorem test_replyRead_queues :
    goesTo (exec (.replyRead ⟨0, 0x02, ⟨1000, 100⟩, [0x34, 0x12]⟩) (inPhase (.send [])))
      ((inPhase .sync).setTxq [[0x01, 0x0C, 0x00, 0xFF, 0x12, 0xE8, 0x03, 0, 0, 0x64, 0, 0x34, 0x12, 0xB3]]) = true := by
  decide
/-- D12: a full queue of four loses its oldest frame. -/
theorem test_replyWrite_evicts :
    goesTo (exec (.replyWrite ⟨10, 0x01, ⟨0, 0⟩, [0x80]⟩) ((inPhase (.send [])).setTxq [[1], [2], [3], [4]]))
      ((inPhase .sync).setTxq [[2], [3], [4], [0x02, 0x0B, 0x0A, 0xFF, 0x11, 0, 0, 0, 0, 0, 0, 0x80, 0xA7]]) = true := by
  decide
theorem test_replyEvent_queues :
    goesTo (exec (.replyEvent ⟨0, 0x02, ⟨1000, 100⟩, [0x34, 0x12]⟩) (inPhase (.send [])))
      ((inPhase .sync).setTxq [[0x03, 0x0C, 0x00, 0xFF, 0x12, 0xE8, 0x03, 0, 0, 0x64, 0, 0x34, 0x12, 0xB5]]) = true := by
  decide
/-- X1. -/
theorem test_errorRead_queues :
    goesTo (exec (.errorRead ⟨0x20, 0x01, ⟨0, 0⟩, []⟩) (inPhase (.send [])))
      ((inPhase .sync).setTxq [[0x09, 0x0A, 0x20, 0xFF, 0x11, 0, 0, 0, 0, 0, 0, 0x43]]) = true := by decide
/-- X7. -/
theorem test_errorWrite_queues :
    goesTo (exec (.errorWrite ⟨0, 0x02, ⟨0, 0⟩, [0xAA, 0xBB]⟩) (inPhase (.send [])))
      ((inPhase .sync).setTxq [[0x0A, 0x0C, 0x00, 0xFF, 0x12, 0, 0, 0, 0, 0, 0, 0xAA, 0xBB, 0x8C]]) = true := by decide
/-- X3. -/
theorem test_errorEvent_queues :
    goesTo (exec (.errorEvent ⟨0x20, 0x01, ⟨0, 0⟩, []⟩) (inPhase (.send [])))
      ((inPhase .sync).setTxq [[0x0B, 0x0A, 0x20, 0xFF, 0x11, 0, 0, 0, 0, 0, 0, 0x45]]) = true := by decide
/-- E1's frame; DISP's phase stays. -/
theorem test_eventNotify_queues :
    goesTo (exec (.eventNotify ⟨8, 0x04, ⟨1000, 0⟩, [0xE8, 0x03, 0, 0]⟩) start)
      (start.setTxq [[0x03, 0x0E, 0x08, 0xFF, 0x14, 0xE8, 0x03, 0, 0, 0, 0, 0xE8, 0x03, 0, 0, 0x02]]) = true := by decide
/-- R4. -/
theorem test_invalidMsgtype_discards :
    goesTo (exec (.invalidMsgtype 0x0A 0x05) (start.setRx ⟨.hdr, [0x0A, 0x05], 0⟩)) start = true := by decide

/-- D11: opctrl holds 0x81 in this configuration. -/
theorem test_ptU8_replies : builds (.ptU8 ⟨.read, 10, 0xFF, none, []⟩) ⟨0, 0⟩
    [0x01, 0x0B, 0x0A, 0xFF, 0x11, 0, 0, 0, 0, 0, 0, 0x81, 0xA7] = true := by decide
theorem test_ptS8_stores : stores (.ptS8 ⟨.write, 0x41, 0xFF, none, [0xFE]⟩) 0x41 [0xFE] = true := by decide
/-- D5. -/
theorem test_ptU16_stores : stores (.ptU16 ⟨.write, 13, 0xFF, none, [0x39, 0x30]⟩) 13 [0x3039] = true := by decide
/-- G3: S16 is not U16. -/
theorem test_ptS16_mismatch_errors : builds (.ptS16 ⟨.read, 0, 0xFF, none, []⟩) ⟨0, 0⟩
    [0x09, 0x0A, 0x00, 0xFF, 0x92, 0, 0, 0, 0, 0, 0, 0xA4] = true := by decide
/-- Two elements in order, and a residue byte. -/
theorem test_ptS16_stores : stores (.ptS16 ⟨.write, 0x43, 0xFF, none, [0xFE, 0xFF, 0x01, 0x00, 0x77]⟩) 0x43
    [0xFFFE, 0x0001] = true := by decide
theorem test_ptU32_stores : stores (.ptU32 ⟨.write, 0x44, 0xFF, none, [0xE8, 0x03, 0, 0]⟩) 0x44 [1000] = true := by decide
theorem test_ptS32_replies : builds (.ptS32 ⟨.read, 0x45, 0xFF, none, []⟩) ⟨0, 0⟩
    [0x01, 0x0E, 0x45, 0xFF, 0x94, 0, 0, 0, 0, 0, 0, 0xFF, 0xFF, 0xFF, 0xFF, 0xE3] = true := by decide
/-- C10's bytes. -/
theorem test_ptU64_replies : builds (.ptU64 ⟨.read, 0x46, 0xFF, none, []⟩) ⟨0, 0⟩
    [0x01, 0x12, 0x46, 0xFF, 0x18, 0, 0, 0, 0, 0, 0, 8, 7, 6, 5, 4, 3, 2, 1, 0x94] = true := by decide
/-- C11's bytes. -/
theorem test_ptS64_stores : stores (.ptS64 ⟨.write, 0x47, 0xFF, none, [0, 0, 0, 0, 0, 0, 0, 0x80]⟩) 0x47
    [0x8000000000000000] = true := by decide
/-- C13's NaN, bit-exact. -/
theorem test_ptFloat_replies : builds (.ptFloat ⟨.read, 0x48, 0xFF, none, []⟩) ⟨0, 0⟩
    [0x01, 0x0E, 0x48, 0xFF, 0x54, 0, 0, 0, 0, 0, 0, 0x01, 0x00, 0xC0, 0x7F, 0xEA] = true := by decide
/-- X5. -/
theorem test_ptUnsupported_errors : builds (.ptUnsupported 0x03 ⟨.read, 0, 0xFF, none, []⟩) ⟨0, 0⟩
    [0x09, 0x0A, 0x00, 0xFF, 0x13, 0, 0, 0, 0, 0, 0, 0x25] = true := by decide
theorem test_ptUnsupported_write_stores_nothing :
    carries (.ptUnsupported 0x03 ⟨.write, 13, 0xFF, none, [0x39, 0x30]⟩) (.err .typeMismatch) = true := by decide

/-- X4. -/
theorem test_regWhoAmI_mismatch_errors : builds (.regWhoAmI ⟨.read, 0xFF, 0x01, none, []⟩) ⟨0, 0⟩
    [0x09, 0x0A, 0x00, 0xFF, 0x11, 0, 0, 0, 0, 0, 0, 0x23] = true := by decide
/-- G8: the read-only check comes before the type check. -/
theorem test_regWhoAmI_write_is_read_only :
    carries (.regWhoAmI ⟨.write, 0xFF, 0x01, none, [0xAA]⟩) (.err .readOnly) = true := by decide
/-- D3. -/
theorem test_regHwVersionH_replies : builds (.regHwVersionH ⟨.read, 0xFF, 0x01, none, []⟩) ⟨0, 0⟩
    [0x01, 0x0B, 0x01, 0xFF, 0x11, 0, 0, 0, 0, 0, 0, 0x02, 0x1F] = true := by decide
/-- Zero in every version register but HW_VERSION_H; the checksums differ by the address. -/
theorem test_version_registers_reply :
    builds (.regHwVersionL ⟨.read, 0xFF, 0x01, none, []⟩) ⟨0, 0⟩
        [0x01, 0x0B, 0x02, 0xFF, 0x11, 0, 0, 0, 0, 0, 0, 0, 0x1E] = true ∧
      builds (.regAssemblyVersion ⟨.read, 0xFF, 0x01, none, []⟩) ⟨0, 0⟩
        [0x01, 0x0B, 0x03, 0xFF, 0x11, 0, 0, 0, 0, 0, 0, 0, 0x1F] = true ∧
      builds (.regHarpVersionH ⟨.read, 0xFF, 0x01, none, []⟩) ⟨0, 0⟩
        [0x01, 0x0B, 0x04, 0xFF, 0x11, 0, 0, 0, 0, 0, 0, 0, 0x20] = true ∧
      builds (.regHarpVersionL ⟨.read, 0xFF, 0x01, none, []⟩) ⟨0, 0⟩
        [0x01, 0x0B, 0x05, 0xFF, 0x11, 0, 0, 0, 0, 0, 0, 0, 0x21] = true ∧
      builds (.regFwVersionH ⟨.read, 0xFF, 0x01, none, []⟩) ⟨0, 0⟩
        [0x01, 0x0B, 0x06, 0xFF, 0x11, 0, 0, 0, 0, 0, 0, 0, 0x22] = true ∧
      builds (.regFwVersionL ⟨.read, 0xFF, 0x01, none, []⟩) ⟨0, 0⟩
        [0x01, 0x0B, 0x07, 0xFF, 0x11, 0, 0, 0, 0, 0, 0, 0, 0x23] = true := by decide
/-- D9, phase EXEC. -/
theorem test_regTimestampSecond_rebases :
    nextIs (exec (.regTimestampSecond ⟨.write, 0xFF, 0x04, none, [0xE8, 0x03, 0, 0]⟩)
        ((timed 7250000 7250000 0 [7250000]).setDisp (.exec aFrame)))
      (fun t => t.clock == ⟨7250000, 7250000, 993000000⟩ && t.store == start.store && t.disp == .stamp aFrame .ok) = true := by
  decide
/-- K15. -/
theorem test_regTimestampSecond_float_mismatch :
    carries (.regTimestampSecond ⟨.write, 0xFF, 0x44, none, [0, 0, 0x80, 0x3F]⟩) (.err .typeMismatch) = true := by decide
/-- P2, request 2: total 1_000_250_032 at the read. -/
theorem test_regTimestampMicro_replies :
    nextIs (exec (.regTimestampMicro ⟨.read, 0xFF, 0x02, none, []⟩)
        ((timed 7250000 7250000 993000000 [7250032]).setDisp (.build aFrame .ok ⟨1000, 7813⟩)))
      (fun t => t.disp == .send [0x01, 0x0C, 0x09, 0xFF, 0x12, 0xE8, 0x03, 0, 0, 0x85, 0x1E, 0x85, 0x1E, 0x58]) = true := by
  decide
/-- K17. -/
theorem test_regTimestampMicro_write_is_read_only :
    carries (.regTimestampMicro ⟨.write, 0xFF, 0x02, none, [0, 0]⟩) (.err .readOnly) = true := by decide
/-- G16: 0x61 sets both indicators; MODE 1 enables the events that are no heartbeat. -/
theorem test_regOperationCtrl_runs_the_hook :
    nextIs (exec (.regOperationCtrl ⟨.write, 0xFF, 0x01, none, [0x61]⟩) (inPhase (.exec aFrame)))
      (fun t => t.opledEn && t.visualEn && tupleAt t 10 == [0x61] && t.evs.map EventState.en == [false, true, true] &&
        t.evs.map EventState.arm == [false, true, true]) = true := by decide
/-- X11: U16 to address 10. -/
theorem test_regOperationCtrl_mismatch :
    carries (.regOperationCtrl ⟨.write, 0xFF, 0x02, none, [0x81, 0x00]⟩) (.err .typeMismatch) = true := by decide
/-- G19. -/
theorem test_regResetDev_stores : stores (.regResetDev ⟨.write, 0xFF, 0x01, none, [0x07]⟩) 11 [0x07] = true := by decide
/-- G20. -/
theorem test_regDeviceName_of_24_refused :
    carries (.regDeviceName ⟨.write, 0xFF, 0x01, none, List.replicate 24 0x41⟩) (.err .indexRange) = true := by decide
theorem test_regDeviceName_of_25_stored :
    stores (.regDeviceName ⟨.write, 0xFF, 0x01, none, List.replicate 25 0x41⟩) 12 (List.replicate 25 0x41) = true := by
  decide
/-- G11. -/
theorem test_regSerialNumber_empty_refused :
    carries (.regSerialNumber ⟨.write, 0xFF, 0x02, none, []⟩) (.err .indexRange) = true := by decide
/-- G10. -/
theorem test_regSerialNumber_two_refused :
    carries (.regSerialNumber ⟨.write, 0xFF, 0x02, none, [0x39, 0x30, 0x01, 0x00]⟩) (.err .indexRange) = true := by decide
theorem test_regUnmapped_write_unknown :
    carries (.regUnmapped 0x20 ⟨.write, 0xFF, 0x01, none, [0x01]⟩) (.err .unknownAddress) = true := by decide
/-- X14: L' = 255 is the last that fits. -/
theorem test_X14_longest_error_reply :
    builds (.regUnmapped 0x20 ⟨.read, 0xFF, 0x01, none, List.replicate 245 0⟩) ⟨0, 0⟩
      ([0x09, 0xFF, 0x20, 0xFF, 0x11, 0, 0, 0, 0, 0, 0] ++ List.replicate 245 0 ++ [0x38]) = true := by rfl
/-- X15: L' = 256 sets the fault. -/
theorem test_X15_reply_overflow :
    goesTo (exec (.regUnmapped 0x20 ⟨.read, 0xFF, 0x01, none, List.replicate 246 0⟩)
      (inPhase (.build aFrame .ok ⟨0, 0⟩))) ((inPhase .sync).setFaultReplyLen true) = true := by rfl
theorem test_regApp_stores : stores (.regApp 0x42 ⟨.write, 0xFF, 0x02, none, [0x34, 0x12]⟩) 0x42 [0x1234] = true := by decide
theorem test_regApp_ro_write_refused :
    carries (.regApp 0x50 ⟨.write, 0xFF, 0x02, none, [0x34, 0x12]⟩) (.err .readOnly) = true := by decide
/-- G21. -/
theorem test_regPin_samples :
    goesTo (exec (.regPin 0x30 ⟨.read, 0xFF, 0x01, none, []⟩) (inPhase (.build aFrame .ok ⟨0, 0⟩)))
      ((inPhase (.send [0x01, 0x0B, 0x30, 0xFF, 0x11, 0, 0, 0, 0, 0, 0, 0x01, 0x4D])).setPinIn [false]) = true := by decide
/-- G22. -/
theorem test_regPin_drives :
    goesTo (exec (.regPin 0x30 ⟨.write, 0xFF, 0x01, none, [0x05]⟩) (inPhase (.exec aFrame)))
      ((inPhase (.stamp aFrame .ok)).setPinOut [(2, true)]) = true := by decide

/-! ## DISP, events, reset (95_test_vectors.md sections 6, 8, 9): one step -/

/-- One event changed. -/
def withEvent (k : Nat) (ev : EventState) (s : State) : State := setEvent k ev s

theorem test_pop_takes_the_oldest :
    goesTo (step ((start.setRxq [aFrame, [0x02]]).setMoves [.disp])) ((inPhase (.exec aFrame)).setRxq [[0x02]]) = true := by
  decide
theorem test_stamp_reads_the_clock :
    goesTo (step (((timed 1000 1000 0 [3201000]).setDisp (.stamp aFrame .ok)).setMoves [.disp]))
      ((timed 3201000 3201000 0 []).setDisp (.build aFrame .ok ⟨3, 6281⟩)) = true := by decide
theorem test_D14_idle_disp_waits : goesTo (agentStep .disp start) start = true := by decide
theorem test_sync_then_polls :
    goesTo (agentStep .disp (inPhase .sync)) (inPhase (.poll 0)) = true ∧
      goesTo (agentStep .disp (inPhase (.poll 3))) start = true := by decide

/-- E1: the register is read, then the clock, then the frame is staged. -/
theorem test_E1_fire_stages :
    goesTo (agentStep (.fire 0) (timed 1000000000 1000000000 0 [1000000000, 1000000000]))
      (withEvent 0 ⟨true, true, true,
        some [0x03, 0x0E, 0x08, 0xFF, 0x14, 0xE8, 0x03, 0, 0, 0, 0, 0xE8, 0x03, 0, 0, 0x02], false⟩
        (timed 1000000000 1000000000 0 [])) = true := by decide
/-- E3, at clock (2, 3). -/
theorem test_E3_edge_stages :
    goesTo (agentStep (.fire 1) (timed 2000096 2000096 0 [2000096]))
      (withEvent 1 ⟨true, true, true,
        some [0x03, 0x0E, 0x21, 0xFF, 0x92, 2, 0, 0, 0, 3, 0, 0xFE, 0xFF, 0x01, 0x00, 0xC6], false⟩
        (timed 2000096 2000096 0 [])) = true := by decide
/-- E2. -/
theorem test_E2_poll_service :
    goesTo (agentStep .disp (withEvent 2 ⟨true, true, false, none, true⟩
        ((timed 5000000 5000000 0 [5000000]).setDisp (.poll 2))))
      (((timed 5000000 5000000 0 []).setTxq
        [[0x03, 0x0B, 0x20, 0xFF, 0x11, 5, 0, 0, 0, 0, 0, 0x01, 0x44]]).setDisp (.poll 3)) = true := by decide
/-- E5. -/
theorem test_E5_disabled_tick :
    goesTo (agentStep (.tick 2) (withEvent 2 ⟨false, false, false, none, false⟩ start))
      (withEvent 2 ⟨false, false, false, none, false⟩ start) = true := by decide
/-- E6. -/
theorem test_E6_disabled_service_sends_nothing :
    goesTo (agentStep .disp (withEvent 2 ⟨false, false, false, none, true⟩ (inPhase (.poll 2))))
      (withEvent 2 ⟨false, false, false, none, false⟩ (inPhase (.poll 3))) = true := by decide
/-- E7: the staged frame goes out although the event was disabled since. -/
theorem test_E7_append_when_disabled :
    goesTo (agentStep (.append 0) (withEvent 0 ⟨false, false, true,
        some [0x03, 0x0E, 0x08, 0xFF, 0x14, 0xE8, 0x03, 0, 0, 0, 0, 0xE8, 0x03, 0, 0, 0x02], false⟩ start))
      ((withEvent 0 ⟨false, false, false, none, false⟩ start).setTxq
        [[0x03, 0x0E, 0x08, 0xFF, 0x14, 0xE8, 0x03, 0, 0, 0, 0, 0xE8, 0x03, 0, 0, 0x02]]) = true := by decide
/-- E10. -/
theorem test_E10_second_trigger_waits :
    goesTo (agentStep (.fire 0) (withEvent 0 ⟨true, true, true, some [], false⟩ start))
      (withEvent 0 ⟨true, true, true, some [], false⟩ start) = true := by decide
/-- G18. -/
theorem test_G18_enables :
    [0x00, 0x80, 0x01, 0x81, 0x02, 0x83].map (syncEn .heartbeat) = [false, false, false, true, false, true] ∧
      [0x00, 0x80, 0x01, 0x81, 0x02, 0x83].map (syncEn .other) = [false, false, true, true, true, true] := by decide

/-- Z1. -/
theorem test_Z1_reset_clock : (State.resetWith Cfg.test 1000).clock = ⟨1000, 1000, 0⟩ ∧ stampOf 1000 = ⟨0, 31⟩ := by decide
/-- Z2, Z3: the enables at reset follow OPCTRL_RESET. -/
theorem test_Z2_Z3_enables_at_reset :
    (State.resetWith { Cfg.test with events := [heartbeat] } 0).evs = [⟨false, false, false, none, false⟩] ∧
      (State.resetWith { Cfg.test with events := [heartbeat], opctrlReset := 0x81 } 0).evs =
        [⟨true, true, false, none, false⟩] := by decide
/-- Z4, Z5, and the largest register that a reply holds. -/
theorem test_Z4_Z5_bad_configurations :
    ({ Cfg.test with rxqCap := 0 } : Cfg).wf = false ∧
      ({ Cfg.test with appRegs := [⟨0x40, true, 0x02, 123, List.replicate 123 0⟩] } : Cfg).wf = false ∧
      Cfg.test.wf = true := by decide

/-! ## What is observed (00_scope.md R18) -/

/-- K12, K13: the clock is observed at addresses 8 and 9 as RegRead returns it. -/
theorem test_observation_shows_the_clock :
    ((observe (timed 7250000 7250000 993000032 [7250000])).regs.filter fun r => r.addr == 8 || r.addr == 9) =
      [⟨8, 0x04, .ok [1000]⟩, ⟨9, 0x02, .ok [0x1E85]⟩] := by decide
/-- G21: a pin register is observed as one draw of its input level; G1: a stored register as its tuple. -/
theorem test_observation_shows_pins_and_tuples :
    ((observe start).regs.filter fun r => r.addr == 0 || r.addr == 0x30) =
      [⟨0, 0x02, .ok [0x1234]⟩, ⟨0x30, 0x01, .ok [1]⟩] := by decide

/-! ## Opcode-table words -/

theorem test_table_word_read : decodeTableWord 8 0x01 = some (.read ⟨0, 0, 0, none, []⟩) := by decide
theorem test_table_word_ptS16 : decodeTableWord 8 0x82 = some (.ptS16 ⟨.read, 0, 0, none, []⟩) := by decide
theorem test_table_word_regOperationCtrl :
    decodeTableWord 8 0x0C = some (.regDeviceName ⟨.read, 0, 0, none, []⟩) := by decide
theorem test_table_word_runs_first :
    nextIs (step (State.reset.withFetchWord 8 0x01)) (fun t => t.moves == [] && t.store == State.reset.store) = true := by
  decide

/-! ## States that meet the invariant -/

theorem cfg_wf : cfg.wf = true := by decide

/-- A request and a notification of the tests are frames of their kinds. -/
theorem isRequest_aFrame : IsRequest aFrame := ⟨⟨.read, 0, 0xFF, 0x02, none, []⟩, by decide⟩

/-- E1's frame. -/
def beat : Frame := [0x03, 0x0E, 0x08, 0xFF, 0x14, 0xE8, 0x03, 0, 0, 0, 0, 0xE8, 0x03, 0, 0, 0x02]

theorem isNotification_beat : IsNotification cfg beat := ⟨.eventNotify ⟨8, 0x04, ⟨1000, 0⟩, [0xE8, 0x03, 0, 0]⟩, by decide⟩

/-- X15's request: 246 payload bytes and no timestamp. -/
def longFrame : Frame := [0x01, 0xFA, 0x20, 0xFF, 0x01] ++ List.replicate 246 0 ++ [0x1B]

theorem decode_longFrame :
    decodeRequest longFrame = .ok ⟨.read, 0x20, 0xFF, 0x01, none, List.replicate 246 0⟩ := by decide

theorem inv_start : Inv start where
  cfg_ok := cfg_wf
  store_wf := by decide
  tuples := by unfold Stored; decide
  clock_nonneg := by decide
  rx_ok := .empty
  rxq_bounded := by decide
  txq_bounded := by decide
  rxq_requests := fun F h => absurd h (List.not_mem_nil)
  txq_built := fun F h => absurd h (List.not_mem_nil)
  evs_length := rfl
  evs_ok := by
    intro k d ev hd he
    match k with
    | 0 => cases hd; cases he; exact ⟨by decide, rfl, rfl, nofun, fun _ => rfl, nofun⟩
    | 1 => cases hd; cases he; exact ⟨by decide, rfl, rfl, nofun, fun _ => rfl, nofun⟩
    | 2 => cases hd; cases he; exact ⟨by decide, rfl, rfl, nofun, fun _ => rfl, nofun⟩
    | k + 3 => cases hd
  opled_eq := by decide
  visual_eq := by decide
  disp_ok := trivial
  pinOut_wf := by decide

theorem inv_inPhase {p : DispPhase} (h : DispOk cfg p) : Inv (inPhase p) := inv_start.setDisp h

/-- The invariant holds with other event states, if each is one that steps lead to. -/
theorem inv_setEvs {s : State} (h : Inv s) (es : List EventState) (hl : es.length = s.cfg.events.length)
    (he : ∀ (k : Nat) (d : EventDesc) (ev : EventState), s.cfg.events[k]? = some d → es[k]? = some ev →
      EventOk s.cfg (opctrl s) d ev) : Inv (s.setEvs es) :=
  { h with evs_length := hl, evs_ok := he }

/-- A fire of the timer event is in progress. -/
def firing : State := start.setEvs
  [⟨true, true, true, some beat, false⟩, ⟨true, true, false, none, false⟩, ⟨true, true, false, none, false⟩]

theorem inv_firing : Inv firing := by
  refine inv_setEvs inv_start _ rfl fun k d ev hd he => ?_
  match k with
  | 0 =>
    cases hd; cases he
    exact ⟨by decide, rfl, rfl, fun F h => by cases h; exact isNotification_beat,
      fun h => (by cases h), nofun⟩
  | 1 => cases hd; cases he; exact ⟨by decide, rfl, rfl, nofun, fun _ => rfl, nofun⟩
  | 2 => cases hd; cases he; exact ⟨by decide, rfl, rfl, nofun, fun _ => rfl, nofun⟩
  | k + 3 => cases hd

/-- The poll event has a pending tick, and DISP is at it. -/
def pending : State := (start.setEvs
  [⟨true, true, false, none, false⟩, ⟨true, true, false, none, false⟩, ⟨true, true, false, none, true⟩]).setDisp (.poll 2)

theorem inv_pending : Inv pending := by
  refine Inv.setDisp (inv_setEvs inv_start _ rfl fun k d ev hd he => ?_) (by decide : 2 ≤ 3)
  match k with
  | 0 => cases hd; cases he; exact ⟨by decide, rfl, rfl, nofun, fun _ => rfl, nofun⟩
  | 1 => cases hd; cases he; exact ⟨by decide, rfl, rfl, nofun, fun _ => rfl, nofun⟩
  | 2 => cases hd; cases he; exact ⟨by decide, rfl, rfl, nofun, fun _ => rfl, fun _ => rfl⟩
  | k + 3 => cases hd

/-- `start` after a write of 0x00 to address 10: every event is disabled; the poll event keeps its pending tick (E6). -/
def standby : State := ((start.setStore (keyedSet start.store 10 [0])).setEvs
  [⟨false, false, false, none, false⟩, ⟨false, false, false, none, false⟩,
    ⟨false, false, false, none, true⟩]).setDisp (.poll 2)

theorem inv_standby : Inv standby where
  cfg_ok := cfg_wf
  store_wf := by decide
  tuples := by unfold Stored; decide
  clock_nonneg := by decide
  rx_ok := .empty
  rxq_bounded := by decide
  txq_bounded := by decide
  rxq_requests := fun F h => absurd h (List.not_mem_nil)
  txq_built := fun F h => absurd h (List.not_mem_nil)
  evs_length := rfl
  evs_ok := by
    intro k d ev hd he
    match k with
    | 0 => cases hd; cases he; exact ⟨by decide, rfl, rfl, nofun, fun _ => rfl, nofun⟩
    | 1 => cases hd; cases he; exact ⟨by decide, rfl, rfl, nofun, fun _ => rfl, nofun⟩
    | 2 => cases hd; cases he; exact ⟨by decide, rfl, rfl, nofun, fun _ => rfl, fun _ => rfl⟩
    | k + 3 => cases hd
  opled_eq := by decide
  visual_eq := by decide
  disp_ok := (by decide : 2 ≤ 3)
  pinOut_wf := by decide

/-! ## Witnesses: for each obligation with hypotheses, a state and operands that meet them, clause by clause -/

/-- The shortest list, and the frame of S1 before its checksum. -/
theorem witness_FinalizedFramePassesItsChecksum :
    1 ≤ ([0x05] : List Byte).length ∧ 1 ≤ ([0x01, 0x0C, 0x00, 0xFF, 0x12, 0x00] : List Byte).length := by decide

/-- The longest frame: 245 bytes behind a timestamp, L = 255; and the shortest, L = 4. -/
theorem witness_PackedPayloadDecodesBack :
    Codec.supported 0x01 = true ∧ Codec.supported 0x44 = true ∧
      (∀ p ∈ List.replicate 245 (0xFF : Pattern), p.toNat < 2 ^ (8 * Codec.size 0x01)) ∧
      255 = (List.replicate 245 (0xFF : Pattern)).length * Codec.size 0x01 +
        Codec.payloadOffset (Codec.ptByte 0x01 (some ⟨0, 0⟩)) - 1 ∧
      (∀ p ∈ ([] : List Pattern), p.toNat < 2 ^ (8 * Codec.size 0x44)) ∧
      4 = ([] : List Pattern).length * Codec.size 0x44 + Codec.payloadOffset (Codec.ptByte 0x44 none) - 1 :=
  ⟨rfl, rfl, by simp [Codec.size], by rw [List.length_replicate]; rfl, nofun, rfl⟩

theorem witness_DecodingAnEncodingGivesItBack :
    (∀ i ∈ [Instr.read ⟨0, 0, 0x02, none, [0xAA]⟩, .ptS16 ⟨.write, 0x43, 7, some ⟨1, 2⟩, [1, 2, 3]⟩,
        .regApp 0x40 ⟨.read, 0xFF, 0x01, none, []⟩, .regPin 0x30 ⟨.event, 0xFF, 0x01, none, []⟩,
        .regUnmapped 14 ⟨.read, 0xFF, 0x01, none, []⟩, .errorRead ⟨0x20, 0x03, ⟨0, 0⟩, []⟩,
        .eventNotify ⟨8, 0x04, ⟨1000, 0⟩, [1, 2, 3, 4]⟩],
      i.ok = true ∧ i.okIn cfg = true ∧ i.format?.isSome = true) ∧
    (Instr.invalidMsgtype 0x00 0x01).ok = true ∧ (Instr.invalidMsgtype 0x0A 0xFF).ok = true := by decide

theorem witness_StreamDecodesTheFirstRequest :
    (⟨0x20, 0xFF, 0x01, none, List.replicate 251 0⟩ : MsgOps).ok = true ∧
      (⟨0x20, 0xFF, 0x01, some ⟨7, 7⟩, List.replicate 245 0⟩ : MsgOps).ok = true ∧
      (⟨0x20, 0xFF, 0x01, none, []⟩ : MsgOps).ok = true := by
  simp only [MsgOps.ok, requestFits, List.length_replicate]; decide

theorem witness_EncodingADecodedFrameGivesItsBytes :
    decodeAs .request cfg aFrame = .ok (.read ⟨0, 0xFF, 0x02, none, []⟩) ∧
      decodeAs .notification cfg beat = .ok (.eventNotify ⟨8, 0x04, ⟨1000, 0⟩, [0xE8, 0x03, 0, 0]⟩) := by decide

/-- Both sides hold of the shortest request, and fail of one with a bad checksum. -/
theorem witness_ARequestIsWhatPassesFraming :
    IsRequest aFrame ∧ (∃ rest, aFrame = 0x01 :: 0x04 :: rest) ∧ aFrame.length = (0x04 : Byte).toNat + 2 ∧
      Codec.validateChecksum aFrame = true ∧ Codec.validateStructure aFrame = true :=
  ⟨isRequest_aFrame, ⟨_, rfl⟩, by decide⟩

/-- Clause 1 in each of its four phases, then clauses 2 to 4. -/
theorem witness_AStepRunsTheDecodedInstruction :
    (∀ s ∈ [(start.setRxq [aFrame]).setMoves [.disp], (inPhase (.exec aFrame)).setMoves [.disp],
        (inPhase (.stamp aFrame .ok)).setMoves [.disp], (inPhase (.build aFrame .ok ⟨0, 0⟩)).setMoves [.disp]],
      s.moves = [.disp] ∧ anyBusy s = false) ∧
    decodeAs .request cfg aFrame = .ok (.read ⟨0, 0xFF, 0x02, none, []⟩) ∧
    decodeAs .reply cfg [0x09, 0x0A, 0x20, 0xFF, 0x11, 0, 0, 0, 0, 0, 0, 0x43] =
      .ok (.errorRead ⟨0x20, 0x01, ⟨0, 0⟩, []⟩) ∧
    cooperativeIdle (receiving ⟨.hdr, [0x0A], 1⟩ [0x05]) = true ∧ Codec.validateMessageType 0x0A = false ∧
    firing.evs[0]? = some ⟨true, true, true, some beat, false⟩ ∧
    decodeAs .notification firing.cfg beat = .ok (.eventNotify ⟨8, 0x04, ⟨1000, 0⟩, [0xE8, 0x03, 0, 0]⟩) := by decide

theorem witness_TheThreeReadingsOfAFrameAgree :
    decodeAs .request cfg aFrame = .ok (.read ⟨0, 0xFF, 0x02, none, []⟩) ∧
      decodeAs .payloadType cfg aFrame = .ok (.ptU16 ⟨.read, 0, 0xFF, none, []⟩) ∧
      decodeAs .address cfg aFrame = .ok (.regWhoAmI ⟨.read, 0xFF, 0x02, none, []⟩) := by decide

/-- The messageTypes and the length bytes at which the clauses meet. -/
theorem witness_AHeaderByteIsFramed :
    (∀ b ∈ [(0x00 : Byte), 0x01, 0xFF], ∀ r ∈ [(⟨.hdr, [], 2⟩ : Rx), ⟨.hdr, [0x01], 1⟩, ⟨.hdr, [0x03], 1⟩, ⟨.hdr, [0x00], 1⟩,
        ⟨.hdr, [0x04], 1⟩, ⟨.hdr, [0x09], 1⟩],
      cooperativeIdle (receiving r [b]) = true ∧ (receiving r [b]).rxIn = [b] ∧ (receiving r [b]).rx = r) ∧
    ([0x01, 0x03].all Codec.validateMessageType) = true ∧ ([0x00, 0x04, 0x09].any Codec.validateMessageType) = false := by
  decide

theorem witness_AWholeFrameIsReceived :
    cooperativeIdle (receiving ⟨.hdr, [], 2⟩ (aFrame ++ [0x05])) = true ∧ IsRequest aFrame ∧
      (receiving ⟨.hdr, [], 2⟩ (aFrame ++ [0x05])).rxIn = aFrame ++ [0x05] ∧
      cooperativeIdle (receiving ⟨.hdr, [], 2⟩ longFrame) = true ∧ IsRequest longFrame :=
  ⟨by decide, isRequest_aFrame, rfl, by decide, _, decode_longFrame⟩

/-- R9 (no body at all), R3 (checksum), R6 (structure). -/
theorem witness_ABadFrameLeavesNoTrace :
    cooperativeIdle (receiving ⟨.hdr, [], 2⟩ [0x01, 0x00]) = true ∧ Codec.validateChecksum [0x01, 0x00] = false ∧
      cooperativeIdle (receiving ⟨.hdr, [], 2⟩ [0x02, 0x05, 0x0A, 0xFF, 0x01, 0x80, 0x92]) = true ∧
      Codec.validateChecksum [0x02, 0x05, 0x0A, 0xFF, 0x01, 0x80, 0x92] = false ∧
      [0x0A, 0xFF, 0x01, 0x80, (0x92 : Byte)].length = (0x05 : Byte).toNat ∧
      Codec.validateChecksum [0x01, 0x04, 0x00, 0xFF, 0x12, 0x16] = true ∧
      Codec.validateStructure [0x01, 0x04, 0x00, 0xFF, 0x12, 0x16] = false := by decide

theorem witness_TxSendsTheOldestFrameWhole :
    cooperativeIdle (start.setTxq [beat]) = true ∧ (start.setTxq [beat]).txq = [beat] := by decide

theorem witness_OutboundBytesAreQueuedFrames :
    step ((start.setTxq [beat]).setMoves [.tx]) = .next (start.setTxOut beat) ∧
      step (start.setMoves [.envByte 1]) = .next (start.setRxIn [1]) := ⟨rfl, rfl⟩

theorem witness_AgentsWithNothingToDoChangeNothing :
    anyBusy firing = true ∧ (inPhase .sync).disp ≠ .idle ∧ start.rxIn = [] ∧ start.txq = [] ∧ start.disp = .idle ∧
      start.rxq = [] ∧ anyPending start = false ∧ (pending.setDisp .idle).cfg.events[2]? = some poll ∧
      (pending.setDisp .idle).evs[2]? = some ⟨true, true, false, none, true⟩ ∧ poll.kind = .poll ∧
      anyBusy (pending.setDisp .idle) = false ∧ (pending.setDisp .idle).disp = .idle ∧
      (pending.setDisp .idle).rxq = [] := by decide

/-- A queue of one that is full, and one of two that is not. -/
theorem witness_AQueueKeepsTheNewestFrames :
    1 ≤ 1 ∧ [aFrame].length ≤ 1 ∧ 1 ≤ 2 ∧ [aFrame].length ≤ 2 := by decide

/-- A total of 0, also with a negative offset. -/
theorem witness_TheClockReadsTheMicrosecondTotal :
    0 ≤ clockTotal (timed 0 0 0 [0]) ∧ clockTotal (timed 7250000 7250000 (-7250000) [7250032]) = 0 := by decide

/-- The least offset that fits; and the guards of the last two clauses: no tick elapsed, and a microsecond less than the
rest of the second. -/
theorem witness_AfterAWriteTheClockReadsTheTarget :
    ((0 : BitVec 32).toNat : Int) * 1000000 + clockTotal (clockSample (timed (2 ^ 63) 0 (-2 ^ 63) [0])) % 1000000 -
        (clockSample (timed (2 ^ 63) 0 (-2 ^ 63) [0])).clock.acc = -2 ^ 63 ∧
      ((7 : BitVec 32).toNat : Int) * 1000000 + 250000 - (clockSample (timed 250000 250000 0 [250000])).clock.acc ≥
        -2 ^ 63 ∧
      (clockDelta 250000 (clockWrite 7 (timed 250000 250000 0 [250000, 250000])).clock.last).toNat = 0 ∧
      clockTotal (clockSample (timed 250000 250000 0 [250000, 999999])) % 1000000 = 250000 ∧
      ((clockDelta 999999 250000).toNat : Int) < 1000000 - 250000 := by decide

theorem witness_TheClockNeverRunsBackwards :
    0 ≤ clockTotal (timed 1073741820 0x3FFFFFFC 0 [6, 40]) ∧
      clockTotal (clockSample (timed 1073741820 0x3FFFFFFC 0 [6, 40])) / 4294967296000000 =
        clockTotal (clockSample (clockRead (timed 1073741820 0x3FFFFFFC 0 [6, 40])).2) / 4294967296000000 := by decide

theorem witness_AReadGivesTheWholeTuple :
    Inv start ∧ regRead 0 0x02 start = (.ok [0x1234], start) ∧ regRead 0 0x01 start = (.error .typeMismatch, start) :=
  ⟨inv_start, rfl, rfl⟩

/-- An RO cell and no cell; TIMESTAMP_SECOND is outside the last clause. -/
theorem witness_ReadsChangeOnlyTheSamples :
    start.cfg.cellAt 0 = some ⟨0, .ro, 0x02, 1⟩ ∧ start.cfg.cellAt 0x20 = none := by decide

theorem witness_AWriteToAnRwCellReadsBack :
    (inPhase (.exec aFrame)).disp = .exec aFrame ∧ cfg.cellAt 0x43 = some ⟨0x43, .rw, 0x82, 2⟩ ∧
      ([0xFE, 0xFF, 0x01, 0x00, (0x77 : Byte)].length) / Codec.size 0x82 = 2 := by decide

theorem witness_RequestsArePoppedAndStamped :
    (Instr.regPin 0x30 ⟨.event, 0xFF, 0x01, none, []⟩).request? = some ⟨.event, 0x30, 0xFF, 0x01, none, []⟩ ∧
      (start.setRxq [aFrame]).disp = .idle ∧ (start.setRxq [aFrame]).rxq = [aFrame] ∧
      (inPhase (.exec aFrame)).disp = .exec aFrame ∧ Kind.event ≠ Kind.write ∧
      (inPhase (.stamp aFrame .ok)).disp = .stamp aFrame .ok := by decide

/-- No cell; RO and TS_MICRO; another type code; one element too many, and none. -/
theorem witness_AFailedWriteChangesNothing :
    (Instr.write ⟨0x20, 0xFF, 0x01, none, [1]⟩).request? = some ⟨.write, 0x20, 0xFF, 0x01, none, [1]⟩ ∧
      (inPhase (.exec aFrame)).disp = .exec aFrame ∧ cfg.cellAt 0x20 = none ∧
      cfg.cellAt 7 = some ⟨7, .ro, 0x01, 1⟩ ∧ cfg.cellAt 9 = some ⟨9, .tsMicro, 0x02, 1⟩ ∧
      cfg.cellAt 8 = some ⟨8, .tsSec, 0x04, 1⟩ ∧ (0x44 : Byte) ≠ 0x04 ∧
      [1, 2, 3, 4, 5, 6, 7, (8 : Byte)].length / Codec.size 0x04 ≠ 1 ∧
      ([1, 2, (3 : Byte)].length) / Codec.size 0x04 ≠ 1 := by decide

/-- An error from EXEC, no cell, another type code; 245 and 246 payload bytes, where the two results meet. -/
theorem witness_AnAccessErrorMakesAnErrorReply :
    (∀ n ∈ [0, 245, 246, 251], (Instr.read ⟨0x20, 0xFF, 0x01, none, List.replicate n 0⟩).request? =
        some ⟨.read, 0x20, 0xFF, 0x01, none, List.replicate n 0⟩) ∧
      (inPhase (.build aFrame .ok ⟨0, 0⟩)).disp = .build aFrame .ok ⟨0, 0⟩ ∧ Res.err .readOnly ≠ .ok ∧
      cfg.cellAt 0x20 = none ∧ cfg.cellAt 0 = some ⟨0, .ro, 0x02, 1⟩ ∧ (0x82 : Byte) ≠ 0x02 := by decide

/-- A state in phase BUILD in which address `a` holds `n` elements. -/
def holding (a : Byte) (n : Nat) : State :=
  (inPhase (.build aFrame .ok ⟨0, 0⟩)).setStore (keyedSet start.store a.toNat (List.replicate n 0))

theorem holding_length (a : Byte) (n : Nat) : (tupleAt (holding a n) a).length = n := by simp [tupleAt, holding]

/-- A tuple of 245 bytes: the longest reply. -/
theorem witness_MessageRowsReplyWithTheRegister :
    (holding 0x40 245).disp = .build aFrame .ok ⟨0, 0⟩ ∧ cfg.cellAt 0x40 = some ⟨0x40, .rw, 0x01, 1⟩ ∧ Stored .rw ∧
      (tupleAt (holding 0x40 245) 0x40).length * Codec.size 0x01 + 10 = 255 ∧
      (tupleAt (holding 0x42 122) 0x42).length * Codec.size 0x02 + 10 = 254 :=
  ⟨rfl, by decide, .inr (.inl rfl), by rw [holding_length]; rfl, by rw [holding_length]; rfl⟩

theorem witness_ReservedRegistersReply :
    (holding 12 245).disp = .build aFrame .ok ⟨0, 0⟩ ∧ (tupleAt (holding 12 245) 12).length * Codec.size 0x01 + 10 = 255 ∧
      (tupleAt start 0).length * Codec.size 0x02 + 10 ≤ 255 :=
  ⟨rfl, by rw [holding_length]; rfl, by decide⟩

/-- The three writes in phase EXEC, the serial number's with no and with one residue byte. -/
theorem witness_ReadWriteRegistersStore :
    (inPhase (.exec aFrame)).disp = .exec aFrame ∧ (List.replicate 25 (0x41 : Byte)).length = cfg.nameLen ∧
      ([] : List Byte).length ≤ 1 ∧ [(0xAA : Byte)].length ≤ 1 := by decide

theorem witness_AControlWriteRunsTheHook :
    (inPhase (.exec aFrame)).disp = .exec aFrame ∧ cfg.events[0]? = some heartbeat ∧
      (inPhase (.exec aFrame)).evs[0]? = some ⟨true, true, false, none, false⟩ := by decide

/-- With no and with three residue bytes; the guards of the offset's clause hold for K7's numbers. -/
theorem witness_ASecondsWriteRebasesTheClock :
    (inPhase (.exec aFrame)).disp = .exec aFrame ∧ ([] : List Byte).length ≤ 3 ∧ [1, 2, (3 : Byte)].length ≤ 3 ∧
      (-2 ^ 63 : Int) ≤ 1000 * 1000000 + 7250000 % 1000000 - 7250000 ∧
      (1000 * 1000000 + 7250000 % 1000000 - 7250000 : Int) < 2 ^ 63 := by
  decide

theorem witness_TimestampRegistersReplyFromTheClock :
    (inPhase (.build aFrame .ok ⟨0, 0⟩)).disp = .build aFrame .ok ⟨0, 0⟩ ∧ (0x44 : Byte) ≠ 0x04 ∧ (0x82 : Byte) ≠ 0x02 ∧
      (List.replicate 245 (0 : Byte)).length ≤ 245 := by decide

theorem witness_PinRegistersDriveAndSample :
    cfg.cellAt 0x30 = some ⟨0x30, .pin 2, 0x01, 1⟩ ∧ (inPhase (.exec aFrame)).disp = .exec aFrame ∧
      (inPhase (.build aFrame .ok ⟨0, 0⟩)).disp = .build aFrame .ok ⟨0, 0⟩ ∧ (0x81 : Byte) ≠ 0x01 ∧
      (List.replicate 245 (0 : Byte)).length ≤ 245 := by decide

theorem witness_ApplicationRegistersReplyAndStore :
    cfg.cellAt 0x50 = some ⟨0x50, .ro, 0x02, 1⟩ ∧ cfg.cellAt 0x40 = some ⟨0x40, .rw, 0x01, 1⟩ ∧
      (tupleAt (holding 0x40 245) 0x40).length * Codec.size 0x01 + 10 = 255 ∧
      (inPhase (.exec aFrame)).disp = .exec aFrame ∧ [(0x05 : Byte)].length / Codec.size 0x01 = 1 :=
  ⟨by decide, by decide, by rw [holding_length]; rfl, rfl, by decide⟩

theorem witness_AnUnmappedAddressGetsAnErrorReply :
    cfg.cellAt 0x20 = none ∧ cfg.cellAt 14 = none ∧ cfg.cellAt 255 = none ∧
      (inPhase (.exec aFrame)).disp = .exec aFrame ∧
      (inPhase (.build aFrame (.err .unknownAddress) ⟨0, 0⟩)).disp = .build aFrame (.err .unknownAddress) ⟨0, 0⟩ ∧
      (List.replicate 245 (0 : Byte)).length ≤ 245 := by decide

/-- A cell of each type code; two S16 elements at their extremes; a full tuple of 245 bytes. -/
theorem witness_SupportedTypeRowsReplyAndStore :
    ([0x40, 0x41, 0x42, 0x43, 0x44, 0x45, 0x46, 0x47, (0x48 : Byte)].map fun a => (cfg.cellAt a).map Cell.tcode) =
        [0x01, 0x81, 0x02, 0x82, 0x04, 0x84, 0x08, 0x88, (0x44 : Byte)].map some ∧
      cfg.cellAt 0x43 = some ⟨0x43, .rw, 0x82, 2⟩ ∧ [(0xFFFF : Pattern), 0x8000].length = 2 ∧
      (∀ p ∈ [(0xFFFF : Pattern), 0x8000], p.toNat < 2 ^ (8 * Codec.size 0x82)) ∧
      (tupleAt (holding 0x40 245) 0x40).length * Codec.size 0x01 + 10 = 255 ∧
      (inPhase (.exec aFrame)).disp = .exec aFrame :=
  ⟨by decide, by decide, rfl, by simp [Codec.size], by rw [holding_length]; rfl, rfl⟩

theorem witness_AnUnsupportedTypeGetsAnErrorReply :
    (inPhase (.exec aFrame)).cfg.wf = true ∧ Codec.supported 0x00 = false ∧ Codec.supported 0x03 = false ∧
      Codec.supported 0xEF = false ∧ (inPhase (.exec aFrame)).disp = .exec aFrame ∧
      (List.replicate 245 (0 : Byte)).length ≤ 245 := by decide

theorem witness_RepliesAreQueued :
    (inPhase (.send aFrame)).disp = .send aFrame ∧ (List.replicate 245 (0 : Byte)).length ≤ 245 := by decide

theorem witness_NotificationsAreQueued :
    (⟨8, 0x01, ⟨0, 0⟩, List.replicate 245 0⟩ : OutOps).payload.length ≤ 245 := by decide

theorem witness_OutsideItsPhasesAnInstructionChangesNothing :
    (Instr.read ⟨0, 0xFF, 0x02, none, []⟩).request? = some ⟨.read, 0, 0xFF, 0x02, none, []⟩ ∧
      (inPhase (.send aFrame)).disp = .send aFrame ∧ (inPhase .sync).disp = .sync ∧ (inPhase (.poll 1)).disp = .poll 1 ∧
      start.disp = .idle ∧ start.rxq = [] ∧ ∀ R, (inPhase .sync).disp ≠ .send R :=
  ⟨rfl, rfl, rfl, rfl, rfl, rfl, nofun⟩

/-- A request of each of the two outcomes. -/
theorem witness_EveryRequestGetsExactlyOneReply :
    Inv (inPhase (.exec aFrame)) ∧ anyBusy (inPhase (.exec aFrame)) = false ∧
      decodeRequest aFrame = .ok ⟨.read, 0, 0xFF, 0x02, none, []⟩ ∧ Inv (inPhase (.exec longFrame)) ∧
      decodeRequest longFrame = .ok ⟨.read, 0x20, 0xFF, 0x01, none, List.replicate 246 0⟩ :=
  ⟨inv_inPhase (p := .exec aFrame) isRequest_aFrame, by decide, by decide, inv_inPhase (p := .exec longFrame) ⟨_, decode_longFrame⟩, decode_longFrame⟩

theorem witness_AnIterationComesBackToIdle :
    Inv (inPhase .sync) ∧ anyBusy (inPhase .sync) = false ∧ (inPhase .sync).disp = .sync :=
  ⟨inv_inPhase (p := .sync) trivial, by decide, rfl⟩

theorem witness_SyncReappliesWhatAlreadyStands :
    Inv (inPhase .sync) ∧ anyBusy (inPhase .sync) = false ∧ (inPhase .sync).disp = .sync :=
  ⟨inv_inPhase (p := .sync) trivial, by decide, rfl⟩

/-- An enabled event with a bound register, one with fixed elements; a fire in progress; a disabled event. -/
theorem witness_AFireStagesOneFrame :
    Inv start ∧ start.cfg.events[0]? = some heartbeat ∧ start.evs[0]? = some ⟨true, true, false, none, false⟩ ∧
      heartbeat.kind ≠ .poll ∧ start.cfg.events[1]? = some edge ∧ edge.kind ≠ .poll ∧
      Inv firing ∧ firing.evs[0]? = some ⟨true, true, true, some beat, false⟩ ∧
      Inv standby ∧ standby.evs[0]? = some ⟨false, false, false, none, false⟩ :=
  ⟨inv_start, rfl, by decide, by decide, rfl, by decide, inv_firing, rfl, inv_standby, rfl⟩

/-- E7: the event may be disabled meanwhile. -/
theorem witness_AStagedFrameIsAppendedEvenIfDisabled :
    firing.evs[0]? = some ⟨true, true, true, some beat, false⟩ ∧ IsNotification firing.cfg beat ∧
      (setEvent 0 ⟨false, false, true, some beat, false⟩ firing).evs[0]? = some ⟨false, false, true, some beat, false⟩ :=
  ⟨rfl, isNotification_beat, rfl⟩

theorem witness_PollTicksMerge :
    start.cfg.events[2]? = some poll ∧ poll.kind = .poll ∧ start.evs[2]? = some ⟨true, true, false, none, false⟩ ∧
      standby.evs[2]? = some ⟨false, false, false, none, true⟩ := by decide

/-- Past the last event; a timer event, and a poll event with no pending tick; a pending one, enabled and disabled. -/
theorem witness_APollServiceSendsOneFrame :
    anyBusy (inPhase (.poll 3)) = false ∧ (inPhase (.poll 3)).disp = .poll 3 ∧ 3 = (inPhase (.poll 3)).cfg.events.length ∧
      anyBusy (inPhase (.poll 0)) = false ∧ (inPhase (.poll 0)).cfg.events[0]? = some heartbeat ∧
      (inPhase (.poll 0)).evs[0]? = some ⟨true, true, false, none, false⟩ ∧ heartbeat.kind ≠ .poll ∧
      anyBusy (inPhase (.poll 2)) = false ∧ (inPhase (.poll 2)).evs[2]? = some ⟨true, true, false, none, false⟩ ∧
      Inv pending ∧ anyBusy pending = false ∧ pending.disp = .poll 2 ∧ pending.cfg.events[2]? = some poll ∧
      pending.evs[2]? = some ⟨true, true, false, none, true⟩ ∧ poll.kind = .poll ∧
      Inv standby ∧ anyBusy standby = false ∧ standby.disp = .poll 2 ∧
      standby.evs[2]? = some ⟨false, false, false, none, true⟩ :=
  ⟨by decide, rfl, rfl, by decide, rfl, rfl, by decide, by decide, rfl, inv_pending, by decide, rfl, rfl, rfl, rfl,
    inv_standby, by decide, rfl, rfl⟩

theorem witness_InterruptStepsTouchOnlyTheirOwn :
    GoesOn (agentStep (.fire 0) start) ∧ GoesOn (agentStep (.append 0) firing) ∧ GoesOn (agentStep (.tick 2) start) :=
  ⟨⟨_, rfl⟩, ⟨_, rfl⟩, ⟨_, rfl⟩⟩

theorem witness_ResetGivesEveryElementItsValue :
    cfg.wf = true ∧ (⟨0x40, true, 0x01, 1, [0]⟩ : AppReg) ∈ cfg.appRegs ∧ cfg.events[0]? = some heartbeat := by decide

theorem witness_ABadConfigurationHasNoReset :
    ({ cfg with tickPeriod := 5 } : Cfg).wf = false ∧ cfg.wf = true ∧ ({ cfg with rxqCap := 0 } : Cfg).rxqCap = 0 ∧
      ({ cfg with txqCap := 0 } : Cfg).txqCap = 0 := by decide

theorem witness_ResetMeetsTheInvariant : cfg.wf = true ∧ Cfg.test.wf = true := by decide

/-- A write that runs the hook, and a fire. -/
theorem witness_EveryStepKeepsTheInvariant :
    Inv ((inPhase (.exec aFrame)).setMoves [.disp]) ∧ GoesOn (step ((inPhase (.exec aFrame)).setMoves [.disp])) ∧
      Inv (start.setMoves [.fire 0]) ∧ GoesOn (step (start.setMoves [.fire 0])) :=
  ⟨(inv_inPhase (p := .exec aFrame) isRequest_aFrame).setMoves _, ⟨_, rfl⟩, inv_start.setMoves _, ⟨_, rfl⟩⟩

theorem witness_AStepNeverStops : Inv start ∧ Inv firing ∧ Inv pending ∧ Inv standby :=
  ⟨inv_start, inv_firing, inv_pending, inv_standby⟩

/-- A WRITE of the serial number (G9), in phase EXEC, chosen next. -/
def writing : State :=
  (inPhase (.exec [0x02, 0x06, 0x0D, 0xFF, 0x02, 0x39, 0x30, 0x7F])).setMoves [.disp]

theorem witness_ReadOnlyRegistersNeverChange :
    GoesOn (step writing) ∧ (7 : Byte).toNat < 8 ∧ writing.cfg.cellAt 0x50 = some ⟨0x50, .ro, 0x02, 1⟩ :=
  ⟨⟨_, rfl⟩, by decide, by decide⟩

theorem witness_OnlyAWriteChangesARegister :
    nextIs (step writing) (fun t => tupleAt t 13 != tupleAt writing 13) = true := by decide

/-- X15's request in phase BUILD sets the fault; a fault that is set stays through a step. -/
theorem witness_TheOverflowFaultIsSticky :
    nextIs (step ((inPhase (.build longFrame .ok ⟨0, 0⟩)).setMoves [.disp])) State.faultReplyLen = true ∧
      start.faultReplyLen = false ∧ GoesOn (step ((start.setFaultReplyLen true).setMoves [.rx])) :=
  ⟨rfl, rfl, ⟨_, rfl⟩⟩

theorem witness_TheObservationIsWhatRegReadReturns :
    start.cfg.cellAt 0x30 = some ⟨0x30, .pin 2, 0x01, 1⟩ ∧ (regRead 0 0x02 start).1 = .ok [0x1234] ∧
      (⟨0, 0x02, .ok [0x1234]⟩ : Reading) ∈ (observe start).regs :=
  ⟨by decide, rfl, mem_regs.2 ⟨⟨0, .ro, 0x02, 1⟩, by decide, rfl⟩⟩

/-- The ends of a signed range, the fields of -0.0 and of a NaN, an unsupported code, the largest U8. -/
theorem witness_EachTypeCodeReadsItsElements :
    (0x7F : Pattern).toNat < 2 ^ (8 * Codec.size 0x81) ∧ (0x80 : Pattern).toNat < 2 ^ (8 * Codec.size 0x81) ∧
      (0x80000000 : Pattern).toNat = true.toNat * 2 ^ 31 + (0 : BitVec 8).toNat * 2 ^ 23 + (0 : BitVec 23).toNat ∧
      (0x7FC00001 : Pattern).toNat =
        false.toNat * 2 ^ 31 + (255 : BitVec 8).toNat * 2 ^ 23 + (0x400001 : BitVec 23).toNat ∧
      Codec.supported 0x03 = false ∧ Codec.supported 0x01 = true ∧ (0xFF : Pattern).toNat < 2 ^ (8 * Codec.size 0x01) ∧
      Codec.value? 0x01 0xFF = Codec.value? 0x01 0xFF :=
  ⟨by simp [Codec.size], by simp [Codec.size], by simp, by simp, rfl, rfl, by simp [Codec.size], rfl⟩

end Sys2Proof.Tests
end

section
/-! PROOFS. The block has no reachable stop (00_scope.md R19): in every state with the invariant each agent's step
answers a next state. Beside that, what the proof needs of the invariant: a read gives its cell's count of elements, an
event's frame fits its length byte, a frame in DISP's or an event's hands decodes to an instruction that goes on. -/
namespace Sys2Proof.Machine

variable {s t : State}

@[simp] theorem goesOn_next (t : State) : GoesOn (.next t) := ⟨t, rfl⟩

theorem goesOn_ite {c : Prop} [Decidable c] {x y : Host.Outcome State Fault Refusal} (hx : GoesOn x) (hy : GoesOn y) :
    GoesOn (if c then x else y) := by
  split
  · exact hx
  · exact hy

/-! ## Register reads -/

/-- A read by the cell's own type code succeeds (43_registers.md R140). -/
theorem regRead_of_cellAt {a : Byte} {d : Cell} (s : State) (hd : s.cfg.cellAt a = some d) :
    ∃ E t, regRead a d.tcode s = (.ok E, t) := by
  rcases h : regRead a d.tcode s with ⟨cause | E, t⟩
  · obtain ⟨-, ⟨hnone, -⟩ | ⟨c, hc, hne, -⟩⟩ := regRead_error h
    · simp [hd] at hnone
    · obtain rfl : d = c := Option.some.inj (hd.symm.trans hc)
      exact absurd rfl hne
  · exact ⟨E, t, rfl⟩

/-- A read that succeeds gives as many elements as the cell has (10_state.md R21). -/
theorem Inv.regRead_length {a tc : Byte} {E : List Pattern} (hI : Inv s) (h : regRead a tc s = (.ok E, t)) :
    ∃ c, s.cfg.cellAt a = some c ∧ tc = c.tcode ∧ E.length = c.count := by
  obtain ⟨c, hc, htc, hE⟩ := regRead_ok h
  have hmem : c ∈ s.cfg.cells := (cellAt_mem hc).1
  obtain ⟨hsec, hmicro, -, hpin⟩ := special_cells hmem
  refine ⟨c, hc, htc, ?_⟩
  rcases hE with ⟨hv, rfl, -⟩ | ⟨hv, rfl, -⟩ | ⟨hv, rfl, -⟩ | ⟨p, hv, rfl, -⟩
  · exact ((fitsTuple_iff _ _ _).1 (hI.tuples c hmem hv)).1
  · simp [hsec hv]
  · simp [hmicro hv]
  · simp [hpin p hv]

theorem fitsReply_iff (tc : Byte) (n : Nat) : fitsReply tc n = true ↔ 1 ≤ n ∧ n * Codec.size tc + 10 ≤ 255 := by
  simp [fitsReply]

/-- What is read of a register fits the length byte of a reply (00_scope.md R8 (d)). -/
theorem Inv.regRead_fits {a tc : Byte} {E : List Pattern} (hI : Inv s) (h : regRead a tc s = (.ok E, t)) :
    E.length * Codec.size tc + 10 ≤ 255 := by
  obtain ⟨c, hc, rfl, hlen⟩ := hI.regRead_length h
  obtain ⟨-, -, -, -, hfit, -⟩ := (cfg_wf_iff s.cfg).1 hI.cfg_ok
  rw [hlen]
  exact ((fitsReply_iff _ _).1 (hfit c (cellAt_mem hc).1)).2

/-! ## What an event reports -/

theorem eventOk_fitsReply {c : Cfg} {d : EventDesc} (h : c.eventOk d = true) : fitsReply d.tcode d.n = true := by
  simp only [Cfg.eventOk, Bool.and_eq_true] at h
  exact h.1.2

/-- An event's bound register is a cell of the event's type code and count (00_scope.md R8 (f)). -/
theorem eventOk_reg {c : Cfg} {d : EventDesc} {a : Byte} (h : c.eventOk d = true) (hsrc : d.src = .reg a) :
    ∃ x, c.cellAt a = some x ∧ x.tcode = d.tcode ∧ x.count = d.n := by
  simp only [Cfg.eventOk, hsrc, Bool.and_eq_true] at h
  obtain ⟨-, -, h⟩ := h
  cases hx : c.cellAt a with
  | none => simp [hx] at h
  | some x => exact ⟨x, rfl, by simpa [hx] using h⟩

/-- An event's fixed elements are as many as the event says (00_scope.md R8 (f)). -/
theorem eventOk_fixed {c : Cfg} {d : EventDesc} {E : List Pattern} (h : c.eventOk d = true) (hsrc : d.src = .fixed E) :
    E.length = d.n := by
  simp only [Cfg.eventOk, hsrc, Bool.and_eq_true] at h
  exact ((fitsTuple_iff _ _ _).1 h.2).1

theorem Inv.eventOk (hI : Inv s) {k : Nat} {d : EventDesc} (hd : s.cfg.events[k]? = some d) :
    s.cfg.eventOk d = true := by
  obtain ⟨-, -, -, -, -, -, -, hev, -⟩ := (cfg_wf_iff s.cfg).1 hI.cfg_ok
  exact hev d (List.mem_of_getElem? hd)

/-- An event's elements are always there, and as many as the event says (45_events.md R180). -/
theorem Inv.eventElems_ok (hI : Inv s) {d : EventDesc} (hd : s.cfg.eventOk d = true) :
    ∃ E t, eventElems d s = (.ok E, t) ∧ E.length = d.n := by
  unfold eventElems
  cases hsrc : d.src with
  | fixed E => exact ⟨E, s, rfl, eventOk_fixed hd hsrc⟩
  | reg a =>
    obtain ⟨x, hx, htc, hn⟩ := eventOk_reg hd hsrc
    obtain ⟨E, t, hread⟩ := regRead_of_cellAt s hx
    obtain ⟨c, hc, -, hlen⟩ := hI.regRead_length hread
    obtain rfl : x = c := Option.some.inj (hx.symm.trans hc)
    exact ⟨E, t, htc ▸ hread, hlen.trans hn⟩

/-- An event's frame can always be built: its payload is there and fits (45_events.md R176, R180). -/
theorem Inv.eventOps_ok (hI : Inv s) {k : Nat} {d : EventDesc} (hd : s.cfg.events[k]? = some d) :
    ∃ E u, eventElems d s = (.ok E, u) ∧
      eventOps d s = (.ok ⟨d.addr, d.tcode, (clockRead u).1, Codec.pack d.tcode E⟩, (clockRead u).2) ∧
        (Codec.pack d.tcode E).length ≤ 245 := by
  have hok : s.cfg.eventOk d = true := hI.eventOk hd
  obtain ⟨E, u, hE, hlen⟩ := hI.eventElems_ok hok
  have hfit := ((fitsReply_iff _ _).1 (eventOk_fitsReply hok)).2
  refine ⟨E, u, hE, by simp only [eventOps, hE], ?_⟩
  rw [pack_length, hlen]
  omega

/-! ## The invariant through an event's change -/

theorem EventOk.clearPending {c : Cfg} {v : Byte} {d : EventDesc} {ev : EventState} (h : EventOk c v d ev) :
    EventOk c v d { ev with pending := false } :=
  { h with pending_poll := by simp }

theorem Inv.setEvent (hI : Inv s) {e : Nat} {ev : EventState}
    (hev : ∀ d, s.cfg.events[e]? = some d → EventOk s.cfg (opctrl s) d ev) : Inv (setEvent e ev s) :=
  { hI with
    evs_length := by simpa [Machine.setEvent] using hI.evs_length
    evs_ok := by
      intro k d x hd hx
      simp only [Machine.setEvent, State.setEvs_evs, List.getElem?_set] at hx
      split at hx
      · split at hx
        · cases hx; subst_vars; exact hev d hd
        · cases hx
      · exact hI.evs_ok k d x hd hx }

/-! ## Frames that decode -/

theorem onlyOk_ok {i j : Instr} (h : onlyOk i = .ok j) : i = j ∧ i.ok = true := by
  unfold onlyOk at h
  split at h
  · cases h; exact ⟨rfl, ‹_›⟩
  · cases h

theorem outbound?_of_replyInstr {mt : Byte} {o : OutOps} {i : Instr} (h : replyInstr mt o = .ok i) :
    i.outbound? = some (mt, o) := by
  unfold replyInstr at h
  split_ifs at h <;> cases h <;> subst_vars <;> rfl

theorem outbound?_of_notificationInstr {mt : Byte} {o : OutOps} {i : Instr} (h : notificationInstr mt o = .ok i) :
    i.outbound? = some (mt, o) := by
  unfold notificationInstr at h
  split_ifs at h
  cases h; subst_vars; rfl

/-- The payload of a well-formed outbound instruction fits its length byte (30_encoding.md R87). -/
theorem payload_le_of_outbound {i : Instr} {mt : Byte} {o : OutOps} (hok : i.ok = true)
    (ho : i.outbound? = some (mt, o)) : o.payload.length ≤ 245 := by
  have h := (Laws.fits i hok).2 mt o ho
  simp only [OutOps.errorOk, Bool.and_eq_true, decide_eq_true_eq] at h
  exact h.2

/-- An outbound frame decodes to the row of its messageType, and its payload fits; `row` is how a format names the
rows (30_encoding.md R70). -/
theorem decodeOut_row_ok {row : Byte → OutOps → Except DecodeError Instr}
    (hrow : ∀ {mt o i}, row mt o = .ok i → i.outbound? = some (mt, o)) {F : Frame} {i : Instr}
    (h : ((decodeOut F).bind fun p => row p.1 p.2).bind onlyOk = .ok i) :
    ∃ mt o, decodeOut F = .ok (mt, o) ∧ row mt o = .ok i ∧ o.payload.length ≤ 245 := by
  rcases hF : decodeOut F with _ | ⟨mt, o⟩
  · simp [hF, Except.bind] at h
  · rcases hj : row mt o with _ | j
    · simp [hF, hj, Except.bind] at h
    · obtain ⟨rfl, hok⟩ := onlyOk_ok (by simpa [hF, hj, Except.bind] using h)
      exact ⟨mt, o, rfl, hj, payload_le_of_outbound hok (hrow hj)⟩

theorem decodeAs_reply_ok {c : Cfg} {R : Frame} {i : Instr} (h : decodeAs .reply c R = .ok i) :
    ∃ mt o, decodeOut R = .ok (mt, o) ∧ replyInstr mt o = .ok i ∧ o.payload.length ≤ 245 :=
  decodeOut_row_ok outbound?_of_replyInstr h

theorem decodeAs_notification_ok {c : Cfg} {F : Frame} {i : Instr} (h : decodeAs .notification c F = .ok i) :
    ∃ mt o, decodeOut F = .ok (mt, o) ∧ notificationInstr mt o = .ok i ∧ o.payload.length ≤ 245 :=
  decodeOut_row_ok outbound?_of_notificationInstr h

/-- DISP runs a request's frame as the next phase of that request (44_dispatch.md R158). -/
theorem runRequest_eq {F : Frame} {r : Request} (h : decodeRequest F = .ok r) (s : State) :
    runRequest F s = requestStep r s := by
  have hdec : decodeAs .request s.cfg F = .ok r.byMessageType := by simp [decodeAs, h, Except.map]
  simp only [runRequest, hdec]
  exact exec_of_request (request?_byMessageType r) s

/-! ## DISP goes on -/

theorem takeAccessError_goesOn (cause : Cause) (r : Request) (ts : Stamp) (s : State) :
    GoesOn (takeAccessError cause r ts s) := by
  rw [takeAccessError_eq]
  exact goesOn_ite (goesOn_next _) (goesOn_next _)

/-- BUILD never refuses: a reply with a register's elements fits (44_dispatch.md R163, 00_scope.md R8 (d)). -/
theorem Inv.buildPhase_goesOn (hI : Inv s) (r : Request) (res : Res) (ts : Stamp) :
    GoesOn (buildPhase r res ts s) := by
  obtain ⟨cause, -, h⟩ | ⟨cause, -, -, h⟩ | ⟨E, t, -, hread, h⟩ := buildPhase_cases r res ts s
  · rw [h]; exact takeAccessError_goesOn cause r ts s
  · rw [h]; exact takeAccessError_goesOn cause r ts s
  · rw [h, replyFrame_eq r E ts (hI.regRead_fits hread)]
    exact goesOn_next _

theorem Inv.requestStep_goesOn (hI : Inv s) (r : Request) : GoesOn (requestStep r s) := by
  unfold requestStep
  cases s.disp with
  | build F res ts => exact hI.buildPhase_goesOn r res ts
  | idle => exact goesOn_next _
  | exec F => exact goesOn_next _
  | stamp F res => exact goesOn_next _
  | send R => exact goesOn_next _
  | sync => exact goesOn_next _
  | poll k => exact goesOn_next _

theorem Inv.runRequest_goesOn (hI : Inv s) {F : Frame} (hF : IsRequest F) : GoesOn (runRequest F s) := by
  obtain ⟨r, hr⟩ := hF
  rw [runRequest_eq hr]
  exact hI.requestStep_goesOn r

theorem runReply_goesOn {R : Frame} (hdisp : s.disp = .send R) (hR : IsReply s.cfg R) : GoesOn (runReply R s) := by
  obtain ⟨i, hi⟩ := hR
  obtain ⟨mt, o, -, hrow, hfit⟩ := decodeAs_reply_ok hi
  simp only [runReply, hi]
  rw [exec_of_replyInstr hrow, sendPhase_eq hdisp hfit]
  exact goesOn_next _

/-- The service of a pending poll event never stops: its register is there and its frame fits (45_events.md R184). -/
theorem Inv.pollService_goesOn {e : Nat} {d : EventDesc} {ev : EventState}
    (hI : Inv (Machine.setEvent e { ev with pending := false } s)) (hd : s.cfg.events[e]? = some d) :
    GoesOn (pollService e d ev s) := by
  unfold pollService
  dsimp only
  split
  · exact goesOn_next _
  · obtain ⟨E, u, -, hops, hfit⟩ := hI.eventOps_ok hd
    rw [hops]
    change GoesOn (notify _ _)
    rw [notify_eq _ hfit]
    exact goesOn_next _

theorem Inv.pollPhase_goesOn (hI : Inv s) (k : Nat) : GoesOn (pollPhase k s) := by
  unfold pollPhase
  split
  · rename_i d ev hd hev
    dsimp only
    split
    · have hk : k < s.cfg.events.length := (List.getElem?_eq_some_iff.1 hd).1
      have hdisp : Inv (s.setDisp (.poll (k + 1))) := hI.setDisp hk
      have hclear : EventOk s.cfg (opctrl s) d { ev with pending := false } := (hI.evs_ok k d ev hd hev).clearPending
      refine Inv.pollService_goesOn (hdisp.setEvent fun d' hd' => ?_) hd
      obtain rfl : d = d' := Option.some.inj (hd.symm.trans hd')
      exact hclear
    · exact goesOn_next _
  · exact goesOn_next _

/-- Whatever DISP's phase, its step goes on (44_dispatch.md R158, R174). -/
theorem Inv.dispStep_goesOn (hI : Inv s) : GoesOn (dispStep s) := by
  have hphase := hI.disp_ok
  unfold dispStep
  cases hdisp : s.disp <;> rw [hdisp] at hphase
  case idle =>
    cases hq : s.rxq with
    | nil => exact goesOn_ite (goesOn_next _) (goesOn_next _)
    | cons F q => exact hI.runRequest_goesOn (hI.rxq_requests F (by simp [hq]))
  case exec F => exact hI.runRequest_goesOn hphase
  case stamp F res => exact hI.runRequest_goesOn hphase
  case build F res ts => exact hI.runRequest_goesOn hphase
  case send R => exact runReply_goesOn hdisp hphase
  case sync => exact goesOn_next _
  case poll k => exact hI.pollPhase_goesOn k

/-! ## The other agents go on -/

/-- A trigger never stops: the event's payload is there and its frame fits (45_events.md R180). -/
theorem Inv.fireStep_goesOn (hI : Inv s) (e : Nat) : GoesOn (fireStep e s) := by
  unfold fireStep
  split
  · rename_i d ev hd hev
    split
    · exact goesOn_next _
    · obtain ⟨E, u, -, hops, hfit⟩ := hI.eventOps_ok hd
      simp only [hops, builtFrame_eq, if_pos hfit]
      exact goesOn_next _
  · exact goesOn_next _

/-- A fire in progress has a frame staged, and it is one the append can run (45_events.md R181, R185). -/
theorem Inv.staged_of_busy (hI : Inv s) {e : Nat} {ev : EventState} (hev : s.evs[e]? = some ev)
    (hbusy : ev.busy = true) : ∃ F, ev.stage = some F ∧ IsNotification s.cfg F := by
  have hlt : e < s.cfg.events.length := hI.evs_length ▸ (List.getElem?_eq_some_iff.1 hev).1
  have hok := hI.evs_ok e _ ev (List.getElem?_eq_getElem hlt) hev
  obtain ⟨F, hF⟩ := Option.isSome_iff_exists.1 (hok.busy_staged.symm.trans hbusy)
  exact ⟨F, hF, hok.staged F hF⟩

theorem Inv.appendStep_goesOn (hI : Inv s) (e : Nat) : GoesOn (appendStep e s) := by
  unfold appendStep
  cases hev : s.evs[e]? with
  | none => exact goesOn_next _
  | some ev =>
    cases hbusy : ev.busy with
    | false => simp [hbusy]
    | true =>
      obtain ⟨F, hF, i, hi⟩ := hI.staged_of_busy hev hbusy
      obtain ⟨mt, o, -, hrow, hfit⟩ := decodeAs_notification_ok hi
      simp only [hbusy, hF, hi, Bool.not_true, Bool.false_eq_true, if_false]
      rw [exec_of_notificationInstr hrow, notify_eq _ hfit]
      exact goesOn_next _

theorem rxStep_goesOn (s : State) : GoesOn (rxStep s) := by
  obtain ⟨bs, r, q, h⟩ := rxStep_frame s
  exact ⟨_, h⟩

theorem txStep_goesOn (s : State) : GoesOn (txStep s) := by
  obtain ⟨-, h⟩ | ⟨F, q, -, h⟩ := txStep_cases s
  · exact ⟨_, h⟩
  · exact ⟨_, h⟩

/-- Whoever is chosen, the step goes on (45_events.md R191). -/
theorem Inv.agentStep_goesOn (hI : Inv s) (m : Move) : GoesOn (agentStep m s) := by
  cases m with
  | rx => exact goesOn_ite (rxStep_goesOn s) (goesOn_next s)
  | tx => exact goesOn_ite (txStep_goesOn s) (goesOn_next s)
  | disp => exact goesOn_ite (goesOn_next s) hI.dispStep_goesOn
  | fire e => exact hI.fireStep_goesOn e
  | append e => exact hI.appendStep_goesOn e
  | tick e => exact goesOn_next _
  | envByte b => exact goesOn_next _
  | envTick r => exact goesOn_next _
  | envPin v => exact goesOn_next _

/-- Choosing who steps keeps the invariant. -/
theorem Inv.chooseMove (hI : Inv s) : Inv (chooseMove s).2 := by
  obtain ⟨ms, n, h⟩ := chooseMove_frame s
  rw [h]
  exact (hI.setMoves ms).setFreeCount n

/-- Settles O54: the choice keeps the invariant, and under it every agent's step goes on. -/
theorem aStepNeverStops : Obligations.AStepNeverStops := by
  unfold Obligations.AStepNeverStops
  intro s hI
  exact hI.chooseMove.agentStep_goesOn _

end Sys2Proof.Machine
end

section
/-! PROOFS. An observation holds what RegRead returns (00_scope.md R18, 43_registers.md R140). -/
namespace Sys2Proof.Machine

/-- The register readings that succeed are the reads that RegRead answers: a read succeeds only with the type code of
the cell that the address decoder gives, and that cell is observed. -/
theorem ok_mem_regs_iff {s : State} {a tc : Byte} {E : List Pattern} :
    ⟨a, tc, .ok E⟩ ∈ (observe s).regs ↔ (regRead a tc s).1 = .ok E := by
  rw [mem_regs]
  constructor
  · rintro ⟨c, -, hc⟩
    simp only [reading, Reading.mk.injEq] at hc
    obtain ⟨rfl, rfl, hread⟩ := hc
    exact hread
  · intro h
    obtain ⟨c, hc, rfl, -⟩ := regRead_ok (Prod.ext h rfl)
    obtain ⟨hmem, rfl⟩ := cellAt_mem hc
    exact ⟨c, hmem, by rw [reading, h]⟩

/-- TIMESTAMP_SECOND is at address 8 in every configuration (10_state.md R24). -/
theorem cellAt_seconds (c : Cfg) : c.cellAt 8 = some ⟨8, .tsSec, 0x04, 1⟩ := rfl

/-- TIMESTAMP_MICRO is at address 9 in every configuration (10_state.md R24). -/
theorem cellAt_micro (c : Cfg) : c.cellAt 9 = some ⟨9, .tsMicro, 0x02, 1⟩ := rfl

theorem regRead_seconds (s : State) :
    regRead 8 0x04 s = (.ok [(clockRead s).1.sec.setWidth 64], (clockRead s).2) := by
  unfold regRead; rw [cellAt_seconds]; rfl

theorem regRead_micro (s : State) :
    regRead 9 0x02 s = (.ok [(clockRead s).1.ticks.setWidth 64], (clockRead s).2) := by
  unfold regRead; rw [cellAt_micro]; rfl

/-- A read of a pin register as U8 is one draw of its pin's input level (43_registers.md R152). -/
theorem regRead_pin {s : State} {a : Byte} {d : Cell} {p : Nat} (hd : s.cfg.cellAt a = some d)
    (hv : d.variant = .pin p) :
    regRead a 0x01 s = (.ok [if (drawPin p s).1 then 1 else 0], (drawPin p s).2) := by
  obtain ⟨-, -, -, hpin⟩ := special_cells (cellAt_mem hd).1
  simp [regRead, hd, hv, readPin, hpin p hv]

/-- Settles O59: a reading is a read, and the reads of the clock and pin cells have their values; the other parts are
the state's own fields. -/
theorem theObservationIsWhatRegReadReturns : Obligations.TheObservationIsWhatRegReadReturns := by
  unfold Obligations.TheObservationIsWhatRegReadReturns
  intro s
  refine ⟨fun a tc E => ok_mem_regs_iff, ?_, ?_, fun a d p hd hv => ?_, rfl, rfl, rfl, rfl, rfl, rfl⟩
  · rw [ok_mem_regs_iff, regRead_seconds]
  · rw [ok_mem_regs_iff, regRead_micro]
  · rw [ok_mem_regs_iff, regRead_pin hd hv]

end Sys2Proof.Machine
end

section
/-! PROOFS. What a step can do: one inversion lemma for all agents, `Stepped.of_agentStep`. Statements about every step
are case splits on it. -/
namespace Sys2Proof.Machine

variable {s t : State}

/-! ## The operations of DISP, when they go on -/

/-- A notification that is appended is the frame of its fields (45_events.md R176). -/
theorem notify_next {o : OutOps} (h : notify o s = .next t) : t = appendTx (o.frame 0x03) s := by
  unfold notify at h
  rw [builtFrame_eq] at h
  split_ifs at h
  cases h
  rfl

/-- An access error that is taken ends in the sticky fault or in an ERROR reply (44_dispatch.md R166, R168). -/
theorem takeAccessError_next {cause : Cause} {r : Request} {ts : Stamp} (h : takeAccessError cause r ts s = .next t) :
    (245 < r.payload.length ∧ t = (s.setFaultReplyLen true).setDisp .sync) ∨
      (r.payload.length ≤ 245 ∧
        t = s.setDisp (.send (OutOps.frame (r.kind.byte ||| 0x08) ⟨r.addr, r.tc, ts, errorPayload r⟩))) := by
  rw [takeAccessError_eq] at h
  split_ifs at h with hfit
  · cases h; exact .inr ⟨hfit, rfl⟩
  · cases h; exact .inl ⟨not_le.1 hfit, rfl⟩

/-- BUILD that goes on ends in the sticky fault, in an ERROR reply, or in a reply with what the register read gave
(44_dispatch.md R161 to R168). -/
theorem buildPhase_next {r : Request} {res : Res} {ts : Stamp} (h : buildPhase r res ts s = .next t) :
    (245 < r.payload.length ∧ t = (s.setFaultReplyLen true).setDisp .sync) ∨
      (r.payload.length ≤ 245 ∧
        t = s.setDisp (.send (OutOps.frame (r.kind.byte ||| 0x08) ⟨r.addr, r.tc, ts, errorPayload r⟩))) ∨
      ∃ E u R, regRead r.addr r.tc s = (.ok E, u) ∧ replyFrame r E ts = some R ∧ t = u.setDisp (.send R) := by
  obtain ⟨cause, -, hb⟩ | ⟨cause, -, -, hb⟩ | ⟨E, u, -, hread, hb⟩ := buildPhase_cases r res ts s
  · exact (takeAccessError_next (hb ▸ h)).imp_right .inl
  · exact (takeAccessError_next (hb ▸ h)).imp_right .inl
  · rw [hb] at h
    cases hR : replyFrame r E ts with
    | none => simp [hR] at h
    | some R =>
      rw [hR] at h
      cases h
      exact .inr (.inr ⟨E, u, R, hread, hR, rfl⟩)

/-! ## Frames that are built again as they were -/

theorem typeCodeOk_of_decodeOut {F : Frame} {mt : Byte} {o : OutOps} (h : decodeOut F = .ok (mt, o)) :
    typeCodeOk o.tc = true := by
  unfold decodeOut at h
  split at h
  · cases h
  · split_ifs at h
    cases h
    exact Codec.typeCodeOk_tcode _

/-- The frame that SEND builds from the fields of a reply is a reply (45_events.md R185). -/
theorem isReply_frame_of_decodeAs {c : Cfg} {R : Frame} {i : Instr} (h : decodeAs .reply c R = .ok i) :
    ∃ mt o, replyInstr mt o = .ok i ∧ o.payload.length ≤ 245 ∧ IsReply c (o.frame mt) := by
  obtain ⟨mt, o, hR, hrow, hfit⟩ := decodeAs_reply_ok h
  have hframe := decodeOut_frame mt o (typeCodeOk_of_decodeOut hR) hfit
  refine ⟨mt, o, hrow, hfit, i, ?_⟩
  simp only [decodeAs, hframe, ← hR]
  exact h

/-- The frame that ISR(e) appends, built from the fields of a notification, is a notification (45_events.md R185). -/
theorem isNotification_frame_of_decodeAs {c : Cfg} {F : Frame} {i : Instr} (h : decodeAs .notification c F = .ok i) :
    ∃ o, (∀ s, exec i s = notify o s) ∧ IsNotification c (o.frame 0x03) := by
  obtain ⟨mt, o, hF, hrow, hfit⟩ := decodeAs_notification_ok h
  have hmt : mt = 0x03 := by
    unfold notificationInstr at hrow
    split_ifs at hrow with hmt
    exact hmt
  subst hmt
  have hframe := decodeOut_frame 0x03 o (typeCodeOk_of_decodeOut hF) hfit
  refine ⟨o, exec_of_notificationInstr hrow, i, ?_⟩
  simp only [decodeAs, hframe, ← hF]
  exact h

/-! ## One atomic step -/

/-- What one atomic step of an agent can make of `s`: a constructor for each way that a step goes on, with what was
checked on that way. -/
inductive Stepped (s : State) : State → Prop
  /-- A step that is not enabled (log 4). -/
  | stutter : Stepped s s
  | rx {t : State} (h : rxStep s = .next t) : Stepped s t
  | tx {F q} (hq : s.txq = F :: q) : Stepped s ((s.setTxq q).setTxOut (s.txOut ++ F))
  /-- DISP leaves IDLE for a pending poll tick. -/
  | wake (hdisp : s.disp = .idle) : Stepped s (s.setDisp .sync)
  | pop {F q} (hdisp : s.disp = .idle) (hq : s.rxq = F :: q) : Stepped s ((s.setRxq q).setDisp (.exec F))
  | exec {F r} (hdisp : s.disp = .exec F) (hF : decodeRequest F = .ok r) : Stepped s (execPhase r F s)
  | stamp {F res} (hdisp : s.disp = .stamp F res) : Stepped s (stampPhase F res s)
  /-- BUILD, when the ERROR reply does not fit (44_dispatch.md R168). -/
  | overflow {F res ts r} (hdisp : s.disp = .build F res ts) (hF : decodeRequest F = .ok r)
      (hlen : 245 < r.payload.length) : Stepped s ((s.setFaultReplyLen true).setDisp .sync)
  | errorReply {F res ts r} (hdisp : s.disp = .build F res ts) (hF : decodeRequest F = .ok r)
      (hlen : r.payload.length ≤ 245) :
      Stepped s (s.setDisp (.send (OutOps.frame (r.kind.byte ||| 0x08) ⟨r.addr, r.tc, ts, errorPayload r⟩)))
  | reply {F res ts r E u R} (hdisp : s.disp = .build F res ts) (hF : decodeRequest F = .ok r)
      (hread : regRead r.addr r.tc s = (.ok E, u)) (hR : replyFrame r E ts = some R) : Stepped s (u.setDisp (.send R))
  | send {mt o} (hR : IsReply s.cfg (OutOps.frame mt o)) : Stepped s ((appendTx (o.frame mt) s).setDisp .sync)
  | sync (hdisp : s.disp = .sync) : Stepped s (syncPhase s)
  | pollEnd {k} (hdisp : s.disp = .poll k) : Stepped s (s.setDisp .idle)
  | pollNext {k d} (hdisp : s.disp = .poll k) (hd : s.cfg.events[k]? = some d) : Stepped s (s.setDisp (.poll (k + 1)))
  /-- The service of a disabled event takes the tick and sends nothing (45_events.md R184). -/
  | pollClear {k d ev} (hdisp : s.disp = .poll k) (hd : s.cfg.events[k]? = some d) (hev : s.evs[k]? = some ev) :
      Stepped s (setEvent k { ev with pending := false } (s.setDisp (.poll (k + 1))))
  | pollServe {k d ev o u} (hdisp : s.disp = .poll k) (hd : s.cfg.events[k]? = some d) (hev : s.evs[k]? = some ev)
      (ho : eventOps d (setEvent k { ev with pending := false } (s.setDisp (.poll (k + 1)))) = (.ok o, u)) :
      Stepped s (appendTx (o.frame 0x03) u)
  | fire {e d ev o u} (hd : s.cfg.events[e]? = some d) (hev : s.evs[e]? = some ev) (hkind : d.kind ≠ .poll)
      (ho : eventOps d s = (.ok o, u)) :
      Stepped s (setEvent e { ev with stage := some (o.frame 0x03), busy := true } u)
  | append {e ev o} (hev : s.evs[e]? = some ev) (hF : IsNotification s.cfg (OutOps.frame 0x03 o)) :
      Stepped s (appendTx (o.frame 0x03) (setEvent e { ev with stage := none, busy := false } s))
  | tick {e d ev} (hd : s.cfg.events[e]? = some d) (hev : s.evs[e]? = some ev) (hkind : d.kind = .poll) :
      Stepped s (setEvent e { ev with pending := true } s)
  | envByte (b : Byte) : Stepped s (s.setRxIn (s.rxIn ++ [b]))
  | envTick (r : Tick) : Stepped s (s.setTickIn (s.tickIn ++ [r]))
  | envPin (v : Bool) : Stepped s (s.setPinIn (s.pinIn ++ [v]))

/-- A frame that DISP runs as a request is one, and the run is the request's next phase. -/
theorem runRequest_next {F : Frame} (h : runRequest F s = .next t) :
    ∃ r, decodeRequest F = .ok r ∧ requestStep r s = .next t := by
  cases hF : decodeRequest F with
  | ok r => exact ⟨r, rfl, runRequest_eq hF s ▸ h⟩
  | error e => simp [runRequest, decodeAs, hF, Except.map] at h

theorem Stepped.of_buildPhase {F : Frame} {r : Request} {res : Res} {ts : Stamp} (hdisp : s.disp = .build F res ts)
    (hF : decodeRequest F = .ok r) (h : buildPhase r res ts s = .next t) : Stepped s t := by
  obtain ⟨hlen, rfl⟩ | ⟨hlen, rfl⟩ | ⟨E, u, R, hread, hR, rfl⟩ := buildPhase_next h
  · exact .overflow hdisp hF hlen
  · exact .errorReply hdisp hF hlen
  · exact .reply hdisp hF hread hR

theorem Stepped.of_runReply {R : Frame} (hdisp : s.disp = .send R) (h : runReply R s = .next t) : Stepped s t := by
  unfold runReply at h
  split at h
  · rename_i i hi
    obtain ⟨mt, o, hrow, hfit, hR⟩ := isReply_frame_of_decodeAs hi
    rw [exec_of_replyInstr hrow, sendPhase_eq hdisp hfit] at h
    cases h
    exact .send hR
  · cases h

theorem Stepped.of_pollPhase {k : Nat} (hdisp : s.disp = .poll k) (h : pollPhase k s = .next t) : Stepped s t := by
  unfold pollPhase at h
  split at h
  · rename_i d ev hd hev
    dsimp only at h
    split at h
    · unfold pollService at h
      dsimp only at h
      split at h
      · cases h; exact .pollClear hdisp hd hev
      · split at h
        · cases h
        · rename_i o u ho
          obtain rfl : t = _ := notify_next h
          exact .pollServe hdisp hd hev ho
    · cases h; exact .pollNext hdisp hd
  · cases h; exact .pollEnd hdisp

theorem Stepped.of_dispStep (h : dispStep s = .next t) : Stepped s t := by
  unfold dispStep at h
  cases hdisp : s.disp <;> simp only [hdisp] at h
  case idle =>
    cases hq : s.rxq with
    | nil =>
      simp only [hq] at h
      split_ifs at h
      · cases h; exact .wake hdisp
      · cases h; exact .stutter
    | cons F q =>
      simp only [hq] at h
      obtain ⟨r, -, hr⟩ := runRequest_next h
      simp only [requestStep, hdisp, popPhase, hq, queuePop] at hr
      cases hr
      exact .pop hdisp hq
  case exec F =>
    obtain ⟨r, hF, hr⟩ := runRequest_next h
    simp only [requestStep, hdisp] at hr
    cases hr
    exact .exec hdisp hF
  case stamp F res =>
    obtain ⟨r, -, hr⟩ := runRequest_next h
    simp only [requestStep, hdisp] at hr
    cases hr
    exact .stamp hdisp
  case build F res ts =>
    obtain ⟨r, hF, hr⟩ := runRequest_next h
    simp only [requestStep, hdisp] at hr
    exact .of_buildPhase hdisp hF hr
  case send R => exact .of_runReply hdisp h
  case sync => cases h; exact .sync hdisp
  case poll k => exact .of_pollPhase hdisp h

theorem Stepped.of_appendStep {e : Nat} (h : appendStep e s = .next t) : Stepped s t := by
  unfold appendStep at h
  cases hev : s.evs[e]? with
  | none => simp only [hev] at h; cases h; exact .stutter
  | some ev =>
    simp only [hev] at h
    split at h
    · cases h; exact .stutter
    · split at h
      · cases h
      · split at h
        · rename_i i hi
          obtain ⟨o, hrun, hF⟩ := isNotification_frame_of_decodeAs hi
          obtain rfl := notify_next ((hrun _).symm.trans h)
          exact .append hev hF
        · cases h

/-- Every step of an agent that goes on is one of the ways of `Stepped`. -/
theorem Stepped.of_agentStep {m : Move} (h : agentStep m s = .next t) : Stepped s t := by
  cases m <;> simp only [agentStep] at h
  case rx =>
    split_ifs at h
    · exact .rx h
    · cases h; exact .stutter
  case tx =>
    split_ifs at h
    · obtain ⟨-, htx⟩ | ⟨F, q, hq, htx⟩ := txStep_cases s
      · cases htx.symm.trans h; exact .stutter
      · cases htx.symm.trans h; exact .tx hq
    · cases h; exact .stutter
  case disp =>
    split_ifs at h
    · cases h; exact .stutter
    · exact .of_dispStep h
  case fire e =>
    obtain rfl | ⟨d, ev, o, u, hd, hev, hkind, -, -, ho, rfl⟩ := fireStep_cases h
    · exact .stutter
    · exact .fire hd hev hkind ho
  case append e => exact .of_appendStep h
  case tick e =>
    cases h
    obtain hs | ⟨d, ev, hd, hev, hkind, -, hs⟩ := tickStep_cases e s
    · rw [hs]; exact .stutter
    · rw [hs]; exact .tick hd hev hkind
  case envByte b => cases h; exact .envByte b
  case envTick r => cases h; exact .envTick r
  case envPin v => cases h; exact .envPin v

/-- A step is an agent's, from the state in which the choice is used up. -/
theorem Stepped.of_step (h : step s = .next t) : ∃ ms n, Stepped ((s.setMoves ms).setFreeCount n) t := by
  obtain ⟨ms, n, hchoose⟩ := chooseMove_frame s
  exact ⟨ms, n, hchoose ▸ .of_agentStep h⟩

end Sys2Proof.Machine
end

section
/-! PROOFS. What a step leaves as it is: the registers change in EXEC of a WRITE only (43_registers.md R141,
60_exceptions.md R196), and the sticky fault in an overflowing BUILD only (10_state.md R40). -/
namespace Sys2Proof.Machine

variable {s t : State}

theorem Sampled.store_eq (h : Sampled s t) : t.store = s.store := by
  obtain ⟨c, ti, pi, n, rfl⟩ := h; rfl

theorem Sampled.faultReplyLen_eq (h : Sampled s t) : t.faultReplyLen = s.faultReplyLen := by
  obtain ⟨c, ti, pi, n, rfl⟩ := h; rfl

theorem sampled_of_eventOps {d : EventDesc} {o : OutOps} (h : eventOps d s = (.ok o, t)) : Sampled s t := by
  have := sampled_eventOps d s
  rwa [h] at this

theorem sampled_of_regRead {a tc : Byte} {x : Except Cause (List Pattern)} (h : regRead a tc s = (x, t)) :
    Sampled s t := by
  have := sampled_regRead a tc s
  rwa [h] at this

/-! ## What a write changes -/

theorem tupleAt_congr {a : Byte} (h : t.store = s.store) : tupleAt t a = tupleAt s a := by
  rw [tupleAt, tupleAt, h]

/-- A store replaces the tuple of its own address and no other (43_registers.md R139). -/
theorem tupleAt_storeTuple (a b : Byte) (E : List Pattern) (s : State) :
    tupleAt (storeTuple a E s) b = if a = b then E else tupleAt s b := by
  by_cases h : a = b
  · simp [tupleAt, storeTuple, h]
  · simp [tupleAt, storeTuple, keyedGet_keyedSet_other _ _ _ _ (mt BitVec.eq_of_toNat_eq h), h]

/-- A write that passed its checks changes no tuple but its own cell's (43_registers.md R139). -/
theorem tupleAt_writeCell_other {c : Cell} {a : Byte} (E : List Pattern) (h : c.addr ≠ a) :
    tupleAt (writeCell c E s) a = tupleAt s a := by
  have stored : tupleAt (storeTuple c.addr E s) a = tupleAt s a := (tupleAt_storeTuple _ _ _ _).trans (if_neg h)
  unfold writeCell
  split
  · rfl
  · rfl
  · exact stored
  · exact stored
  · exact tupleAt_congr (sampled_clockWrite _ s).store_eq
  · rfl

theorem writeCell_faultReplyLen (c : Cell) (E : List Pattern) (s : State) :
    (writeCell c E s).faultReplyLen = s.faultReplyLen := by
  unfold writeCell
  split
  case h_5 => exact (sampled_clockWrite _ s).faultReplyLen_eq
  all_goals rfl

/-- EXEC changes a tuple only for a WRITE to its address that passes every check (43_registers.md R141). -/
theorem execPhase_changes {r : Request} {F : Frame} {a : Byte} (h : tupleAt (execPhase r F s) a ≠ tupleAt s a) :
    r.kind = .write ∧ r.addr = a ∧ (execPhase r F s).disp = .stamp F .ok := by
  rw [execPhase_eq] at h ⊢
  split_ifs at h ⊢ with hk
  · rcases hw : regWrite r.addr r.tc (reqElems r) s with ⟨res, u⟩
    rw [hw] at h
    obtain ⟨cause, -, rfl⟩ | ⟨c, hc, -, -, -, rfl, rfl⟩ := regWrite_cases hw
    · exact absurd rfl h
    · refine ⟨hk, ?_, rfl⟩
      by_contra hne
      exact h (tupleAt_writeCell_other _ ((cellAt_mem hc).2 ▸ hne))
  · exact absurd rfl h

theorem execPhase_faultReplyLen (r : Request) (F : Frame) (s : State) :
    (execPhase r F s).faultReplyLen = s.faultReplyLen := by
  rw [execPhase_eq]
  split_ifs
  · rcases hw : regWrite r.addr r.tc (reqElems r) s with ⟨res, u⟩
    obtain ⟨cause, -, rfl⟩ | ⟨c, -, -, -, -, -, rfl⟩ := regWrite_cases hw
    · rfl
    · exact writeCell_faultReplyLen c _ s
  · rfl

/-! ## Every step -/

/-- The steps other than EXEC change no stored tuple. -/
theorem Stepped.store_eq (h : Stepped s t) :
    t.store = s.store ∨ ∃ F r, s.disp = .exec F ∧ decodeRequest F = .ok r ∧ t = execPhase r F s := by
  cases h
  case exec F r hdisp hF => exact .inr ⟨F, r, hdisp, hF, rfl⟩
  case rx h =>
    obtain ⟨bs, r, q, hrx⟩ := rxStep_frame s
    cases hrx.symm.trans h
    exact .inl rfl
  case stamp => exact .inl (sampled_clockSample s).store_eq
  case reply hread _ => exact .inl (sampled_of_regRead hread).store_eq
  case pollServe ho => exact .inl (sampled_of_eventOps ho).store_eq
  case fire ho => exact .inl (sampled_of_eventOps ho).store_eq
  all_goals exact .inl rfl

/-- The steps other than a BUILD whose ERROR reply overflows leave fault_reply_len as it is. -/
theorem Stepped.faultReplyLen_eq (h : Stepped s t) :
    t.faultReplyLen = s.faultReplyLen ∨
      t.faultReplyLen = true ∧
        ∃ F res ts r, s.disp = .build F res ts ∧ decodeRequest F = .ok r ∧ 245 < r.payload.length := by
  cases h
  case overflow F res ts r hdisp hF hlen => exact .inr ⟨rfl, F, res, ts, r, hdisp, hF, hlen⟩
  case exec F r _ _ => exact .inl (execPhase_faultReplyLen r F s)
  case rx h =>
    obtain ⟨bs, r, q, hrx⟩ := rxStep_frame s
    cases hrx.symm.trans h
    exact .inl rfl
  case stamp => exact .inl (sampled_clockSample s).faultReplyLen_eq
  case reply hread _ => exact .inl (sampled_of_regRead hread).faultReplyLen_eq
  case pollServe ho => exact .inl (sampled_of_eventOps ho).faultReplyLen_eq
  case fire ho => exact .inl (sampled_of_eventOps ho).faultReplyLen_eq
  all_goals exact .inl rfl

/-- Settles O56: only EXEC changes the store, and EXEC only the tuple of its WRITE's address. -/
theorem onlyAWriteChangesARegister : Obligations.OnlyAWriteChangesARegister := by
  unfold Obligations.OnlyAWriteChangesARegister
  intro s t a hstep hne
  obtain ⟨ms, n, hs⟩ := Stepped.of_step hstep
  obtain hstore | ⟨F, r, hdisp, hF, rfl⟩ := hs.store_eq
  · exact absurd (tupleAt_congr hstore) hne
  · exact ⟨F, r, hdisp, hF, execPhase_changes hne⟩

/-! ## What the decoder answers fits a frame -/

/-- The payload region ends before the checksum, which is at most at offset 256 (30_encoding.md R68, R79). -/
theorem fields_payload_fits {F : Frame} {f : Codec.Fields} (h : Codec.fields F = some f) :
    Codec.payloadOffset f.pt + f.payload.length ≤ 256 := by
  unfold Codec.fields at h
  split at h
  · rename_i mt len a port pt rest
    cases h
    have hlen : len.toNat < 256 := len.isLt
    have hoff : Codec.payloadOffset pt ≤ 11 := by unfold Codec.payloadOffset; split <;> omega
    simp only [List.length_take]
    omega
  · cases h

/-- A request's fields are well formed (30_encoding.md R74, R85). -/
theorem request_ok_of_decodeRequest {F : Frame} {r : Request} (h : decodeRequest F = .ok r) : r.ok = true := by
  unfold decodeRequest at h
  split at h
  · split at h
    · cases h
    · split_ifs at h
      split at h
      · cases h
      · rename_i f hf
        cases h
        have hfit := fields_payload_fits hf
        simp only [Request.ok, Codec.typeCodeOk_tcode, Bool.true_and, requestFits_iff]
        cases hts : Codec.hasTs f.pt <;> simpa [Codec.payloadOffset, hts] using hfit
  · cases h

/-- A request of more than 245 payload bytes has no timestamp (30_encoding.md R85). -/
theorem ts_eq_none_of_long {r : Request} (hr : r.ok = true) (h : 245 < r.payload.length) : r.ts = none := by
  simp only [Request.ok, Bool.and_eq_true, requestFits_iff] at hr
  cases hts : r.ts with
  | none => rfl
  | some ts => simp only [hts, Codec.offsetOf_some] at hr; omega

/-- Settles O57: only an overflowing BUILD touches the fault, and it sets it. -/
theorem theOverflowFaultIsSticky : Obligations.TheOverflowFaultIsSticky := by
  unfold Obligations.TheOverflowFaultIsSticky
  intro s t hstep
  obtain ⟨ms, n, hs⟩ := Stepped.of_step hstep
  obtain hkeep | ⟨hset, F, res, ts, r, hdisp, hF, hlen⟩ := hs.faultReplyLen_eq
  · have hkeep : t.faultReplyLen = s.faultReplyLen := hkeep
    exact ⟨hkeep.trans, fun hclear hset => by simp [hkeep, hclear] at hset⟩
  · exact ⟨fun _ => hset, fun _ _ =>
      ⟨F, res, ts, r, hdisp, hF, hlen, ts_eq_none_of_long (request_ok_of_decodeRequest hF) hlen⟩⟩

end Sys2Proof.Machine
end

section
/-! PROOFS. Every step keeps the invariant (70_reset_and_hazards.md R215): a lemma for each operation, then a case split
on what a step can do. -/
namespace Sys2Proof.Machine

variable {s t : State}

/-! ## Frames the block builds -/

/-- Whole elements of a supported type code that fit the length byte are a reply's payload (44_dispatch.md R163). -/
theorem replyOk_pack {a tc : Byte} {E : List Pattern} (ts : Stamp) (htc : Codec.supported tc = true)
    (hfit : E.length * Codec.size tc + 10 ≤ 255) : OutOps.replyOk ⟨a, tc, ts, Codec.pack tc E⟩ = true := by
  have hle : E.length * Codec.size tc ≤ 245 := by omega
  simp [OutOps.replyOk, htc, pack_length, hle]

theorem onlyOk_of_ok {i : Instr} (h : i.ok = true) : onlyOk i = .ok i := if_pos h

theorem decodeOut_frame_of_errorOk {o : OutOps} (mt : Byte) (h : o.errorOk = true) :
    decodeOut (o.frame mt) = .ok (mt, o) := by
  simp only [OutOps.errorOk, Bool.and_eq_true, decide_eq_true_eq] at h
  exact decodeOut_frame mt o h.1 h.2

theorem isReply_frame {c : Cfg} {mt : Byte} {o : OutOps} {i : Instr} (hrow : replyInstr mt o = .ok i)
    (hok : i.ok = true) : IsReply c (o.frame mt) := by
  have hdec := decodeOut_frame_of_errorOk mt ((Laws.fits i hok).2 mt o (outbound?_of_replyInstr hrow))
  exact ⟨i, by simp [decodeAs, hdec, Except.bind, hrow, onlyOk_of_ok hok]⟩

theorem isNotification_frame {c : Cfg} {o : OutOps} (h : o.replyOk = true) : IsNotification c (o.frame 0x03) := by
  have hdec := decodeOut_frame_of_errorOk 0x03 (Laws.errorOk_of_replyOk o h)
  exact ⟨.eventNotify o, by simp only [decodeAs, hdec]; exact onlyOk_of_ok h⟩

/-- A success reply to any kind of request is a reply (44_dispatch.md R163). -/
theorem isReply_successFrame {c : Cfg} {o : OutOps} (k : Kind) (h : o.replyOk = true) : IsReply c (o.frame k.byte) := by
  cases k with
  | read => exact isReply_frame (i := .replyRead o) rfl h
  | write => exact isReply_frame (i := .replyWrite o) rfl h
  | event => exact isReply_frame (i := .replyEvent o) rfl h

/-- An ERROR reply to any kind of request is a reply (44_dispatch.md R166). -/
theorem isReply_errorFrame {c : Cfg} {o : OutOps} (k : Kind) (h : o.errorOk = true) :
    IsReply c (o.frame (k.byte ||| 0x08)) := by
  cases k with
  | read => exact isReply_frame (i := .errorRead o) rfl h
  | write => exact isReply_frame (i := .errorWrite o) rfl h
  | event => exact isReply_frame (i := .errorEvent o) rfl h

/-! ## Samples and reads -/

theorem Inv.clockSample (hI : Inv s) : Inv (clockSample s) :=
  hI.sampled (sampled_clockSample s) (hI.clock_nonneg.trans (clockTotal_le_clockSample s))

theorem Inv.drawPin (hI : Inv s) (p : Nat) : Inv (drawPin p s).2 := by
  obtain ⟨pi, n, h⟩ := drawPin_frame p s
  rw [h]
  exact (hI.setPinIn pi).setFreeCount n

theorem Inv.regRead {a tc : Byte} {x : Except Cause (List Pattern)} (hI : Inv s) (h : regRead a tc s = (x, t)) :
    Inv t := by
  cases x with
  | error cause => exact (regRead_error h).1 ▸ hI
  | ok E =>
    obtain ⟨c, -, -, ⟨-, -, rfl⟩ | ⟨-, -, rfl⟩ | ⟨-, -, rfl⟩ | ⟨p, -, -, rfl⟩⟩ := regRead_ok h
    · exact hI
    · exact hI.clockSample
    · exact hI.clockSample
    · exact hI.drawPin p

theorem Inv.eventElems (hI : Inv s) (d : EventDesc) : Inv (eventElems d s).2 := by
  unfold Machine.eventElems
  split
  · exact hI.regRead rfl
  · exact hI

theorem Inv.eventOps {d : EventDesc} {o : OutOps} (hI : Inv s) (h : eventOps d s = (.ok o, t)) : Inv t := by
  have helems := hI.eventElems d
  unfold Machine.eventOps at h
  rcases he : Machine.eventElems d s with ⟨_ | E, u⟩ <;> rw [he] at h helems
  · cases h
  · cases h; exact helems.clockSample

/-- What an event reports makes a frame the block builds (45_events.md R176, R185). -/
theorem Inv.isNotification_of_eventOps {k : Nat} {d : EventDesc} {o : OutOps} (hI : Inv s)
    (hd : s.cfg.events[k]? = some d) (h : Machine.eventOps d s = (.ok o, t)) :
    IsNotification s.cfg (o.frame 0x03) := by
  have hok := hI.eventOk hd
  obtain ⟨E, u, hE, hops, -⟩ := hI.eventOps_ok hd
  obtain ⟨E', u', hE', hlen⟩ := hI.eventElems_ok hok
  cases hE.symm.trans hE'
  cases hops.symm.trans h
  have hsupp : Codec.supported d.tcode = true := by
    simp only [Cfg.eventOk, Bool.and_eq_true] at hok
    exact hok.1.1
  exact isNotification_frame (replyOk_pack _ hsupp (hlen ▸ ((fitsReply_iff _ _).1 (eventOk_fitsReply hok)).2))

/-- BUILD's reply holds what the register read gave, and is a reply (44_dispatch.md R163). -/
theorem Inv.isReply_of_replyFrame {r : Request} {E : List Pattern} {ts : Stamp} {R : Frame} (hI : Inv s)
    (hread : Machine.regRead r.addr r.tc s = (.ok E, t)) (hR : replyFrame r E ts = some R) : IsReply s.cfg R := by
  have hfit := hI.regRead_fits hread
  obtain ⟨c, hc, htc, -⟩ := regRead_ok hread
  obtain ⟨-, -, -, hsupp, -⟩ := (cfg_wf_iff s.cfg).1 hI.cfg_ok
  rw [replyFrame_eq r E ts hfit] at hR
  cases hR
  exact isReply_successFrame (o := ⟨r.addr, r.tc, ts, Codec.pack r.tc E⟩) r.kind
    (replyOk_pack ts (htc ▸ hsupp c (cellAt_mem hc).1) hfit)

/-! ## The transmit queue -/

theorem Inv.appendTx {F : Frame} (hI : Inv s) (hF : IsReply s.cfg F ∨ IsNotification s.cfg F) : Inv (appendTx F s) := by
  obtain ⟨-, hcap, -⟩ := (cfg_wf_iff s.cfg).1 hI.cfg_ok
  refine { hI with txq_bounded := queueAppend_length_le F hcap hI.txq_bounded, txq_built := fun G hG => ?_ }
  obtain rfl | hG := mem_queueAppend hG
  · exact hF
  · exact hI.txq_built G hG

/-! ## RX -/

/-- A frame as long as its length byte says that passes both checks is a request (41_rxtx.md R115). -/
theorem isRequest_of_checks {mt len : Byte} {got : List Byte} (hmt : Codec.validateMessageType mt = true)
    (hlen : got.length = len.toNat) (hsum : Codec.validateChecksum (mt :: len :: got) = true)
    (hstruct : Codec.validateStructure (mt :: len :: got) = true) : IsRequest (mt :: len :: got) := by
  obtain ⟨k, hk⟩ := Option.isSome_iff_exists.1 ((Kind.ofByte?_isSome mt).trans hmt)
  have hfour : 4 ≤ got.length := by
    simp only [Codec.validateStructure, List.getElem?_cons_succ, List.getElem?_cons_zero, Bool.and_eq_true,
      decide_eq_true_eq] at hstruct
    exact hlen ▸ hstruct.1
  obtain ⟨f, hf⟩ : ∃ f, Codec.fields (mt :: len :: got) = some f := by
    match got, hfour with
    | a :: port :: pt :: _ :: _, _ => exact ⟨_, rfl⟩
  simp [IsRequest, decodeRequest, hk, hlen, hsum, hstruct, hf]

/-- Stage 2 of RX keeps the invariant if what passes its checks is a request (41_rxtx.md R112, R115). -/
theorem Inv.rxComplete (hI : Inv s) {r : Rx} (hreq : Codec.validateChecksum r.buf = true →
    Codec.validateStructure r.buf = true → IsRequest r.buf) : Inv (rxComplete (s.setRx r)) := by
  obtain h | ⟨hsum, hstruct, h⟩ := rxComplete_cases (s.setRx r)
  · rw [h]; exact hI.setRx .empty
  · obtain ⟨hcap, -⟩ := (cfg_wf_iff s.cfg).1 hI.cfg_ok
    rw [h]
    refine { hI with
      rx_ok := .empty
      rxq_bounded := queueAppend_length_le _ hcap hI.rxq_bounded
      rxq_requests := fun G hG => ?_ }
    obtain rfl | hG := mem_queueAppend hG
    · exact hreq hsum hstruct
    · exact hI.rxq_requests G hG

/-- The first header byte is kept (41_rxtx.md R109). -/
theorem rxHeader_first {b : Byte} (h : s.rx.buf = []) : rxHeader b s = .next (s.setRx ⟨.hdr, [b], 1⟩) := by
  simp [rxHeader, h]

/-- The second header byte completes the header: a valid one starts the body, which may be empty, and another is
discarded (41_rxtx.md R109, R110). -/
theorem rxHeader_second {mt len : Byte} (h : s.rx.buf = [mt]) :
    rxHeader len s =
      if Codec.validateMessageType mt then
        if len = 0 then .next (rxComplete (s.setRx ⟨.body, [mt, len], len.toNat⟩))
        else .next (s.setRx ⟨.body, [mt, len], len.toNat⟩)
      else .next (s.setRx ⟨.hdr, [], 2⟩) := by
  simp only [rxHeader, h, List.cons_append, List.nil_append, Codec.decodeHeader]
  rfl

theorem Inv.rxHeader_second {mt len : Byte} (hI : Inv s) (hbuf : s.rx.buf = [mt]) (h : rxHeader len s = .next t) :
    Inv t := by
  rw [Machine.rxHeader_second hbuf] at h
  split_ifs at h with hmt hzero
  · cases h
    exact hI.rxComplete (isRequest_of_checks (got := []) hmt (by simp [hzero]))
  · cases h
    have hpos : len.toNat ≠ 0 := fun h => hzero (BitVec.eq_of_toNat_eq h)
    exact hI.setRx (.body mt len [] len.toNat hmt (Nat.one_le_iff_ne_zero.2 hpos) (by simp))
  · cases h
    exact hI.setRx .empty

theorem Inv.rxBody {b mt len : Byte} {got : List Byte} {need : Nat} (hI : Inv s)
    (hrx : s.rx = ⟨.body, mt :: len :: got, need⟩) (hmt : Codec.validateMessageType mt = true) (hneed : 1 ≤ need)
    (hlen : got.length + need = len.toNat) (h : rxBody b s = .next t) : Inv t := by
  simp only [Machine.rxBody, hrx] at h
  split_ifs at h with hone
  · cases h
    exact hI.rxComplete (isRequest_of_checks (got := got ++ [b]) hmt (by simp; omega))
  · cases h
    exact hI.setRx (.body mt len (got ++ [b]) (need - 1) hmt (by omega) (by simp; omega))

/-- One byte taken by RX keeps the receive framing state one that bytes lead to (10_state.md R29). -/
theorem Inv.rxStep (hI : Inv s) (h : rxStep s = .next t) : Inv t := by
  unfold Machine.rxStep at h
  split at h
  · cases h; exact hI
  · rename_i b rest _
    have hrest := hI.setRxIn rest
    have hok := hI.rx_ok
    generalize hrx : s.rx = r at h hok
    cases hok with
    | empty =>
      rw [rxHeader_first (by simp [hrx])] at h
      cases h
      exact hrest.setRx (.first b)
    | first mt => exact hrest.rxHeader_second (mt := mt) (by simp [hrx]) h
    | body mt len got need hmt hneed hlen =>
      simp only [show need ≠ 0 by omega, if_false] at h
      exact hrest.rxBody hrx hmt hneed hlen h

/-! ## Writes -/

/-- No two cells have one address (00_scope.md R8 (b)). -/
theorem cell_eq_of_addr_eq {c : Cfg} (hc : c.wf = true) {x y : Cell} (hx : x ∈ c.cells) (hy : y ∈ c.cells)
    (h : x.addr = y.addr) : x = y := by
  obtain ⟨-, -, hnodup, -⟩ := (cfg_wf_iff c).1 hc
  exact List.inj_on_of_nodup_map hnodup hx hy h

/-- A decoded element has the width of its type code (40_codec.md R99). -/
theorem decodeElems_width {tc : Byte} {PB : List Byte} {p : Pattern} (h : p ∈ Codec.decodeElems tc PB) :
    p.toNat < 2 ^ (8 * Codec.size tc) := by
  obtain ⟨i, -, rfl⟩ := List.mem_map.1 h
  set B := (PB.drop (i * Codec.size tc)).take (Codec.size tc)
  calc (Codec.decodeElement B).toNat
      ≤ Codec.unle B := by simpa [Codec.decodeElement] using Nat.mod_le _ _
    _ < 256 ^ B.length := Codec.unle_lt B
    _ ≤ 256 ^ Codec.size tc := Nat.pow_le_pow_right (by omega) (List.length_take_le _ _)
    _ = 2 ^ (8 * Codec.size tc) := by rw [show 256 = 2 ^ 8 from rfl, ← pow_mul]

/-- Do the stored tuples have their cells' counts and widths (10_state.md R21, R23)? -/
def TuplesFit (s : State) : Prop :=
  ∀ d ∈ s.cfg.cells, Stored d.variant → fitsTuple d.tcode d.count (tupleAt s d.addr) = true

theorem Inv.tuplesFit_storeTuple (hI : Inv s) {c : Cell} {E : List Pattern} (hc : c ∈ s.cfg.cells)
    (hE : fitsTuple c.tcode c.count E = true) : TuplesFit (storeTuple c.addr E s) := by
  intro d hd hv
  rw [tupleAt_storeTuple]
  split
  · rename_i haddr
    obtain rfl := cell_eq_of_addr_eq hI.cfg_ok hc hd haddr
    exact hE
  · exact hI.tuples d hd hv

/-- A store outside the control byte keeps the invariant (43_registers.md R139). -/
theorem Inv.setStore {m : Keyed (List Pattern)} (hI : Inv s) (hwf : keyedWf m) (hfit : TuplesFit (s.setStore m))
    (hctrl : opctrl (s.setStore m) = opctrl s) : Inv (s.setStore m) :=
  { hI with
    store_wf := hwf
    tuples := hfit
    evs_ok := fun k d ev hd hev => hctrl ▸ hI.evs_ok k d ev hd hev
    opled_eq := hctrl ▸ hI.opled_eq
    visual_eq := hctrl ▸ hI.visual_eq }

theorem EventOk.setEnabled {c : Cfg} {v w : Byte} {d : EventDesc} {ev : EventState} (h : EventOk c v d ev) :
    EventOk c w d (setEnabled (syncEn d.cls w) ev) :=
  { h with en_eq := rfl, arm_eq := rfl }

/-- The hook brings the enables and levels in line with whatever the control byte has become (43_registers.md R145 to
R147). -/
theorem Inv.controlHook_setStore {m : Keyed (List Pattern)} (hI : Inv s) (hwf : keyedWf m)
    (hfit : TuplesFit (s.setStore m)) : Inv (controlHook (opctrl (s.setStore m)) (s.setStore m)) := by
  refine { hI with
    store_wf := hwf, tuples := hfit, opled_eq := rfl, visual_eq := rfl
    evs_length := (hookEvents_length _ _ _).trans hI.evs_length
    evs_ok := fun k d x hd hx => ?_ }
  have hd : s.cfg.events[k]? = some d := hd
  have hx : (hookEvents (opctrl (s.setStore m)) s.cfg.events s.evs)[k]? = some x := hx
  rw [hookEvents_getElem?, hd] at hx
  cases hev : s.evs[k]? with
  | none => simp [hev] at hx
  | some ev =>
    simp only [hev] at hx
    cases hx
    exact (hI.evs_ok k d ev hd hev).setEnabled

theorem Inv.syncPhase (hI : Inv s) : Inv (syncPhase s) :=
  (hI.controlHook_setStore hI.store_wf hI.tuples).setDisp (Nat.zero_le _)

/-- Address 10 is the control register in every configuration (10_state.md R24). -/
theorem cellAt_opctrl (c : Cfg) : c.cellAt 10 = some ⟨10, .opctrl, 0x01, 1⟩ := rfl

/-- A write that passed its checks keeps the invariant (43_registers.md R139, R145, R153; 42_clock.md R128). -/
theorem Inv.writeCell {a : Byte} {c : Cell} {E : List Pattern} (hI : Inv s) (hc : s.cfg.cellAt a = some c)
    (hE : fitsTuple c.tcode c.count E = true) : Inv (writeCell c E s) := by
  obtain ⟨hmem, rfl⟩ := cellAt_mem hc
  have hwf : keyedWf (keyedSet s.store c.addr.toNat E) := keyedWf_keyedSet _ _ _ hI.store_wf
  have hfit : TuplesFit (storeTuple c.addr E s) := hI.tuplesFit_storeTuple hmem hE
  obtain ⟨-, -, hctrl, -⟩ := special_cells hmem
  unfold Machine.writeCell
  cases hv : c.variant with
  | ro => exact hI
  | tsMicro => exact hI
  | rw =>
    have haddr : c.addr ≠ 10 := by
      intro h
      rw [h, cellAt_opctrl] at hc
      cases hc
      cases hv
    have hkeep : opctrl (storeTuple c.addr E s) = opctrl s := by
      rw [opctrl, tupleAt_storeTuple, if_neg haddr, opctrl]
    exact hI.setStore hwf hfit hkeep
  | opctrl =>
    obtain ⟨-, -, haddr⟩ := hctrl hv
    have hbyte : opctrl (storeTuple c.addr E s) = (E.headD 0).setWidth 8 := by
      rw [opctrl, tupleAt_storeTuple, if_pos haddr]
    rw [← hbyte]
    exact hI.controlHook_setStore hwf hfit
  | tsSec => exact hI.sampled (sampled_clockWrite _ s) (clockTotal_clockWrite_nonneg _ s)
  | pin p => exact hI.setPinOut (keyedWf_keyedSet _ _ _ hI.pinOut_wf)

theorem Inv.execPhase {F : Frame} {r : Request} (hI : Inv s) (hF : decodeRequest F = .ok r) :
    Inv (execPhase r F s) := by
  rw [execPhase_eq]
  split_ifs
  · rcases hw : regWrite r.addr r.tc (reqElems r) s with ⟨res, u⟩
    obtain ⟨cause, -, rfl⟩ | ⟨c, hc, -, htc, hlen, -, rfl⟩ := regWrite_cases hw
    · exact hI.setDisp ⟨r, hF⟩
    · have hfit : fitsTuple c.tcode c.count (reqElems r) = true :=
        (fitsTuple_iff _ _ _).2 ⟨hlen, fun p hp => htc ▸ decodeElems_width hp⟩
      have hu := hI.writeCell hc hfit
      exact hu.setDisp ⟨r, hF⟩
  · exact hI.setDisp ⟨r, hF⟩

/-! ## Events -/

theorem EventOk.stage {c : Cfg} {v : Byte} {d : EventDesc} {ev : EventState} {F : Frame} (h : EventOk c v d ev)
    (hkind : d.kind ≠ .poll) (hF : IsNotification c F) : EventOk c v d { ev with stage := some F, busy := true } :=
  { h with
    busy_staged := rfl
    staged := fun _ hG => Option.some.inj hG ▸ hF
    poll_idle := fun hpoll => absurd hpoll hkind }

theorem EventOk.unstage {c : Cfg} {v : Byte} {d : EventDesc} {ev : EventState} (h : EventOk c v d ev) :
    EventOk c v d { ev with stage := none, busy := false } :=
  { h with busy_staged := rfl, staged := fun _ hG => by simp at hG, poll_idle := fun _ => rfl }

theorem EventOk.setPending {c : Cfg} {v : Byte} {d : EventDesc} {ev : EventState} (h : EventOk c v d ev)
    (hkind : d.kind = .poll) : EventOk c v d { ev with pending := true } :=
  { h with pending_poll := fun _ => hkind }

theorem Sampled.cfg_eq (h : Sampled s t) : t.cfg = s.cfg := by
  obtain ⟨c, ti, pi, n, rfl⟩ := h; rfl

theorem Sampled.evs_eq (h : Sampled s t) : t.evs = s.evs := by
  obtain ⟨c, ti, pi, n, rfl⟩ := h; rfl

/-- An event stays one that steps lead to under a change that keeps it so; the change is made to the event that is
there. -/
theorem Inv.changeEvent {e : Nat} {d : EventDesc} {ev ev' : EventState} (hI : Inv s) (hd : s.cfg.events[e]? = some d)
    (hev : s.evs[e]? = some ev) (hkeep : EventOk s.cfg (opctrl s) d ev → EventOk s.cfg (opctrl s) d ev') :
    Inv (Machine.setEvent e ev' s) := by
  refine hI.setEvent fun d' hd' => ?_
  obtain rfl : d = d' := Option.some.inj (hd.symm.trans hd')
  exact hkeep (hI.evs_ok e d ev hd hev)

/-! ## Every step -/

theorem lt_of_events {k : Nat} {d : EventDesc} (hd : s.cfg.events[k]? = some d) : k < s.cfg.events.length :=
  (List.getElem?_eq_some_iff.1 hd).1

/-- Whatever a step makes of a state with the invariant has the invariant. -/
theorem Inv.stepped (hI : Inv s) (h : Stepped s t) : Inv t := by
  have hphase := hI.disp_ok
  cases h
  case stutter => exact hI
  case rx h => exact hI.rxStep h
  case tx F q hq =>
    have hsub : ∀ G ∈ q, G ∈ s.txq := fun G hG => hq ▸ List.mem_cons_of_mem F hG
    have hlen : q.length ≤ s.txq.length := by simp [hq]
    exact { hI with
      txq_bounded := hlen.trans hI.txq_bounded
      txq_built := fun G hG => hI.txq_built G (hsub G hG) }
  case wake => exact hI.setDisp trivial
  case pop F q hdisp hq =>
    have hsub : ∀ G ∈ q, G ∈ s.rxq := fun G hG => hq ▸ List.mem_cons_of_mem F hG
    have hlen : q.length ≤ s.rxq.length := by simp [hq]
    exact { hI with
      rxq_bounded := hlen.trans hI.rxq_bounded
      rxq_requests := fun G hG => hI.rxq_requests G (hsub G hG)
      disp_ok := hI.rxq_requests F (by simp [hq]) }
  case exec F r hdisp hF => exact hI.execPhase hF
  case stamp F res hdisp =>
    rw [hdisp] at hphase
    have hsample := hI.clockSample
    exact hsample.setDisp hphase
  case overflow => exact (hI.setFaultReplyLen true).setDisp trivial
  case errorReply F res ts r hdisp hF hlen =>
    have hr := request_ok_of_decodeRequest hF
    simp only [Request.ok, Bool.and_eq_true] at hr
    refine hI.setDisp (isReply_errorFrame r.kind ?_)
    simp [OutOps.errorOk, hr.1, errorPayload_length, hlen]
  case reply F res ts r E u R hdisp hF hread hR =>
    refine (hI.regRead hread).setDisp ?_
    rw [(sampled_of_regRead hread).cfg_eq]
    exact hI.isReply_of_replyFrame hread hR
  case send mt o hR => exact (hI.appendTx (.inl hR)).setDisp trivial
  case sync => exact hI.syncPhase
  case pollEnd => exact hI.setDisp trivial
  case pollNext k d hdisp hd => exact hI.setDisp (lt_of_events hd)
  case pollClear k d ev hdisp hd hev =>
    have hnext : Inv (s.setDisp (.poll (k + 1))) := hI.setDisp (lt_of_events hd)
    exact hnext.changeEvent hd hev .clearPending
  case pollServe k d ev o u hdisp hd hev ho =>
    have hnext : Inv (s.setDisp (.poll (k + 1))) := hI.setDisp (lt_of_events hd)
    have hclear := hnext.changeEvent hd hev .clearPending
    refine (hclear.eventOps ho).appendTx (.inr ?_)
    rw [(sampled_of_eventOps ho).cfg_eq]
    exact hclear.isNotification_of_eventOps hd ho
  case fire e d ev o u hd hev hkind ho =>
    have hsampled := sampled_of_eventOps ho
    have hF := hI.isNotification_of_eventOps hd ho
    rw [← hsampled.cfg_eq] at hd hF
    exact (hI.eventOps ho).changeEvent hd (hsampled.evs_eq ▸ hev) fun hok => hok.stage hkind hF
  case append e ev o hev hF =>
    have hlt : e < s.cfg.events.length := hI.evs_length ▸ (List.getElem?_eq_some_iff.1 hev).1
    have hend := hI.changeEvent (List.getElem?_eq_getElem hlt) hev EventOk.unstage
    exact hend.appendTx (.inr hF)
  case tick e d ev hd hev hkind => exact hI.changeEvent hd hev fun hok => hok.setPending hkind
  case envByte b => exact hI.setRxIn _
  case envTick r => exact hI.setTickIn _
  case envPin v => exact hI.setPinIn _

/-- Settles O53: the choice keeps the invariant, and so does every way an agent's step goes on. -/
theorem everyStepKeepsTheInvariant : Obligations.EveryStepKeepsTheInvariant := by
  unfold Obligations.EveryStepKeepsTheInvariant
  intro s t hI hstep
  exact hI.chooseMove.stepped (.of_agentStep hstep)

end Sys2Proof.Machine
end

section
/-! PROOFS. BUILD of a request to a stored register puts the reply with its tuple into SEND (44_dispatch.md R163), in
every configuration for the twelve reserved registers that hold a tuple (43_registers.md R134). -/
namespace Sys2Proof.Machine

/-- A read of a stored cell by its type code is its tuple (43_registers.md R135, R138, R144). -/
theorem regRead_stored {s : State} {a : Byte} {d : Cell} (hd : s.cfg.cellAt a = some d) (hv : Stored d.variant) :
    regRead a d.tcode s = (.ok (tupleAt s a), s) := by
  obtain ⟨-, rfl⟩ := cellAt_mem hd
  unfold regRead
  rw [hd]
  rcases hv with hv | hv | hv <;> simp [hv, readStored]

/-- BUILD with no error of a request to a stored cell, by its type code, replies with the tuple (44_dispatch.md R163). -/
theorem buildPhase_stored {r : Request} {d : Cell} {s : State} (ts : Stamp) (hd : s.cfg.cellAt r.addr = some d)
    (hv : Stored d.variant) (htc : r.tc = d.tcode) (hfit : (tupleAt s r.addr).length * Codec.size r.tc + 10 ≤ 255) :
    buildPhase r .ok ts s = .next (s.setDisp (.send (replyBytes r ts (tupleAt s r.addr)))) := by
  simp only [buildPhase, htc ▸ regRead_stored hd hv, replyFrame_eq r _ ts hfit]
  rfl

/-- A row of the opcode table, with its address and type code, that names a stored register in every configuration. -/
def IsStoredRow (row : (AddrOps → Instr) × Byte × Byte) : Prop :=
  (∀ o, (row.1 o).request? = some (o.request row.2.1)) ∧
    ∀ c : Cfg, ∃ d, c.cellAt row.2.1 = some d ∧ Stored d.variant ∧ d.tcode = row.2.2

theorem IsStoredRow.ro {mk : AddrOps → Instr} {a tc : Byte} (hmk : ∀ o, (mk o).request? = some (o.request a))
    (hcell : ∀ c : Cfg, c.cellAt a = some ⟨a, .ro, tc, 1⟩) : IsStoredRow (mk, a, tc) :=
  ⟨hmk, fun c => ⟨_, hcell c, .inl rfl, rfl⟩⟩

theorem IsStoredRow.rw {mk : AddrOps → Instr} {a tc : Byte} (hmk : ∀ o, (mk o).request? = some (o.request a))
    (n : Cfg → Nat) (hcell : ∀ c : Cfg, c.cellAt a = some ⟨a, .rw, tc, n c⟩) : IsStoredRow (mk, a, tc) :=
  ⟨hmk, fun c => ⟨_, hcell c, .inr (.inl rfl), rfl⟩⟩

/-- The instruction of such a row, in BUILD with no error and by the row's type code, replies with the tuple. -/
theorem IsStoredRow.exec_build {row : (AddrOps → Instr) × Byte × Byte} (hrow : IsStoredRow row) {o : AddrOps}
    {F : Frame} {ts : Stamp} {s : State} (hdisp : s.disp = .build F .ok ts) (htc : o.tc = row.2.2)
    (hfit : (tupleAt s row.2.1).length * Codec.size o.tc + 10 ≤ 255) :
    exec (row.1 o) s = .next (s.setDisp (.send (replyBytes (o.request row.2.1) ts (tupleAt s row.2.1)))) := by
  obtain ⟨hreq, hcell⟩ := hrow
  obtain ⟨d, hd, hv, hdtc⟩ := hcell s.cfg
  rw [exec_of_request (hreq o), requestStep, hdisp]
  exact buildPhase_stored ts hd hv (htc.trans hdtc.symm) hfit

/-- Settles O29: each of the twelve rows names a stored register (43_registers.md R134). -/
theorem reservedRegistersReply : Obligations.ReservedRegistersReply := by
  unfold Obligations.ReservedRegistersReply
  intro row hrow o F ts s hdisp htc hfit
  refine IsStoredRow.exec_build ?_ hdisp htc hfit
  simp only [List.mem_cons, List.not_mem_nil, or_false] at hrow
  obtain rfl | rfl | rfl | rfl | rfl | rfl | rfl | rfl | rfl | rfl | rfl | rfl := hrow
  iterate 8 exact .ro (fun _ => rfl) fun _ => rfl
  · exact ⟨fun _ => rfl, fun c => ⟨_, cellAt_opctrl c, .inr (.inr rfl), rfl⟩⟩
  · exact .rw (fun _ => rfl) (fun _ => 1) fun _ => rfl
  · exact .rw (fun _ => rfl) Cfg.nameLen fun _ => rfl
  · exact .rw (fun _ => rfl) (fun _ => 1) fun _ => rfl

end Sys2Proof.Machine
end

section
/-! PROOFS. The state right after reset (10_state.md R46): the value of each element, and the invariant. -/
namespace Sys2Proof

/-- Folding writes of distinct keys leaves each key with its value. -/
theorem keyedGet_foldl_keyedSet {α : Type} {ps : List (Nat × α)} (hnodup : (ps.map Prod.fst).Nodup) {k : Nat} {v : α}
    (m : Keyed α) (h : (k, v) ∈ ps ∨ k ∉ ps.map Prod.fst ∧ keyedGet m k = some v) :
    keyedGet (ps.foldl (fun m p => keyedSet m p.1 p.2) m) k = some v := by
  induction ps generalizing m with
  | nil => simpa using h
  | cons p ps ih =>
    simp only [List.map_cons, List.nodup_cons] at hnodup
    refine ih hnodup.2 _ ?_
    simp only [List.mem_cons, List.map_cons, not_or] at h
    obtain (rfl | hmem) | ⟨⟨hne, hnot⟩, hget⟩ := h
    · exact .inr ⟨hnodup.1, keyedGet_keyedSet_same _ _ _⟩
    · exact .inl hmem
    · exact .inr ⟨hnot, by rw [keyedGet_keyedSet_other _ _ _ _ (Ne.symm hne), hget]⟩

/-- The addresses of the reset tuples are addresses of the map's cells, in their order (10_state.md R24). -/
theorem resetTuples_keys_sublist (c : Cfg) :
    (c.resetTuples.map Prod.fst).Sublist ((c.cells.map Cell.addr).map BitVec.toNat) := by
  have happ : (c.appRegs.map fun r => (r.addr.toNat, r.reset)).map Prod.fst
      = ((c.appRegs.map AppReg.cell).map Cell.addr).map BitVec.toNat := by
    simp [AppReg.cell, Function.comp_def]
  simp only [Cfg.resetTuples, Cfg.cells, List.map_append, happ]
  refine List.Sublist.append ?_ (List.sublist_append_left _ _)
  have hreserved : ([0, 1, 2, 3, 4, 5, 6, 7, 10, 11, 12, 13] : List Nat).Sublist
      [0, 1, 2, 3, 4, 5, 6, 7, 8, 9, 10, 11, 12, 13] := by decide
  exact hreserved

/-- The reset tuple of an address is what the configuration lists for it (10_state.md R46). -/
theorem keyedGet_resetStore {c : Cfg} (hc : c.wf = true) {k : Nat} {E : List Pattern} (h : (k, E) ∈ c.resetTuples) :
    keyedGet c.resetStore k = some E := by
  obtain ⟨-, -, hnodup, -⟩ := (Machine.cfg_wf_iff c).1 hc
  have hkeys := (hnodup.map fun _ _ => BitVec.eq_of_toNat_eq).sublist (resetTuples_keys_sublist c)
  exact keyedGet_foldl_keyedSet hkeys [] (.inl h)

namespace Machine

theorem resetWith_store (c : Cfg) (r0 : Tick) : (State.resetWith c r0).store = c.resetStore := by
  simp only [State.resetWith]

theorem tupleAt_resetWith {c : Cfg} (hc : c.wf = true) (r0 : Tick) {a : Byte} {E : List Pattern}
    (h : (a.toNat, E) ∈ c.resetTuples) : tupleAt (State.resetWith c r0) a = E := by
  rw [tupleAt, resetWith_store, keyedGet_resetStore hc h, Option.getD_some]

theorem mem_resetTuples_of_appReg {c : Cfg} {r : AppReg} (h : r ∈ c.appRegs) :
    (r.addr.toNat, r.reset) ∈ c.resetTuples := by
  unfold Cfg.resetTuples
  exact List.mem_append_right _ (List.mem_map_of_mem h)

/-- The enable that the control byte gives, by its bits (10_state.md R25, R26; 45_events.md R193). -/
theorem syncEn_eq (cls : EventClass) (v : Byte) :
    syncEn cls v = ((v.toNat % 4 != 0) && (cls == .other || v.getLsbD 7)) := by
  have hrunning : ∀ v : Byte, running v = (v.toNat % 4 != 0) := by decide
  cases cls with
  | heartbeat => rw [syncEn, hbOn, hrunning, Bool.and_comm]; rfl
  | other => rw [syncEn, hrunning]; exact (Bool.and_true _).symm

/-- Settles O50: the stored tuples are those listed, and the other elements are as `State.resetWith` says. -/
theorem resetGivesEveryElementItsValue : Obligations.ResetGivesEveryElementItsValue := by
  unfold Obligations.ResetGivesEveryElementItsValue
  intro c r0 hc
  have reserved : ∀ {a : Byte} {E : List Pattern}, (a.toNat, E) ∈ c.resetTuples →
      tupleAt (State.resetWith c r0) a = E := tupleAt_resetWith hc r0
  refine ⟨?_, fun r hr => reserved (mem_resetTuples_of_appReg hr), rfl, rfl, rfl, rfl, List.length_map _,
    fun k d hd => ?_, rfl, rfl, rfl, fun _ => rfl, rfl, rfl⟩
  · refine ⟨?_, ?_, ?_, ?_, ?_, ?_, ?_, ?_, ?_, ?_, ?_, ?_⟩ <;> exact reserved (by simp [Cfg.resetTuples])
  · simp [State.resetWith, hd, EventState.reset, syncEn_eq]

/-! ## The reset state meets the invariant -/

/-- Numbers of `w` bits are elements of a type code at least that wide (10_state.md R23). -/
theorem fitsTuple_map {w : Nat} {tc : Byte} (hw : w ≤ 8 * Codec.size tc) (l : List (BitVec w)) :
    fitsTuple tc l.length (l.map (·.setWidth 64)) = true := by
  refine (fitsTuple_iff _ _ _).2 ⟨List.length_map _, fun p hp => ?_⟩
  obtain ⟨b, -, rfl⟩ := List.mem_map.1 hp
  calc (b.setWidth 64).toNat ≤ b.toNat := by simpa using Nat.mod_le _ _
    _ < 2 ^ w := b.isLt
    _ ≤ 2 ^ (8 * Codec.size tc) := Nat.pow_le_pow_right (by decide) hw

/-- A reset tuple is listed for the cell, and has its count and width. -/
def ResetFits (c : Cfg) (d : Cell) : Prop :=
  ∃ E, (d.addr.toNat, E) ∈ c.resetTuples ∧ fitsTuple d.tcode d.count E = true

theorem resetFits_reserved {c : Cfg} (hc : c.wf = true) {d : Cell} (hd : d ∈ c.reservedCells)
    (hv : Stored d.variant) : ResetFits c d := by
  have bytes (l : List Byte) : fitsTuple 0x01 l.length (l.map (·.setWidth 64)) = true := fitsTuple_map (by decide) l
  have byte (b : Byte) : fitsTuple 0x01 1 [b.setWidth 64] = true := bytes [b]
  have word (v : BitVec 16) : fitsTuple 0x02 1 [v.setWidth 64] = true := fitsTuple_map (by decide) [v]
  obtain ⟨-, -, -, -, -, hname, -⟩ := (cfg_wf_iff c).1 hc
  simp only [Cfg.reservedCells, List.mem_cons, List.not_mem_nil, or_false] at hd
  obtain rfl | rfl | rfl | rfl | rfl | rfl | rfl | rfl | rfl | rfl | rfl | rfl | rfl | rfl := hd
  · exact ⟨_, List.mem_of_getElem? (i := 0) rfl, word c.whoAmI⟩
  · exact ⟨_, List.mem_of_getElem? (i := 1) rfl, byte c.hwVersionH⟩
  · exact ⟨_, List.mem_of_getElem? (i := 2) rfl, byte c.hwVersionL⟩
  · exact ⟨_, List.mem_of_getElem? (i := 3) rfl, byte c.assemblyVersion⟩
  · exact ⟨_, List.mem_of_getElem? (i := 4) rfl, byte c.harpVersionH⟩
  · exact ⟨_, List.mem_of_getElem? (i := 5) rfl, byte c.harpVersionL⟩
  · exact ⟨_, List.mem_of_getElem? (i := 6) rfl, byte c.fwVersionH⟩
  · exact ⟨_, List.mem_of_getElem? (i := 7) rfl, byte c.fwVersionL⟩
  · simp [Stored] at hv
  · simp [Stored] at hv
  · exact ⟨_, List.mem_of_getElem? (i := 8) rfl, byte c.opctrlReset⟩
  · exact ⟨_, List.mem_of_getElem? (i := 9) rfl, byte c.rstdevReset⟩
  · exact ⟨_, List.mem_of_getElem? (i := 10) rfl, hname ▸ bytes c.nameReset⟩
  · exact ⟨_, List.mem_of_getElem? (i := 11) rfl, word c.serialReset⟩

/-- Every stored cell has its reset tuple (10_state.md R46; 00_scope.md R8 (e)). -/
theorem resetFits_of_stored {c : Cfg} (hc : c.wf = true) {d : Cell} (hd : d ∈ c.cells) (hv : Stored d.variant) :
    ResetFits c d := by
  obtain ⟨-, -, -, -, -, -, happ, -⟩ := (cfg_wf_iff c).1 hc
  simp only [Cfg.cells, List.mem_append, List.mem_map] at hd
  obtain hd | ⟨r, hr, rfl⟩ | ⟨r, -, rfl⟩ := hd
  · exact resetFits_reserved hc hd hv
  · exact ⟨r.reset, mem_resetTuples_of_appReg hr, happ r hr⟩
  · simp [Stored, PinReg.cell] at hv

theorem tuplesFit_resetWith {c : Cfg} (hc : c.wf = true) (r0 : Tick) : TuplesFit (State.resetWith c r0) := by
  intro d hd hv
  obtain ⟨E, hE, hfit⟩ := resetFits_of_stored hc hd hv
  rwa [tupleAt_resetWith hc r0 hE]

theorem opctrl_resetWith {c : Cfg} (hc : c.wf = true) (r0 : Tick) : opctrl (State.resetWith c r0) = c.opctrlReset := by
  have htuple : tupleAt (State.resetWith c r0) 10 = [c.opctrlReset.setWidth 64] :=
    tupleAt_resetWith hc r0 (List.mem_of_getElem? (i := 8) rfl)
  rw [opctrl, htuple]
  simp

theorem EventOk.reset (c : Cfg) (d : EventDesc) : EventOk c c.opctrlReset d (EventState.reset c d) where
  en_eq := rfl
  arm_eq := rfl
  busy_staged := rfl
  staged := fun _ h => by cases h
  poll_idle := fun _ => rfl
  pending_poll := fun h => by cases h

/-- The reset state of a configuration that passed its check meets the invariant (70_reset_and_hazards.md R214). -/
theorem inv_resetWith {c : Cfg} (hc : c.wf = true) (r0 : Tick) : Inv (State.resetWith c r0) where
  cfg_ok := hc
  store_wf := resetWith_store c r0 ▸ keyedWf_resetStore c
  tuples := tuplesFit_resetWith hc r0
  clock_nonneg := by simp [clockTotal, State.resetWith]
  rx_ok := .empty
  rxq_bounded := Nat.zero_le _
  txq_bounded := Nat.zero_le _
  rxq_requests := fun F hF => by cases hF
  txq_built := fun F hF => by cases hF
  evs_length := List.length_map _
  evs_ok := fun k d ev hd hev => by
    have hd : c.events[k]? = some d := hd
    rw [opctrl_resetWith hc r0]
    simp only [State.resetWith, List.getElem?_map, hd, Option.map_some, Option.some.injEq] at hev
    exact hev ▸ EventOk.reset c d
  opled_eq := by rw [opctrl_resetWith hc r0]; rfl
  visual_eq := by rw [opctrl_resetWith hc r0]; rfl
  disp_ok := trivial
  pinOut_wf := List.Pairwise.nil

/-- Settles O52: the reset state of every well-formed configuration, and the test configuration is one. -/
theorem resetMeetsTheInvariant : Obligations.ResetMeetsTheInvariant := by
  unfold Obligations.ResetMeetsTheInvariant
  have htest : Cfg.test.wf = true := by decide
  exact ⟨fun _ r0 hc => inv_resetWith hc r0, inv_resetWith htest 0⟩

end Machine
end Sys2Proof
end

section
/-! PROOFS. A bounded queue keeps its newest frames in order (45_events.md R186, R187): the last `C` of a list are
Mathlib's `List.rtake C`. -/
namespace Sys2Proof.Machine

/-- What a longer list's last `n` hold does not depend on what its front had already lost. -/
theorem rtake_rtake_append {α : Type} (n : Nat) (l m : List α) : (l.rtake n ++ m).rtake n = (l ++ m).rtake n := by
  have hcut : l.length - n ≤ l.length := Nat.sub_le _ _
  simp only [List.rtake, ← List.drop_append_of_le_length (l₂ := m) hcut, List.drop_drop]
  congr 1
  simp only [List.length_drop, List.length_append]
  omega

/-- Append to a bounded queue leaves the last `C` of the queue and the frame (45_events.md R187). -/
theorem queueAppend_eq_rtake {C : Nat} {q : List Frame} (F : Frame) (hC : 1 ≤ C) (hq : q.length ≤ C) :
    queueAppend C q F = (q ++ [F]).rtake C := by
  unfold queueAppend List.rtake
  split
  · next hfull =>
    rw [show (q ++ [F]).length - C = 1 by simp [hfull], List.drop_append_of_le_length (hfull ▸ hC)]
  · next hroom =>
    rw [show (q ++ [F]).length - C = 0 by simp only [List.length_append, List.length_singleton]; omega, List.drop_zero]

theorem foldl_queueAppend_eq_rtake {C : Nat} {q : List Frame} (Fs : List Frame) (hC : 1 ≤ C) (hq : q.length ≤ C) :
    Fs.foldl (queueAppend C) q = (q ++ Fs).rtake C := by
  induction Fs generalizing q with
  | nil => simp [List.rtake, Nat.sub_eq_zero_of_le hq]
  | cons F Fs ih =>
    calc (F :: Fs).foldl (queueAppend C) q
        = (queueAppend C q F ++ Fs).rtake C := ih (queueAppend_length_le F hC hq)
      _ = ((q ++ [F]).rtake C ++ Fs).rtake C := by rw [queueAppend_eq_rtake F hC hq]
      _ = (q ++ F :: Fs).rtake C := by rw [rtake_rtake_append, List.append_assoc, List.singleton_append]

/-- Settles O17, by induction on the frames appended. -/
theorem aQueueKeepsTheNewestFrames : Obligations.AQueueKeepsTheNewestFrames := by
  unfold Obligations.AQueueKeepsTheNewestFrames
  intro C q Fs hC hq
  exact foldl_queueAppend_eq_rtake Fs hC hq

end Sys2Proof.Machine
end

section
/-! PROOFS. What a register read leaves as it is (20_memory.md R59, 43_registers.md R140). -/
namespace Sys2Proof.Machine

variable {s t : State}

/-- The clock and the draws a read may change are those of the state it leaves. -/
theorem Sampled.eq_set (h : Sampled s t) :
    t = (((s.setClock t.clock).setTickIn t.tickIn).setPinIn t.pinIn).setFreeCount t.freeCount := by
  obtain ⟨c, ti, pi, n, rfl⟩ := h; rfl

@[simp] theorem drawPin_clock (p : Nat) (s : State) : (drawPin p s).2.clock = s.clock := by
  obtain ⟨pi, n, h⟩ := drawPin_frame p s
  rw [h]; rfl

/-- A sample keeps the offset (42_clock.md R122). -/
@[simp] theorem clockSample_off (s : State) : (clockSample s).clock.off = s.clock.off := rfl

/-- A read changes nothing, or addresses a cell that holds no tuple and takes one sample of the clock or of a pin
(43_registers.md R140, R142, R152; 42_clock.md R127, R129). -/
theorem regRead_snd_cases (a tc : Byte) (s : State) :
    (regRead a tc s).2 = s ∨
      ∃ c, s.cfg.cellAt a = some c ∧ ¬ Stored c.variant ∧
        ((regRead a tc s).2 = clockSample s ∨ ∃ p, (regRead a tc s).2 = (drawPin p s).2) := by
  rcases h : regRead a tc s with ⟨cause | E, t⟩
  · exact .inl (regRead_error h).1
  · obtain ⟨c, hc, -, ⟨-, -, rfl⟩ | ⟨hv, -, rfl⟩ | ⟨hv, -, rfl⟩ | ⟨p, hv, -, rfl⟩⟩ := regRead_ok h
    · exact .inl rfl
    · exact .inr ⟨c, hc, by simp [Stored, hv], .inl rfl⟩
    · exact .inr ⟨c, hc, by simp [Stored, hv], .inl rfl⟩
    · exact .inr ⟨c, hc, by simp [Stored, hv], .inr ⟨p, rfl⟩⟩

theorem regRead_clock_off (a tc : Byte) (s : State) : (regRead a tc s).2.clock.off = s.clock.off := by
  obtain h | ⟨c, -, -, h | ⟨p, h⟩⟩ := regRead_snd_cases a tc s <;> simp [h]

/-- A read that finds no cell without a tuple of its own changes nothing (43_registers.md R135, R138, R144). -/
theorem regRead_snd_of_stored {a : Byte} (tc : Byte)
    (hstored : ∀ d, s.cfg.cellAt a = some d → Stored d.variant) : (regRead a tc s).2 = s := by
  obtain h | ⟨c, hc, hv, -⟩ := regRead_snd_cases a tc s
  · exact h
  · exact absurd (hstored c hc) hv

/-- Settles O23, by what a read can do. -/
theorem readsChangeOnlyTheSamples : Obligations.ReadsChangeOnlyTheSamples := by
  unfold Obligations.ReadsChangeOnlyTheSamples
  intro s a tc
  exact ⟨(sampled_regRead a tc s).eq_set, regRead_clock_off a tc s, regRead_snd_of_stored tc⟩

end Sys2Proof.Machine
end

section
/-! PROOFS. A frame that passed framing is the whole frame of its fields, so the decoder and the encoder are inverse
(30_encoding.md R67, R83, R85). -/
namespace Sys2Proof

/-! ## A frame is made of its fields -/

namespace Codec

/-- The frame `F` has the fields `f`, and it passes every check of framing (41_rxtx.md R112, R115). -/
structure Framed (F : Frame) (f : Fields) : Prop where
  fields_eq : fields F = some f
  length_eq : F.length = f.len.toNat + 2
  checksum : validateChecksum F = true
  structured : validateStructure F = true

/-- What the fields of a frame are of its bytes (40_codec.md R104). -/
theorem fields_some {F : Frame} {f : Fields} (h : fields F = some f) :
    F.take 5 = [f.mt, f.len, f.addr, f.port, f.pt] ∧
      f.payload = (F.drop (payloadOffset f.pt)).take (f.len.toNat + 1 - payloadOffset f.pt) := by
  unfold fields at h
  split at h
  · cases h; exact ⟨rfl, rfl⟩
  · cases h

/-- The length byte of a structurally whole frame covers its header (40_codec.md R106). -/
theorem payloadOffset_le {F : Frame} {f : Fields} (hf : fields F = some f) (h : validateStructure F = true) :
    payloadOffset f.pt ≤ f.len.toNat + 1 := by
  unfold fields at hf
  split at hf
  · cases hf
    simp only [validateStructure, List.getElem?_cons_succ, List.getElem?_cons_zero, Bool.and_eq_true, Bool.or_eq_true,
      Bool.not_eq_true', decide_eq_true_eq] at h
    obtain ⟨hlen, hts⟩ := h
    unfold payloadOffset
    split
    · have := hts.resolve_left (by simp [*]); dsimp only; omega
    · dsimp only; omega
  · cases hf

theorem eq_append_of_validateChecksum {F : Frame} (h : validateChecksum F = true) :
    F = F.dropLast ++ [sum8 F.dropLast] := by
  obtain rfl | ⟨B, c, rfl⟩ := F.eq_nil_or_concat'
  · cases h
  · rw [List.dropLast_concat, ← (validateChecksum_iff B c).1 h]

/-- The bytes of the timestamp that a frame holds are the six bytes behind its payloadType (30_encoding.md R77). -/
theorem stampBytes_decodeTimestamp {F : Frame} (h : 11 ≤ F.length) :
    stampBytes (some (decodeTimestamp F)) = (F.drop 5).take 6 := by
  have leBytes_field : ∀ (w n : Nat) (B : List Byte), B.length = n → 2 ^ w = 256 ^ n →
      leBytes n (BitVec.ofNat w (unle B)).toNat = B := by
    rintro w _ B rfl hw
    rw [BitVec.toNat_ofNat, hw, Nat.mod_eq_of_lt (unle_lt B), leBytes_unle]
  have hsplit : (F.drop 5).take 6 = (F.drop 5).take 4 ++ (F.drop 9).take 2 := by
    rw [show 6 = 4 + 2 from rfl, List.take_add, List.drop_drop]
  have hsec := leBytes_field 32 4 ((F.drop 5).take 4) (by simp; omega) rfl
  have hticks := leBytes_field 16 2 ((F.drop 9).take 2) (by simp; omega) rfl
  simp only [stampBytes, decodeTimestamp, hsec, hticks, hsplit]

/-- The timestamp of a frame with payloadType `pt`, present iff HAS_TS is set (30_encoding.md R74, R77). -/
def frameStamp? (F : Frame) (pt : Byte) : Option Stamp := if hasTs pt then some (decodeTimestamp F) else none

theorem frameStamp?_isSome (F : Frame) (pt : Byte) : (frameStamp? F pt).isSome = hasTs pt := by
  unfold frameStamp?; cases hasTs pt <;> rfl

theorem Framed.payload_length {F : Frame} {f : Fields} (h : Framed F f) :
    f.payload.length = f.len.toNat + 1 - payloadOffset f.pt := by
  rw [(fields_some h.fields_eq).2, List.length_take, List.length_drop, h.length_eq]
  omega

/-- What stands between the payloadType and the payload is the timestamp, if there is one (30_encoding.md R79). -/
theorem Framed.stampBytes_eq {F : Frame} {f : Fields} (h : Framed F f) :
    stampBytes (frameStamp? F f.pt) = (F.drop 5).take (payloadOffset f.pt - 5) := by
  have hoff := payloadOffset_le h.fields_eq h.structured
  cases hts : hasTs f.pt with
  | true =>
    simp only [payloadOffset, frameStamp?, hts, if_true] at hoff ⊢
    exact stampBytes_decodeTimestamp (by have := h.length_eq; omega)
  | false => simp [payloadOffset, frameStamp?, hts, stampBytes]

/-- The bytes of a frame before its checksum are those of its fields (30_encoding.md R67). -/
theorem Framed.body_eq {F : Frame} {f : Fields} (h : Framed F f) :
    body f.mt f.len f.addr f.port (tcode f.pt) (frameStamp? F f.pt) f.payload = F.dropLast := by
  obtain ⟨hhead, hpay⟩ := fields_some h.fields_eq
  have hoff := payloadOffset_le h.fields_eq h.structured
  have h5 : 5 ≤ payloadOffset f.pt := by unfold payloadOffset; split <;> omega
  have hpt : ptByte (tcode f.pt) (frameStamp? F f.pt) = f.pt := ptByte_tcode _ _ (frameStamp?_isSome F f.pt).symm
  have hregion : stampBytes (frameStamp? F f.pt) ++ f.payload = (F.drop 5).take (f.len.toNat + 1 - 5) := by
    rw [h.stampBytes_eq, hpay, show f.len.toNat + 1 - 5 =
      payloadOffset f.pt - 5 + (f.len.toNat + 1 - payloadOffset f.pt) by omega, List.take_add, List.drop_drop,
      Nat.add_sub_cancel' h5]
  calc body f.mt f.len f.addr f.port (tcode f.pt) (frameStamp? F f.pt) f.payload
      = F.take 5 ++ (F.drop 5).take (f.len.toNat + 1 - 5) := by rw [hhead, ← hregion, body, hpt]; rfl
    _ = F.take (f.len.toNat + 1) := by rw [← List.take_add]; congr 1; omega
    _ = F.dropLast := by rw [List.dropLast_eq_take, h.length_eq]; rfl

/-- A frame that passed framing is the whole frame of its fields: no bit of it is dropped (30_encoding.md R67, R83). -/
theorem Framed.wholeFrame_eq {F : Frame} {f : Fields} (h : Framed F f) :
    wholeFrame f.mt f.addr f.port (tcode f.pt) (frameStamp? F f.pt) f.payload = F := by
  have hoff := payloadOffset_le h.fields_eq h.structured
  have hpt : ptByte (tcode f.pt) (frameStamp? F f.pt) = f.pt := ptByte_tcode _ _ (frameStamp?_isSome F f.pt).symm
  have hlen : BitVec.ofNat 8 (payloadOffset f.pt + f.payload.length - 1) = f.len := by
    rw [h.payload_length, show payloadOffset f.pt + (f.len.toNat + 1 - payloadOffset f.pt) - 1 = f.len.toNat by omega,
      BitVec.ofNat_toNat, BitVec.setWidth_eq]
  simp only [wholeFrame, hpt, hlen, h.body_eq]
  exact (eq_append_of_validateChecksum h.checksum).symm

/-- A whole frame whose payload fits passes framing (30_encoding.md R68, R83). -/
theorem framed_wholeFrame (mt a port pt : Byte) (ts : Option Stamp) (PB : List Byte)
    (h : offsetOf ts + PB.length ≤ 256) :
    Framed (wholeFrame mt a port pt ts PB)
      ⟨mt, BitVec.ofNat 8 (offsetOf ts + PB.length - 1), a, port, ptByte pt ts, offsetOf ts, PB⟩ where
  fields_eq := wholeFrame_fields mt a port pt ts PB h
  length_eq := by
    have := offsetOf_pos ts
    rw [wholeFrame_length, wholeFrame_len ts PB h]
    omega
  checksum := validateChecksum_wholeFrame mt a port pt ts PB
  structured := validateStructure_wholeFrame mt a port pt ts PB h

end Codec

open Codec (Framed)

/-! ## Requests -/

/-- The request that a framed frame of kind `k` is: the fields of 40_codec.md R104 and R105. -/
def Request.ofFields (k : Kind) (F : Frame) (f : Codec.Fields) : Request where
  kind := k
  addr := f.addr
  port := f.port
  tc := Codec.tcode f.pt
  ts := Codec.frameStamp? F f.pt
  payload := f.payload

/-- A frame decodes to a request iff its messageType is one of a request and it passes framing (41_rxtx.md R115). -/
theorem decodeRequest_eq_ok_iff {F : Frame} {r : Request} :
    decodeRequest F = .ok r ↔
      ∃ f k, Framed F f ∧ Kind.ofByte? f.mt = some k ∧ r = Request.ofFields k F f := by
  constructor
  · intro h
    unfold decodeRequest at h
    split at h
    · rename_i mt len rest
      split at h
      · cases h
      · rename_i k hk
        split_ifs at h with hshort hlong hsum hstr
        split at h
        · cases h
        · rename_i f hf
          cases h
          obtain ⟨hhead, -⟩ := Codec.fields_some hf
          obtain ⟨rfl, rfl, -⟩ : mt = f.mt ∧ len = f.len ∧ _ := by simpa using hhead
          exact ⟨f, k, ⟨hf, by omega, by simpa using hsum, by simpa using hstr⟩, hk, rfl⟩
    · cases h
  · rintro ⟨f, k, ⟨hf, hlen, hsum, hstr⟩, hk, rfl⟩
    obtain ⟨hhead, -⟩ := Codec.fields_some hf
    match F, hhead with
    | mt :: len :: rest, hhead =>
      obtain ⟨rfl, rfl, -⟩ : mt = f.mt ∧ len = f.len ∧ _ := by simpa using hhead
      unfold decodeRequest
      simp only [hk, hlen, hsum, hstr, hf]
      simp [Request.ofFields, Codec.frameStamp?]

/-- The frame of a request that fits decodes to the request (30_encoding.md R67, R85). -/
theorem decodeRequest_frame {r : Request} (h : r.ok = true) : decodeRequest r.frame = .ok r := by
  obtain ⟨htc, hfit⟩ : typeCodeOk r.tc = true ∧ _ := by simpa [Request.ok, requestFits_iff] using h
  refine decodeRequest_eq_ok_iff.2 ⟨_, r.kind, Codec.framed_wholeFrame _ _ _ _ _ _ hfit, Kind.ofByte?_byte _, ?_⟩
  obtain ⟨k, a, port, tc, ts, PB⟩ := r
  cases ts with
  | none => simp [Request.ofFields, Codec.frameStamp?, Codec.tcode_ptByte tc _ htc]
  | some t =>
    simp [Request.ofFields, Codec.frameStamp?, Request.frame, Codec.tcode_ptByte tc _ htc,
      Codec.decodeTimestamp_wholeFrame]

/-- What a frame decodes to has that frame (30_encoding.md R67, R83). -/
theorem frame_of_decodeRequest {F : Frame} {r : Request} (h : decodeRequest F = .ok r) : r.frame = F := by
  obtain ⟨f, k, hF, hk, rfl⟩ := decodeRequest_eq_ok_iff.1 h
  simp only [Request.frame, Request.ofFields, Kind.byte_of_ofByte? hk]
  exact hF.wholeFrame_eq

/-! ## Outbound frames -/

/-- What an outbound frame decodes to has that frame (30_encoding.md R67, R87). -/
theorem frame_of_decodeOut {F : Frame} {mt : Byte} {o : OutOps} (h : decodeOut F = .ok (mt, o)) : o.frame mt = F := by
  unfold decodeOut at h
  split at h
  · cases h
  · rename_i f hf
    split_ifs at h with hshort hlong hsum hstr hbuilt
    cases h
    obtain ⟨hport, hts⟩ : f.port = 0xFF ∧ Codec.hasTs f.pt = true := by simpa using hbuilt
    have hF : Framed F f := ⟨hf, by omega, by simpa using hsum, by simpa using hstr⟩
    have hstamp : Codec.frameStamp? F f.pt = some (Codec.decodeTimestamp F) := if_pos hts
    simp only [OutOps.frame, ← hport, ← hstamp]
    exact hF.wholeFrame_eq

end Sys2Proof
end

section
/-! PROOFS. What an instruction is in each format of the opcode table, and that the decoder and the encoder are inverse
on all 38 rows (30_encoding.md R67, R70, R75, R92). -/
namespace Sys2Proof

/-! ## The readings of a request and of an outbound frame -/

/-- `i` is request `r`, read in an inbound format of the opcode table (log 1). -/
inductive Reads (c : Cfg) (r : Request) : Format → Instr → Prop
  | messageType : Reads c r .request r.byMessageType
  | payloadType : Reads c r .payloadType r.byPayloadType
  | address : Reads c r .address (r.byAddress c)

/-- `i` is the outbound frame of messageType `mt` and operands `o`, in an outbound format (30_encoding.md R70). -/
inductive Sends (mt : Byte) (o : OutOps) : Format → Instr → Prop
  | reply {i : Instr} (h : replyInstr mt o = .ok i) : Sends mt o .reply i
  | notification {i : Instr} (h : notificationInstr mt o = .ok i) : Sends mt o .notification i

variable {c : Cfg} {r : Request} {fmt : Format} {i : Instr} {F : Frame} {mt : Byte} {o : OutOps}

theorem decodeAs_of_reads (h : Reads c r fmt i) (hF : decodeRequest F = .ok r) : decodeAs fmt c F = .ok i := by
  cases h <;> simp only [decodeAs, hF] <;> rfl

theorem decodeAs_of_sends (h : Sends mt o fmt i) (hF : decodeOut F = .ok (mt, o)) (hok : i.ok = true) :
    decodeAs fmt c F = .ok i := by
  cases h with
  | reply h => simp [decodeAs, hF, Except.bind, h, Machine.onlyOk_of_ok hok]
  | notification h => simp [decodeAs, hF, Except.bind, h, Machine.onlyOk_of_ok hok]

/-- What a row of a request's format answers, it answers of the frame's request. -/
theorem map_decodeRequest_eq_ok {row : Request → Instr} (h : (decodeRequest F).map row = .ok i) :
    ∃ r, decodeRequest F = .ok r ∧ i = row r := by
  cases hF : decodeRequest F with
  | error e => rw [hF] at h; cases h
  | ok r => rw [hF] at h; cases h; exact ⟨r, rfl, rfl⟩

theorem ok_of_bind_onlyOk {x : Except DecodeError Instr} (h : x.bind onlyOk = .ok i) : i.ok = true := by
  cases x with
  | error e => cases h
  | ok j => obtain ⟨rfl, hok⟩ := Machine.onlyOk_ok h; exact hok

/-- What a frame decodes to is a reading of its request, or a well-formed reading of its outbound operands. -/
theorem decodeAs_eq_ok (h : decodeAs fmt c F = .ok i) :
    (∃ r, decodeRequest F = .ok r ∧ Reads c r fmt i) ∨
      ∃ mt o, decodeOut F = .ok (mt, o) ∧ Sends mt o fmt i ∧ i.ok = true := by
  cases fmt with
  | request => obtain ⟨r, hF, rfl⟩ := map_decodeRequest_eq_ok h; exact .inl ⟨r, hF, .messageType⟩
  | payloadType => obtain ⟨r, hF, rfl⟩ := map_decodeRequest_eq_ok h; exact .inl ⟨r, hF, .payloadType⟩
  | address => obtain ⟨r, hF, rfl⟩ := map_decodeRequest_eq_ok h; exact .inl ⟨r, hF, .address⟩
  | reply =>
    obtain ⟨mt, o, hF, hrow, -⟩ := Machine.decodeAs_reply_ok h
    exact .inr ⟨mt, o, hF, .reply hrow, ok_of_bind_onlyOk h⟩
  | notification =>
    obtain ⟨mt, o, hF, hrow, -⟩ := Machine.decodeAs_notification_ok h
    exact .inr ⟨mt, o, hF, .notification hrow, ok_of_bind_onlyOk h⟩

/-! ## A reading is the instruction of its row, and well formed -/

/-- `i` is an instruction of an inbound format: it is request `r`, well formed if `r` is, and its row is the one that
the configuration gives it. -/
structure IsRowOf (c : Cfg) (r : Request) (fmt : Format) (i : Instr) : Prop where
  request_eq : i.request? = some r
  ok_of_ok : r.ok = true → i.ok = true
  okIn : i.okIn c = true
  format_eq : i.format? = some fmt

theorem isRowOf_byMessageType (c : Cfg) (r : Request) : IsRowOf c r .request r.byMessageType := by
  obtain ⟨k, a, p, tc, ts, PB⟩ := r
  cases k <;> exact ⟨rfl, id, rfl, rfl⟩

/-- A type code outside the nine has the row PT_UNSUPPORTED (30_encoding.md R76). -/
theorem byPayloadType_of_unsupported (h : Codec.supported r.tc = false) :
    r.byPayloadType = .ptUnsupported r.tc ⟨r.kind, r.addr, r.port, r.ts, r.payload⟩ := by
  simp only [Codec.supported, Codec.supportedCodes, List.contains_cons, List.contains_nil, Bool.or_eq_false_iff,
    beq_eq_false_iff_ne] at h
  simp only [Request.byPayloadType, h, if_false]

theorem isRowOf_byPayloadType (c : Cfg) (r : Request) : IsRowOf c r .payloadType r.byPayloadType := by
  cases htc : Codec.supported r.tc with
  | true =>
    have hfits : r.ok = true → requestFits r.ts r.payload = true := fun h => (Bool.and_eq_true_iff.1 h).2
    obtain ⟨k, a, p, tc, ts, PB⟩ := r
    simp only [Codec.supported, Codec.supportedCodes, List.contains_iff_mem, List.mem_cons, List.not_mem_nil,
      or_false] at htc
    obtain rfl | rfl | rfl | rfl | rfl | rfl | rfl | rfl | rfl := htc <;> exact ⟨rfl, hfits, rfl, rfl⟩
  | false =>
    rw [byPayloadType_of_unsupported htc]
    refine ⟨rfl, fun hr => ?_, rfl, rfl⟩
    simp only [Request.ok, Bool.and_eq_true] at hr
    simp [Instr.ok, hr, htc, TypeOps.ok]

/-- The addresses of the reserved registers (43_registers.md R134). -/
def reservedAddrs : List Byte := [0, 1, 2, 3, 4, 5, 6, 7, 8, 9, 10, 11, 12, 13]

theorem unreserved_iff (a : Byte) : unreserved a = true ↔ a ∉ reservedAddrs := by
  revert a; decide

/-- Any address but the reserved ones has a row that depends on the configuration (30_encoding.md R92). -/
theorem byAddress_of_unreserved (c : Cfg) (h : r.addr ∉ reservedAddrs) :
    ∃ mk ∈ [Instr.regUnmapped, .regApp, .regPin],
      r.byAddress c = mk r.addr ⟨r.kind, r.port, r.tc, r.ts, r.payload⟩ := by
  simp only [reservedAddrs, List.mem_cons, List.not_mem_nil, or_false, not_or] at h
  simp only [Request.byAddress, h, if_false]
  split
  · exact ⟨_, by simp, rfl⟩
  · split <;> exact ⟨_, by simp, rfl⟩

theorem isRowOf_byAddress (c : Cfg) (r : Request) : IsRowOf c r .address (r.byAddress c) := by
  by_cases ha : r.addr ∈ reservedAddrs
  · obtain ⟨k, a, p, tc, ts, PB⟩ := r
    simp only [reservedAddrs, List.mem_cons, List.not_mem_nil, or_false] at ha
    obtain rfl | rfl | rfl | rfl | rfl | rfl | rfl | rfl | rfl | rfl | rfl | rfl | rfl | rfl := ha <;>
      exact ⟨rfl, id, rfl, rfl⟩
  · obtain ⟨mk, hmk, hrow⟩ := byAddress_of_unreserved c ha
    have hok : r.ok = true → (unreserved r.addr && r.ok) = true := by simp [(unreserved_iff _).2 ha]
    have hin : (r.byAddress c == mk r.addr _) = true := beq_iff_eq.2 hrow
    simp only [List.mem_cons, List.not_mem_nil, or_false] at hmk
    rw [hrow]
    obtain rfl | rfl | rfl := hmk <;> exact ⟨rfl, hok, hin, rfl⟩

/-- A reading of a request is an instruction of its format. -/
theorem Reads.isRowOf (h : Reads c r fmt i) : IsRowOf c r fmt i := by
  cases h with
  | messageType => exact isRowOf_byMessageType c r
  | payloadType => exact isRowOf_byPayloadType c r
  | address => exact isRowOf_byAddress c r

/-- A reading of an outbound frame is an instruction of its format. -/
theorem Sends.spec (h : Sends mt o fmt i) :
    i.request? = none ∧ i.outbound? = some (mt, o) ∧ i.okIn c = true ∧ i.format? = some fmt := by
  cases h with
  | reply h =>
    unfold replyInstr at h
    split_ifs at h <;> cases h <;> subst_vars <;> exact ⟨rfl, rfl, rfl, rfl⟩
  | notification h =>
    unfold notificationInstr at h
    split_ifs at h
    cases h
    subst_vars
    exact ⟨rfl, rfl, rfl, rfl⟩

/-! ## An instruction is a reading of its own fields -/

/-- The instruction of an inbound row is its request, read in the format of its row. -/
theorem IsRowOf.reads (h : IsRowOf c r fmt i) (hok : i.ok = true) : Reads c r fmt i := by
  obtain ⟨hr, -, hin, hf⟩ := h
  cases i <;> cases hr <;> cases hf
  case read o | write o | eventIn o => exact .messageType
  case ptUnsupported tc o =>
    simp only [Instr.ok, Bool.and_eq_true, Bool.not_eq_true'] at hok
    obtain ⟨⟨-, htc⟩, -⟩ := hok
    have hrow : (o.request tc).byPayloadType = _ := byPayloadType_of_unsupported htc
    exact hrow ▸ .payloadType
  case regUnmapped a o | regApp a o | regPin a o => exact beq_iff_eq.1 hin ▸ .address
  case ptU8 o | ptS8 o | ptU16 o | ptS16 o | ptU32 o | ptS32 o | ptU64 o | ptS64 o | ptFloat o => exact .payloadType
  all_goals exact .address

/-- The instruction of an outbound row is its operands, read in the format of its row. -/
theorem sends_of_outbound? (ho : i.outbound? = some (mt, o)) (hf : i.format? = some fmt) : Sends mt o fmt i := by
  cases i <;> cases ho <;> cases hf
  case eventNotify => exact .notification rfl
  all_goals exact .reply rfl

/-- An instruction that is read in some format is a request, or has outbound operands. -/
theorem request?_or_outbound? (hf : i.format? = some fmt) :
    (∃ r, i.request? = some r) ∨ ∃ mt o, i.request? = none ∧ i.outbound? = some (mt, o) := by
  cases i <;> cases hf
  case replyRead | replyWrite | replyEvent | eventNotify | errorRead | errorWrite | errorEvent =>
    exact .inr ⟨_, _, rfl, rfl⟩
  all_goals exact .inl ⟨_, rfl⟩

theorem encode_of_request? (h : i.request? = some r) : encode i = r.frame := by
  simp only [encode, h]

theorem encode_of_outbound? (hr : i.request? = none) (ho : i.outbound? = some (mt, o)) : encode i = o.frame mt := by
  simp only [encode, hr, ho]

/-! ## The obligations -/

/-- The encoding of a well-formed instruction decodes to it, in the format of its row (30_encoding.md R67). -/
theorem decodeAs_encode (hok : i.ok = true) (hin : i.okIn c = true) (hf : i.format? = some fmt) :
    decodeAs fmt c (encode i) = .ok i := by
  obtain ⟨hreq, hout⟩ := Laws.fits i hok
  obtain ⟨r, hr⟩ | ⟨mt, o, hr, ho⟩ := request?_or_outbound? hf
  · have hreads : Reads c r fmt i := IsRowOf.reads ⟨hr, fun _ => hok, hin, hf⟩ hok
    rw [encode_of_request? hr]
    exact decodeAs_of_reads hreads (decodeRequest_frame (hreq r hr))
  · rw [encode_of_outbound? hr ho]
    exact decodeAs_of_sends (sends_of_outbound? ho hf) (Machine.decodeOut_frame_of_errorOk mt (hout mt o ho)) hok

/-- The two bytes of an invalid header decode to INVALID_MSGTYPE, whatever follows them (41_rxtx.md R110). -/
theorem decode_invalidMsgtype {mt : Byte} (len : Byte) (rest : List Byte) (h : Codec.validateMessageType mt = false) :
    decode (encode (.invalidMsgtype mt len) ++ rest) = .ok (.invalidMsgtype mt len, rest) := by
  change decode (mt :: len :: rest) = _
  simp [decode, Codec.decodeHeader, h]

/-- Settles O3: an instruction is the reading of the frame its fields make up. -/
theorem decodingAnEncodingGivesItBack : Obligations.DecodingAnEncodingGivesItBack := by
  unfold Obligations.DecodingAnEncodingGivesItBack
  refine ⟨fun c fmt i => decodeAs_encode, fun mt len rest hok => decode_invalidMsgtype len rest ?_⟩
  simpa [Instr.ok] using hok

/-- Settles O5: a frame that passed framing is the whole frame of what it decodes to. -/
theorem encodingADecodedFrameGivesItsBytes : Obligations.EncodingADecodedFrameGivesItsBytes := by
  unfold Obligations.EncodingADecodedFrameGivesItsBytes
  intro c fmt F i h
  obtain ⟨r, hF, hreads⟩ | ⟨mt, o, hF, hsends, hok⟩ := decodeAs_eq_ok h
  · obtain ⟨hr, hok, hin, hf⟩ := hreads.isRowOf
    have hframe : encode i = F := (encode_of_request? hr).trans (frame_of_decodeRequest hF)
    exact ⟨hframe, hok (Machine.request_ok_of_decodeRequest hF), hin, hf⟩
  · obtain ⟨hr, ho, hin, hf⟩ := hsends.spec (c := c)
    have hframe : encode i = F := (encode_of_outbound? hr ho).trans (frame_of_decodeOut hF)
    exact ⟨hframe, hok, hin, hf⟩

/-! ## A byte stream -/

/-- The length byte of a request's frame counts what follows the header (30_encoding.md R68). -/
theorem Request.frame_eq_cons {r : Request} (h : r.ok = true) :
    ∃ len rest, r.frame = r.kind.byte :: len :: rest ∧ r.frame.length = len.toNat + 2 := by
  obtain ⟨-, hfit⟩ : _ ∧ _ := by simpa [Request.ok, requestFits_iff] using h
  obtain ⟨rest, hrest⟩ := wholeFrame_cons r.kind.byte r.addr r.port r.tc r.ts r.payload
  exact ⟨_, rest, hrest, (Codec.framed_wholeFrame _ _ _ _ _ _ hfit).length_eq⟩

/-- The stream decoder takes a request's frame off the stream, and nothing behind it (30_encoding.md R85, R94). -/
theorem decode_frame_append {r : Request} (h : r.ok = true) (rest : List Byte) :
    decode (r.frame ++ rest) = .ok (r.byMessageType, rest) := by
  obtain ⟨len, body, hcons, hlen⟩ := Request.frame_eq_cons h
  have hmt : Codec.validateMessageType r.kind.byte = true := by
    rw [← Kind.ofByte?_isSome, Kind.ofByte?_byte]; rfl
  have htake : (r.frame ++ rest).take (len.toNat + 2) = r.frame := List.take_left' hlen
  have hdrop : (r.frame ++ rest).drop (len.toNat + 2) = rest := List.drop_left' hlen
  have hdec := decodeRequest_frame h
  rw [← htake] at hdec
  rw [hcons] at hdec hdrop ⊢
  simp only [List.cons_append] at hdec hdrop ⊢
  simp only [decode, Codec.decodeHeader, hmt, if_true, hdec, hdrop]
  rfl

/-- Settles O4: each of the three rows is its request, read by its messageType. -/
theorem streamDecodesTheFirstRequest : Obligations.StreamDecodesTheFirstRequest := by
  unfold Obligations.StreamDecodesTheFirstRequest
  intro mk hmk o rest hok
  simp only [List.mem_cons, List.not_mem_nil, or_false] at hmk
  obtain rfl | rfl | rfl := hmk
  · exact decode_frame_append (r := o.request .read) hok rest
  · exact decode_frame_append (r := o.request .write) hok rest
  · exact decode_frame_append (r := o.request .event) hok rest

/-! ## The three readings of one frame -/

/-- In an inbound format a frame decodes to an instruction that is the frame's request. -/
theorem request?_of_decodeAs (hfmt : fmt ∈ [Format.request, .payloadType, .address]) (h : decodeAs fmt c F = .ok i) :
    ∃ r, decodeRequest F = .ok r ∧ i.request? = some r := by
  obtain ⟨r, hF, hreads⟩ | ⟨mt, o, -, hsends, -⟩ := decodeAs_eq_ok h
  · exact ⟨r, hF, hreads.isRowOf.request_eq⟩
  · cases hsends <;> simp at hfmt

/-- Settles O9: each reading takes the next phase of the one request that the frame is. -/
theorem theThreeReadingsOfAFrameAgree : Obligations.TheThreeReadingsOfAFrameAgree := by
  unfold Obligations.TheThreeReadingsOfAFrameAgree
  intro c F i j f hf g hg hi hj s
  obtain ⟨r, hF, hr⟩ := request?_of_decodeAs hf hi
  obtain ⟨r', hF', hr'⟩ := request?_of_decodeAs hg hj
  obtain rfl : r = r' := Except.ok.inj (hF.symm.trans hF')
  rw [Machine.exec_of_request hr, Machine.exec_of_request hr']

end Sys2Proof
end

section
/-! PROOFS. What the payloadType rows move: whole elements of a supported code, nothing of an unsupported one
(30_encoding.md R75, R76, R82); and what of a request has no effect (30_encoding.md R72, R86). -/
namespace Sys2Proof

/-! ## Packed elements decode back -/

namespace Codec

theorem decodeElement_encodeElement {tc : Byte} {p : Pattern} (h : p.toNat < 2 ^ (8 * size tc)) :
    decodeElement (encodeElement tc p) = p := by
  have h : p.toNat < 256 ^ size tc := by rwa [pow_mul] at h
  rw [decodeElement, encodeElement, unle_leBytes, Nat.mod_eq_of_lt h, BitVec.ofNat_toNat, BitVec.setWidth_eq]

/-- The first element of a payload region is that of its first bytes (30_encoding.md R82). -/
theorem decodeElems_append {tc : Byte} {B : List Byte} (PB : List Byte) (hB : B.length = size tc) (hpos : 0 < size tc) :
    decodeElems tc (B ++ PB) = decodeElement B :: decodeElems tc PB := by
  have hcount : (B ++ PB).length / size tc = PB.length / size tc + 1 := by
    rw [List.length_append, hB, Nat.add_div_left _ hpos]
  have hdrop : ∀ i, (B ++ PB).drop ((i + 1) * size tc) = PB.drop (i * size tc) := fun i => by
    rw [Nat.succ_mul, Nat.add_comm, ← List.drop_drop, List.drop_left' hB]
  simp only [decodeElems, hcount, List.range_succ_eq_map, List.map_cons, List.map_map, Nat.zero_mul, List.drop_zero,
    List.take_left' hB, Function.comp_def, Nat.succ_eq_add_one, hdrop]

/-- Packed elements of the width of their type code decode back (40_codec.md R100, R101). -/
theorem decodeElems_pack {tc : Byte} {E : List Pattern} (hpos : 0 < size tc)
    (hE : ∀ p ∈ E, p.toNat < 2 ^ (8 * size tc)) : decodeElems tc (pack tc E) = E := by
  induction E with
  | nil => simp [decodeElems, pack]
  | cons p E ih =>
    obtain ⟨hp, hE⟩ := List.forall_mem_cons.1 hE
    have hcons : pack tc (p :: E) = encodeElement tc p ++ pack tc E := rfl
    rw [hcons, decodeElems_append _ (Machine.encodeElement_length tc p) hpos, decodeElement_encodeElement hp, ih hE]

end Codec

namespace Machine

variable {s : State} {r : Request} {F : Frame}

/-! ## Whole elements of a supported type code -/

/-- EXEC of a WRITE of packed elements, as many as an RW cell has, stores them (43_registers.md R139, R141). -/
theorem execPhase_write_rw {d : Cell} {E : List Pattern} (F : Frame) (hd : s.cfg.cellAt r.addr = some d)
    (hk : r.kind = .write) (hv : d.variant = .rw) (htc : r.tc = d.tcode) (hlen : E.length = d.count)
    (hpos : 0 < Codec.size r.tc) (hE : ∀ p ∈ E, p.toNat < 2 ^ (8 * Codec.size r.tc))
    (hpay : r.payload = Codec.pack r.tc E) :
    execPhase r F s = (s.setStore (keyedSet s.store r.addr.toNat E)).setDisp (.stamp F .ok) := by
  have helems : reqElems r = E := by rw [reqElems, hpay, Codec.decodeElems_pack hpos hE]
  have haddr : d.addr = r.addr := (cellAt_mem hd).2
  simp [execPhase_eq, hk, regWrite, hd, hv, writeProtected, htc, helems, hlen, writeCell, storeTuple, haddr]

/-- Settles O37: each of the nine rows is a request of its type code, and the mux moves whole elements. -/
theorem supportedTypeRowsReplyAndStore : Obligations.SupportedTypeRowsReplyAndStore := by
  unfold Obligations.SupportedTypeRowsReplyAndStore
  intro row hrow o d F s hd htc
  obtain ⟨hreq, hpos⟩ : (row.1 o).request? = some (o.request row.2) ∧ 0 < Codec.size row.2 := by
    simp only [List.mem_cons, List.not_mem_nil, or_false] at hrow
    obtain rfl | rfl | rfl | rfl | rfl | rfl | rfl | rfl | rfl := hrow <;> exact ⟨rfl, by decide⟩
  refine ⟨fun ts hdisp hv hfit => ?_, fun E hdisp hk hv hlen hE hpay => ?_⟩
  · rw [exec_of_request hreq, requestStep, hdisp]
    exact buildPhase_stored ts hd hv htc.symm hfit
  · rw [exec_of_request hreq, requestStep, hdisp]
    exact congrArg _ (execPhase_write_rw F hd hk hv htc.symm hlen hpos hE hpay)

/-! ## An unsupported type code -/

/-- No cell of a checked configuration has an unsupported type code (00_scope.md R8 (c)). -/
theorem tcode_ne_of_unsupported {c : Cfg} {a tc : Byte} {d : Cell} (hc : c.wf = true)
    (htc : Codec.supported tc = false) (hd : c.cellAt a = some d) : tc ≠ d.tcode := by
  rintro rfl
  obtain ⟨-, -, -, hsup, -⟩ := (cfg_wf_iff c).1 hc
  simp [hsup d (cellAt_mem hd).1] at htc

theorem errorBytes_eq (r : Request) (ts : Stamp) :
    errorBytes r ts = Codec.wholeFrame (r.kind.byte ||| 0x08) r.addr 0xFF r.tc (some ts) (errorPayload r) := by
  unfold errorBytes errorPayload
  cases r.kind <;> rfl

/-- A WRITE by an unsupported type code fails in EXEC and changes no register (43_registers.md R142). -/
theorem execPhase_write_unsupported (F : Frame) (hc : s.cfg.wf = true) (htc : Codec.supported r.tc = false)
    (hk : r.kind = .write) : ∃ cause, execPhase r F s = s.setDisp (.stamp F (.err cause)) := by
  rw [execPhase_eq, if_pos hk]
  rcases hw : regWrite r.addr r.tc (reqElems r) s with ⟨res, t⟩
  obtain ⟨cause, rfl, rfl⟩ | ⟨d, hd, -, hd_tc, -⟩ := regWrite_cases hw
  · exact ⟨cause, rfl⟩
  · exact absurd hd_tc (tcode_ne_of_unsupported hc htc hd)

/-- BUILD of a request with an unsupported type code ends in its ERROR reply, whatever EXEC left (44_dispatch.md
R166). -/
theorem buildPhase_unsupported (res : Res) (ts : Stamp) (hc : s.cfg.wf = true) (htc : Codec.supported r.tc = false)
    (hfit : r.payload.length ≤ 245) : buildPhase r res ts s = .next (s.setDisp (.send (errorBytes r ts))) := by
  have herror (cause : Cause) : takeAccessError cause r ts s = .next (s.setDisp (.send (errorBytes r ts))) := by
    rw [takeAccessError_eq, errorBytes_eq, if_pos hfit]
  obtain ⟨cause, -, hb⟩ | ⟨cause, -, -, hb⟩ | ⟨E, t, -, hread, -⟩ := buildPhase_cases r res ts s
  · exact hb.trans (herror cause)
  · exact hb.trans (herror cause)
  · obtain ⟨d, hd, hd_tc, -⟩ := regRead_ok hread
    exact absurd hd_tc (tcode_ne_of_unsupported hc htc hd)

/-- Settles O38: no cell has the type code, so neither a write nor a read passes the check of 43_registers.md R142. -/
theorem anUnsupportedTypeGetsAnErrorReply : Obligations.AnUnsupportedTypeGetsAnErrorReply := by
  unfold Obligations.AnUnsupportedTypeGetsAnErrorReply
  intro tc o F s hc htc
  have hexec : exec (.ptUnsupported tc o) s = requestStep (o.request tc) s := exec_of_request rfl s
  refine ⟨fun hdisp hk => ?_, fun hdisp hk => ?_, fun res ts hdisp hfit => ?_⟩
  · rw [hexec, requestStep, hdisp]
    obtain ⟨cause, hcause⟩ := execPhase_write_unsupported (r := o.request tc) F hc htc hk
    exact ⟨cause, congrArg _ hcause⟩
  · rw [hexec, requestStep, hdisp]
    exact congrArg _ ((execPhase_eq (o.request tc) F s).trans (if_neg hk))
  · rw [hexec, requestStep, hdisp]
    exact buildPhase_unsupported res ts hc htc hfit

/-! ## What of a request has no effect -/

/-- An access error does not depend on the request's port and timestamp (44_dispatch.md R166): the ERROR reply always
has a timestamp of its own, and its length is that of the payload. -/
theorem takeAccessError_port_ts (cause : Cause) (r : Request) (p : Byte) (ts' : Option Stamp) (ts : Stamp) (s : State) :
    takeAccessError cause { r with port := p, ts := ts' } ts s = takeAccessError cause r ts s := by
  simp only [takeAccessError_eq, errorPayload]

/-- No phase of a request depends on its port and timestamp (30_encoding.md R72, R86). -/
theorem requestStep_port_ts (r : Request) (p : Byte) (ts' : Option Stamp) (s : State) :
    requestStep { r with port := p, ts := ts' } s = requestStep r s := by
  unfold requestStep
  split
  case h_4 F res ts hdisp =>
    cases res with
    | err cause => exact takeAccessError_port_ts cause r p ts' ts s
    | ok =>
      simp only [buildPhase, takeAccessError_port_ts]
      rfl
  all_goals rfl

/-- Settles O58: the two requests are one but for the fields that no phase reads. -/
theorem portAndInboundTimestampAreIgnored : Obligations.PortAndInboundTimestampAreIgnored := by
  unfold Obligations.PortAndInboundTimestampAreIgnored
  intro mk hmk o p f s
  simp only [List.mem_cons, List.not_mem_nil, or_false] at hmk
  obtain rfl | rfl | rfl := hmk
  · exact requestStep_port_ts (o.request .read) p _ s
  · exact requestStep_port_ts (o.request .write) p _ s
  · exact requestStep_port_ts (o.request .event) p _ s

end Machine
end Sys2Proof
end

section
/-! PROOFS. The value of an element in the interpretation of its type code, and that no view loses a bit of it
(30_encoding.md R73, R81; 40_codec.md R99). -/
namespace Sys2Proof.Codec

/-! ## The binary32 datum of three fields -/

/-- The IEEE-754 binary32 datum of a sign, an exponent field with bias 127, and a fraction of 23 bits (40_codec.md
R99). -/
def Datum.ofFields (sg : Bool) (e : BitVec 8) (f : BitVec 23) : Datum :=
  if e = 255 then (if f = 0 then .infinity sg else .nan sg f)
  else if e = 0 then .finite sg f.toNat (-149)
  else .finite sg (2 ^ 23 + f.toNat) ((e.toNat : Int) - 127 - 23)

theorem datum_of_floatView {sg : Bool} {e : BitVec 8} {f : BitVec 23} {p : Pattern} (h : floatView p = (sg, e, f)) :
    datum p = .ofFields sg e f := by
  simp only [datum, Datum.ofFields, h, sub_sub]
  rfl

/-- The fields that a datum is of: a finite one is subnormal iff its significand has no bit 23. -/
def Datum.fields : Datum → Bool × BitVec 8 × BitVec 23
  | .infinity sg => (sg, 255, 0)
  | .nan sg f => (sg, 255, f)
  | .finite sg m x => (sg, if m < 2 ^ 23 then 0 else BitVec.ofInt 8 (x + 150), BitVec.ofNat 23 m)

theorem Datum.fields_ofFields (sg : Bool) (e : BitVec 8) (f : BitVec 23) : (ofFields sg e f).fields = (sg, e, f) := by
  have hf := f.isLt
  unfold ofFields
  split_ifs with hmax hzero hsub
  · rw [hmax, hzero]; rfl
  · rw [hmax]; rfl
  · simp only [Datum.fields, hf, if_true, hsub, BitVec.ofNat_toNat, BitVec.setWidth_eq]
  · have hexp : BitVec.ofInt 8 ((e.toNat : Int) - 127 - 23 + 150) = e := by
      rw [show (e.toNat : Int) - 127 - 23 + 150 = e.toNat by omega, BitVec.ofInt_natCast, BitVec.ofNat_toNat,
        BitVec.setWidth_eq]
    have hsig : BitVec.ofNat 23 (2 ^ 23 + f.toNat) = f := BitVec.eq_of_toNat_eq (by rw [BitVec.toNat_ofNat]; omega)
    simp only [Datum.fields, hexp, hsig, if_neg (show ¬ 2 ^ 23 + f.toNat < 2 ^ 23 by omega)]

/-! ## Values lose nothing -/

/-- The datum of a pattern of 32 bits determines the pattern: its fields make it up (10_state.md R23). -/
theorem eq_of_datum_eq {p q : Pattern} (hp : p.toNat < 2 ^ 32) (hq : q.toNat < 2 ^ 32) (h : datum p = datum q) :
    p = q := by
  have hfields (x : Pattern) : (datum x).fields = floatView x := by
    exact (congrArg Datum.fields (datum_of_floatView rfl)).trans (Datum.fields_ofFields _ _ _)
  have hview : floatView p = floatView q := by rw [← hfields p, ← hfields q, h]
  exact BitVec.eq_of_toNat_eq (by rw [floatView_makes hp, floatView_makes hq, hview])

/-- The value of a pattern of the width of its type code determines the pattern (10_state.md R23). -/
theorem Interp.eq_of_value_eq {tc : Byte} {i : Interp} {p q : Pattern} (hi : interp? tc = some i)
    (hsize : 1 ≤ size tc) (hp : p.toNat < 2 ^ (8 * size tc)) (hq : q.toNat < 2 ^ (8 * size tc))
    (h : i.value (size tc) p = i.value (size tc) q) : p = q := by
  cases i with
  | unsigned =>
    have hview : (p.toNat : Int) = q.toNat := Value.integer.inj h
    exact BitVec.eq_of_toNat_eq (by omega)
  | signed =>
    obtain ⟨-, -, hp'⟩ := signedView_spec hsize hp
    obtain ⟨-, -, hq'⟩ := signedView_spec hsize hq
    rw [Value.integer.inj h, hq'] at hp'
    exact BitVec.eq_of_toNat_eq (by omega)
  | float =>
    have hsize4 : ∀ tc : Byte, interp? tc = some .float → size tc = 4 := by decide
    rw [hsize4 tc hi] at hp hq
    exact eq_of_datum_eq hp hq (Value.float.inj h)

end Sys2Proof.Codec

namespace Sys2Proof

/-- Settles O60: each code selects the view of its interpretation. -/
theorem eachTypeCodeReadsItsElements : Obligations.EachTypeCodeReadsItsElements := by
  unfold Obligations.EachTypeCodeReadsItsElements
  refine ⟨fun p tc htc => ?_, fun p tc htc hp => ?_, fun sg e f p hp => ?_, fun tc p htc => ?_,
    fun tc p q htc hp hq h => ?_⟩
  · simp only [List.mem_cons, List.not_mem_nil, or_false] at htc
    obtain rfl | rfl | rfl | rfl := htc <;> rfl
  · obtain ⟨hi, hsize⟩ : Codec.interp? tc = some .signed ∧ 1 ≤ Codec.size tc := by
      clear hp; revert tc; decide
    exact ⟨_, by rw [Codec.value?, hi]; rfl, Codec.signedView_spec hsize hp⟩
  · exact congrArg (fun d => some (Codec.Value.float d)) (Codec.datum_of_floatView (Codec.floatView_eq hp))
  · have hnone : Codec.interp? tc = none := by
      rw [← Option.not_isSome_iff_eq_none, Codec.interp?_isSome, htc]; decide
    rw [Codec.value?, hnone]
    rfl
  · obtain ⟨i, hi⟩ : ∃ i, Codec.interp? tc = some i :=
      Option.isSome_iff_exists.1 ((Codec.interp?_isSome tc).trans htc)
    simp only [Codec.value?, hi, Option.map_some, Option.some.injEq] at h
    exact Codec.Interp.eq_of_value_eq hi (Codec.size_pos tc htc) hp hq h

end Sys2Proof
end

section
/-! PROOFS. The laws of the frame codec: the checksum of a finalized frame (40_codec.md R108) and the round trip of a
packed payload (40_codec.md R107). -/
namespace Sys2Proof

namespace Codec

/-- The payload that a whole frame was built from is what it decodes to (40_codec.md R100, R104). -/
theorem decodePayload_wholeFrame (mt a port : Byte) {tc : Byte} (ts : Option Stamp) (PB : List Byte)
    (htc : typeCodeOk tc = true) (h : offsetOf ts + PB.length ≤ 256) :
    decodePayload (wholeFrame mt a port tc ts PB) = decodeElems tc PB := by
  simp only [decodePayload, wholeFrame_fields mt a port tc ts PB h, tcode_ptByte tc ts htc]

end Codec

open Codec (wholeFrame offsetOf)

/-- Settles O1: finalizing replaces the last byte by the sum of the others, which is what the check compares. -/
theorem finalizedFramePassesItsChecksum : Obligations.FinalizedFramePassesItsChecksum := by
  unfold Obligations.FinalizedFramePassesItsChecksum
  intro B _
  exact Codec.validateChecksum_append B.dropLast

/-- Settles O2: a payload that fills its region makes a whole frame, which passes framing and keeps the payload. -/
theorem packedPayloadDecodesBack : Obligations.PackedPayloadDecodesBack := by
  unfold Obligations.PackedPayloadDecodesBack
  intro mt a tc ts E L htc hE hL hfit
  have hlen : L + 1 = offsetOf ts + (Codec.pack tc E).length := by
    have := Codec.offsetOf_pos ts
    rw [Codec.payloadOffset_ptByte] at hL
    rw [Machine.pack_length]
    omega
  have hregion : offsetOf ts + (Codec.pack tc E).length ≤ 256 := by omega
  have hframed := Codec.framed_wholeFrame mt a 0xFF tc ts (Codec.pack tc E) hregion
  refine ⟨wholeFrame mt a 0xFF tc ts (Codec.pack tc E), Codec.finalize_encode mt a tc L ts _ hlen hfit, ?_,
    hframed.checksum, hframed.structured⟩
  rw [Codec.decodePayload_wholeFrame mt a 0xFF ts _ (Codec.typeCodeOk_of_supported tc htc) hregion,
    Codec.decodeElems_pack (Codec.size_pos tc htc) hE]

end Sys2Proof
end

section
/-! PROOFS. Receiving and transmitting (41_rxtx.md): what RX does with each byte, so that a frame on the inbound stream
costs one step a byte and ends in stage-2 validation; and that only TX writes the outbound stream. -/
namespace Sys2Proof.Machine

variable {s t : State}

/-! ## Which frames pass framing -/

theorem validateMessageType_iff (mt : Byte) : Codec.validateMessageType mt = true ↔ mt = 1 ∨ mt = 2 ∨ mt = 3 := by
  simp [Codec.validateMessageType, or_assoc]

/-- A request has a header of a request kind, the length its length byte says, and passes both checks of stage 2
(41_rxtx.md R115). -/
theorem checks_of_isRequest {F : Frame} (h : IsRequest F) :
    ∃ mt len got, F = mt :: len :: got ∧ got.length = len.toNat ∧ Codec.validateMessageType mt = true ∧
      Codec.validateChecksum F = true ∧ Codec.validateStructure F = true := by
  obtain ⟨r, hr⟩ := h
  obtain ⟨f, k, hF, hk, -⟩ := decodeRequest_eq_ok_iff.1 hr
  obtain ⟨hhead, -⟩ := Codec.fields_some hF.fields_eq
  match F, hhead with
  | mt :: len :: got, hhead =>
    obtain ⟨rfl, rfl, -⟩ : mt = f.mt ∧ len = f.len ∧ _ := by simpa using hhead
    have hmt : Codec.validateMessageType f.mt = true := by rw [← Kind.ofByte?_isSome, hk]; rfl
    exact ⟨f.mt, f.len, got, rfl, by simpa using hF.length_eq, hmt, hF.checksum, hF.structured⟩

/-- Settles O6: the decoder's checks are those of the receive stage, in both directions. -/
theorem aRequestIsWhatPassesFraming : Obligations.ARequestIsWhatPassesFraming := by
  unfold Obligations.ARequestIsWhatPassesFraming
  intro F
  constructor
  · intro h
    obtain ⟨mt, len, got, rfl, hlen, hmt, hsum, hstruct⟩ := checks_of_isRequest h
    exact ⟨mt, len, got, rfl, by simp [hlen], (validateMessageType_iff mt).1 hmt, hsum, hstruct⟩
  · rintro ⟨mt, len, got, rfl, hlen, hmt, hsum, hstruct⟩
    exact isRequest_of_checks ((validateMessageType_iff mt).2 hmt) (by simpa using hlen) hsum hstruct

/-! ## Stage 2 of RX -/

/-- What passes both checks is appended (41_rxtx.md R112). -/
theorem rxComplete_accepts (hsum : Codec.validateChecksum s.rx.buf = true)
    (hstruct : Codec.validateStructure s.rx.buf = true) :
    rxComplete s = (appendRx s.rx.buf s).setRx ⟨.hdr, [], 2⟩ := by
  simp [rxComplete, hsum, hstruct]

/-- What fails a check is discarded (41_rxtx.md R112, R113). -/
theorem rxComplete_discards
    (h : Codec.validateChecksum s.rx.buf = false ∨ Codec.validateStructure s.rx.buf = false) :
    rxComplete s = s.setRx ⟨.hdr, [], 2⟩ := by
  obtain hdone | ⟨hsum, hstruct, -⟩ := rxComplete_cases s
  · exact hdone
  · simp [hsum, hstruct] at h

/-- A header alone is no frame: the length byte counts at least 4 (40_codec.md R106). -/
theorem validateStructure_header (mt : Byte) : Codec.validateStructure [mt, 0] = false := rfl

/-! ## One byte -/

@[simp] theorem cooperativeIdle_setRx (s : State) (r : Rx) : cooperativeIdle (s.setRx r) = cooperativeIdle s := rfl
@[simp] theorem cooperativeIdle_setRxIn (s : State) (bs : List Byte) :
    cooperativeIdle (s.setRxIn bs) = cooperativeIdle s := rfl

theorem setRx_eq_self {r : Rx} (h : s.rx = r) : s.setRx r = s := by subst h; rfl

/-- RX steps while DISP is idle and no fire is in progress (10_state.md R33, 45_events.md R191). -/
theorem agentStep_rx (hs : cooperativeIdle s = true) : agentStep .rx s = rxStep s := if_pos hs

/-- The first header byte is kept (41_rxtx.md R109). -/
theorem agentStep_rx_first {b : Byte} {rest : List Byte} (hs : cooperativeIdle s = true) (hin : s.rxIn = b :: rest)
    (hrx : s.rx = ⟨.hdr, [], 2⟩) : agentStep .rx s = .next ((s.setRxIn rest).setRx ⟨.hdr, [b], 1⟩) := by
  simp only [agentStep_rx hs, rxStep, hin, hrx]
  exact rxHeader_first (by simp [hrx])

/-- The second header byte completes the header (41_rxtx.md R109, R110). -/
theorem agentStep_rx_second {mt len : Byte} {rest : List Byte} (hs : cooperativeIdle s = true)
    (hin : s.rxIn = len :: rest) (hrx : s.rx = ⟨.hdr, [mt], 1⟩) :
    agentStep .rx s =
      if Codec.validateMessageType mt then
        if len = 0 then .next (rxComplete ((s.setRxIn rest).setRx ⟨.body, [mt, len], len.toNat⟩))
        else .next ((s.setRxIn rest).setRx ⟨.body, [mt, len], len.toNat⟩)
      else .next ((s.setRxIn rest).setRx ⟨.hdr, [], 2⟩) := by
  simp only [agentStep_rx hs, rxStep, hin, hrx]
  exact rxHeader_second (by simp [hrx])

/-- A body byte is kept, and the last one that the length byte declares starts stage 2 (41_rxtx.md R111, R112). -/
theorem agentStep_rx_body {b : Byte} {rest buf : List Byte} {need : Nat} (hs : cooperativeIdle s = true)
    (hin : s.rxIn = b :: rest) (hrx : s.rx = ⟨.body, buf, need + 1⟩) :
    agentStep .rx s =
      if need = 0 then .next (rxComplete ((s.setRxIn rest).setRx ⟨.body, buf ++ [b], need⟩))
      else .next ((s.setRxIn rest).setRx ⟨.body, buf ++ [b], need⟩) := by
  simp [agentStep_rx hs, rxStep, hin, hrx, rxBody]

/-- Settles O10: the meaning of INVALID_MSGTYPE is the discard of 41_rxtx.md R113. -/
theorem anInvalidHeaderIsDiscarded : Obligations.AnInvalidHeaderIsDiscarded := by
  unfold Obligations.AnInvalidHeaderIsDiscarded
  intro mt len s
  rfl

/-- Settles O11: a header with length byte 0 goes straight to stage 2, whose structural check it fails. -/
theorem aHeaderByteIsFramed : Obligations.AHeaderByteIsFramed := by
  unfold Obligations.AHeaderByteIsFramed
  intro s b rest hs hin
  refine ⟨agentStep_rx_first hs hin, fun mt hrx => ⟨fun hmt => ?_, fun hmt hb => ?_, fun hmt hb => ?_⟩⟩
  · rw [agentStep_rx_second hs hin hrx, hmt, if_neg Bool.false_ne_true]
  · rw [agentStep_rx_second hs hin hrx, if_pos hmt, if_neg hb]
  · subst hb
    rw [agentStep_rx_second hs hin hrx, if_pos hmt, if_pos rfl,
      rxComplete_discards (.inr (validateStructure_header mt))]
    rfl

/-! ## One frame -/

theorem agentSteps_succ {m : Move} {n : Nat} (h : agentStep m s = .next t) :
    agentSteps m (n + 1) s = agentSteps m n t := by
  simp only [agentSteps, h]

/-- As many body bytes as are needed are taken by one step each, and then stage 2 sees the whole frame (41_rxtx.md
R111, R112). -/
theorem agentSteps_rx_body {b : Byte} {got rest buf : List Byte} (hs : cooperativeIdle s = true)
    (hrx : s.rx = ⟨.body, buf, got.length + 1⟩) (hin : s.rxIn = b :: got ++ rest) :
    agentSteps .rx (got.length + 1) s = .next (rxComplete ((s.setRxIn rest).setRx ⟨.body, buf ++ b :: got, 0⟩)) := by
  induction got generalizing s b buf with
  | nil => exact agentSteps_succ (agentStep_rx_body hs hin hrx)
  | cons c got ih =>
    have hstep := agentStep_rx_body hs hin hrx
    rw [if_neg (by simp)] at hstep
    rw [agentSteps_succ hstep, List.length_cons, ih (by simpa using hs) rfl rfl, List.append_assoc]
    rfl

/-- A header of a request kind and the body that it declares are taken by one step a byte, and then stage 2 sees the
whole frame (41_rxtx.md R109 to R112). -/
theorem agentSteps_rx_frame {mt len : Byte} {body rest : List Byte} (hs : cooperativeIdle s = true)
    (hrx : s.rx = ⟨.hdr, [], 2⟩) (hmt : Codec.validateMessageType mt = true) (hlen : body.length = len.toNat)
    (hin : s.rxIn = mt :: len :: body ++ rest) :
    agentSteps .rx (body.length + 2) s =
      .next (rxComplete ((s.setRxIn rest).setRx ⟨.body, mt :: len :: body, 0⟩)) := by
  have hfirst : agentStep .rx s = .next ((s.setRxIn (len :: body ++ rest)).setRx ⟨.hdr, [mt], 1⟩) :=
    agentStep_rx_first hs hin hrx
  have hsecond := agentStep_rx_second (s := (s.setRxIn (len :: body ++ rest)).setRx ⟨.hdr, [mt], 1⟩)
    (by simpa using hs) rfl rfl
  rw [if_pos hmt] at hsecond
  rw [agentSteps_succ hfirst]
  cases body with
  | nil =>
    obtain rfl : len = 0 := BitVec.eq_of_toNat_eq hlen.symm
    rw [agentSteps_succ hsecond]
    rfl
  | cons b got =>
    have hne : len ≠ 0 := by rintro rfl; simp at hlen
    rw [if_neg hne] at hsecond
    rw [agentSteps_succ hsecond, List.length_cons,
      agentSteps_rx_body (buf := [mt, len]) (by simpa using hs) (by simp [← hlen]) rfl]
    rfl

/-- Settles O12: stage 2 sees the request's bytes, and they pass its checks. -/
theorem aWholeFrameIsReceived : Obligations.AWholeFrameIsReceived := by
  unfold Obligations.AWholeFrameIsReceived
  intro s F rest hs hrx hF hin
  obtain ⟨mt, len, got, rfl, hlen, hmt, hsum, hstruct⟩ := checks_of_isRequest hF
  rw [List.length_cons, List.length_cons, agentSteps_rx_frame hs hrx hmt hlen hin, rxComplete_accepts hsum hstruct,
    ← setRx_eq_self (s := (s.setRxIn rest).setRxq _) hrx]
  rfl

/-- Settles O13: stage 2 sees the bytes and discards them. -/
theorem aBadFrameLeavesNoTrace : Obligations.ABadFrameLeavesNoTrace := by
  unfold Obligations.ABadFrameLeavesNoTrace
  intro s mt len body rest hs hrx hmt hlen hbad hin
  rw [agentSteps_rx_frame hs hrx hmt hlen hin, rxComplete_discards hbad, ← setRx_eq_self (s := s.setRxIn rest) hrx]
  rfl

/-! ## Only TX writes the outbound stream -/

theorem Sampled.txOut_eq (h : Sampled s t) : t.txOut = s.txOut := by
  obtain ⟨c, ti, pi, n, rfl⟩ := h; rfl

theorem writeCell_txOut (c : Cell) (E : List Pattern) (s : State) : (writeCell c E s).txOut = s.txOut := by
  unfold writeCell
  split
  case h_5 => exact (sampled_clockWrite _ s).txOut_eq
  all_goals rfl

theorem execPhase_txOut (r : Request) (F : Frame) (s : State) : (execPhase r F s).txOut = s.txOut := by
  rw [execPhase_eq]
  split_ifs
  · rcases hw : regWrite r.addr r.tc (reqElems r) s with ⟨res, u⟩
    obtain ⟨cause, -, rfl⟩ | ⟨c, -, -, -, -, -, rfl⟩ := regWrite_cases hw
    · rfl
    · exact writeCell_txOut c _ s
  · rfl

theorem popPhase_txOut (s : State) : (popPhase s).txOut = s.txOut := by
  unfold popPhase
  split <;> rfl

/-- No phase of a request sends bytes: a reply waits in `txq` for TX (45_events.md R190). -/
theorem requestStep_txOut {r : Request} (h : requestStep r s = .next t) : t.txOut = s.txOut := by
  unfold requestStep at h
  cases hdisp : s.disp <;> simp only [hdisp] at h
  case build F res ts =>
    obtain ⟨-, rfl⟩ | ⟨-, rfl⟩ | ⟨E, u, R, hread, -, rfl⟩ := buildPhase_next h
    · rfl
    · rfl
    · exact (sampled_of_regRead hread).txOut_eq
  case idle => cases h; exact popPhase_txOut s
  case exec F => cases h; exact execPhase_txOut r F s
  case stamp F res => cases h; exact (sampled_clockSample s).txOut_eq
  all_goals cases h; rfl

theorem sendPhase_txOut {mt : Byte} {o : OutOps} (h : sendPhase mt o s = .next t) : t.txOut = s.txOut := by
  unfold sendPhase at h
  split at h
  · split at h <;> cases h
    rfl
  all_goals cases h; rfl

/-- No instruction sends bytes (45_events.md R190). -/
theorem exec_txOut {i : Instr} (h : exec i s = .next t) : t.txOut = s.txOut := by
  cases hr : i.request? with
  | some r => exact requestStep_txOut (exec_of_request hr s ▸ h)
  | none =>
    cases i <;> simp only [Instr.request?, reduceCtorEq] at hr
    case invalidMsgtype mt len => cases h; rfl
    case eventNotify o => rw [notify_next (o := o) h]; rfl
    all_goals exact sendPhase_txOut h

theorem pollPhase_txOut {k : Nat} (h : pollPhase k s = .next t) : t.txOut = s.txOut := by
  unfold pollPhase at h
  split at h
  · dsimp only at h
    split at h
    · unfold pollService at h
      dsimp only at h
      split at h
      · cases h; rfl
      · split at h
        · cases h
        · rename_i o u ho
          exact (exec_txOut h).trans (sampled_of_eventOps ho).txOut_eq
    · cases h; rfl
  · cases h; rfl

theorem runRequest_txOut {F : Frame} (h : runRequest F s = .next t) : t.txOut = s.txOut := by
  obtain ⟨r, -, hr⟩ := runRequest_next h
  exact requestStep_txOut hr

theorem runReply_txOut {R : Frame} (h : runReply R s = .next t) : t.txOut = s.txOut := by
  unfold runReply at h
  split at h
  · exact exec_txOut h
  · cases h

theorem dispStep_txOut (h : dispStep s = .next t) : t.txOut = s.txOut := by
  unfold dispStep at h
  cases hdisp : s.disp <;> simp only [hdisp] at h
  case idle =>
    cases hq : s.rxq with
    | nil => simp only [hq] at h; split_ifs at h <;> cases h <;> rfl
    | cons F q => simp only [hq] at h; exact runRequest_txOut h
  case exec F => exact runRequest_txOut h
  case stamp F res => exact runRequest_txOut h
  case build F res ts => exact runRequest_txOut h
  case send R => exact runReply_txOut h
  case sync => cases h; rfl
  case poll k => exact pollPhase_txOut h

theorem rxStep_txOut (h : rxStep s = .next t) : t.txOut = s.txOut := by
  obtain ⟨bs, r, q, hrx⟩ := rxStep_frame s
  cases hrx.symm.trans h
  rfl

theorem fireStep_txOut {e : Nat} (h : fireStep e s = .next t) : t.txOut = s.txOut := by
  obtain rfl | ⟨d, ev, o, u, -, -, -, -, -, ho, rfl⟩ := fireStep_cases h
  · rfl
  · exact (sampled_of_eventOps ho).txOut_eq

theorem appendStep_txOut {e : Nat} (h : appendStep e s = .next t) : t.txOut = s.txOut := by
  unfold appendStep at h
  split at h
  · cases h; rfl
  · split at h
    · cases h; rfl
    · split at h
      · cases h
      · split at h
        · exact (exec_txOut h).trans rfl
        · cases h

theorem tickStep_txOut (e : Nat) (s : State) : (tickStep e s).txOut = s.txOut := by
  obtain h | ⟨d, ev, -, -, -, -, h⟩ := tickStep_cases e s <;> rw [h]
  rfl

/-- Only TX sends bytes, and it sends the oldest frame of `txq` whole (41_rxtx.md R117, R119). -/
theorem agentStep_txOut {m : Move} (h : agentStep m s = .next t) :
    t.txOut = s.txOut ∨ ∃ F q, m = .tx ∧ s.txq = F :: q ∧ t = (s.setTxq q).setTxOut (s.txOut ++ F) := by
  cases m <;> simp only [agentStep] at h
  case tx =>
    split_ifs at h
    · obtain ⟨-, htx⟩ | ⟨F, q, hq, htx⟩ := txStep_cases s <;> cases htx.symm.trans h
      · exact .inl rfl
      · exact .inr ⟨F, q, rfl, hq, rfl⟩
    · cases h; exact .inl rfl
  case rx =>
    split_ifs at h
    · exact .inl (rxStep_txOut h)
    · cases h; exact .inl rfl
  case disp =>
    split_ifs at h
    · cases h; exact .inl rfl
    · exact .inl (dispStep_txOut h)
  case fire e => exact .inl (fireStep_txOut h)
  case append e => exact .inl (appendStep_txOut h)
  case tick e => cases h; exact .inl (tickStep_txOut e s)
  all_goals cases h; exact .inl rfl

/-- Settles O15: using up the choice changes neither `txq` nor `tx_out`, and then one agent steps. -/
theorem outboundBytesAreQueuedFrames : Obligations.OutboundBytesAreQueuedFrames := by
  unfold Obligations.OutboundBytesAreQueuedFrames
  intro s t hstep
  obtain ⟨ms, n, hchoose⟩ := chooseMove_frame s
  have htxq : (chooseMove s).2.txq = s.txq := by rw [hchoose]; rfl
  have htxOut : (chooseMove s).2.txOut = s.txOut := by rw [hchoose]; rfl
  obtain hkeep | ⟨F, q, hm, hq, rfl⟩ := agentStep_txOut hstep
  · exact .inl (hkeep.trans htxOut)
  · exact .inr ⟨F, q, hm, htxq ▸ hq, rfl, by simp [htxOut]⟩

/-- Settles O14: a frame in `txq` is what TX pops. -/
theorem txSendsTheOldestFrameWhole : Obligations.TxSendsTheOldestFrameWhole := by
  unfold Obligations.TxSendsTheOldestFrameWhole
  intro s F q hs hq
  simp [agentStep, hs, txStep, hq, queuePop]

/-! ## Agents that are not enabled -/

theorem agentStep_rx_of_not_idle (h : cooperativeIdle s = false) : agentStep .rx s = .next s := by
  simp [agentStep, h]

theorem agentStep_tx_of_not_idle (h : cooperativeIdle s = false) : agentStep .tx s = .next s := by
  simp [agentStep, h]

/-- An idle DISP with no request looks for a pending poll tick (44_dispatch.md R158, R159). -/
theorem dispStep_of_no_request (hdisp : s.disp = .idle) (hq : s.rxq = []) :
    dispStep s = if anyPending s then .next (s.setDisp .sync) else .next s := by
  simp only [dispStep, hdisp, hq]

theorem anyPending_of_getElem? {k : Nat} {d : EventDesc} {ev : EventState} (hd : s.cfg.events[k]? = some d)
    (hev : s.evs[k]? = some ev) (hkind : d.kind = .poll) (hpend : ev.pending = true) : anyPending s = true := by
  have hmem : (d, ev) ∈ s.cfg.events.zip s.evs :=
    List.mem_of_getElem? (List.getElem?_zip_eq_some.2 ⟨hd, hev⟩)
  exact List.any_eq_true.2 ⟨(d, ev), hmem, by simp [hkind, hpend]⟩

/-- Settles O16: each clause is a guard of the agent's step that fails, and the last is DISP's wake-up. -/
theorem agentsWithNothingToDoChangeNothing : Obligations.AgentsWithNothingToDoChangeNothing := by
  unfold Obligations.AgentsWithNothingToDoChangeNothing
  intro s
  refine ⟨fun hbusy => ?_, fun hdisp => ?_, fun hin => ?_, fun hq => ?_, fun hdisp hq hpend => ?_,
    fun k d ev hd hev hkind hpend hbusy hdisp hq => ?_⟩
  · have hidle : cooperativeIdle s = false := by simp [cooperativeIdle, hbusy]
    exact ⟨agentStep_rx_of_not_idle hidle, agentStep_tx_of_not_idle hidle, by simp [agentStep, hbusy]⟩
  · have hidle : cooperativeIdle s = false := by simp [cooperativeIdle, hdisp]
    exact ⟨agentStep_rx_of_not_idle hidle, agentStep_tx_of_not_idle hidle⟩
  · simp [agentStep, rxStep, hin]
  · simp [agentStep, txStep, hq, queuePop]
  · simp [agentStep, dispStep_of_no_request hdisp hq, hpend]
  · simp [agentStep, dispStep_of_no_request hdisp hq, hbusy, anyPending_of_getElem? hd hev hkind hpend]

end Sys2Proof.Machine
end

section
/-! PROOFS. The clock synchronizer (42_clock.md): the tick delta, the timestamp of a microsecond total, what a rebase
leaves the clock at, and that the clock never runs backwards. -/
namespace Sys2Proof.Machine

/-! ## Samples -/

/-- The delta of two samples is their difference modulo 2^30 (42_clock.md R121). -/
theorem clockDelta_toNat (r last : Tick) :
    ((clockDelta r last).toNat : Int) = ((r.toNat : Int) - last.toNat + 2 ^ 30) % 2 ^ 30 := by
  rw [clockDelta, BitVec.toNat_sub]
  omega

/-- Settles O18: subtraction of 30-bit words is modulo 2^30. -/
theorem theTickDeltaIsModular : Obligations.TheTickDeltaIsModular := by
  unfold Obligations.TheTickDeltaIsModular
  exact clockDelta_toNat

/-- No number of samples lowers the total (42_clock.md R122). -/
theorem clockTotal_le_iterate (s : State) (n : Nat) : clockTotal s ≤ clockTotal (clockSample^[n] s) := by
  induction n with
  | zero => exact le_rfl
  | succ n ih =>
    rw [Function.iterate_succ_apply']
    exact ih.trans (clockTotal_le_clockSample _)

/-! ## Timestamps -/

/-- The seconds of a total, in the 32 bits of the field (42_clock.md R123). -/
theorem stampOf_sec (total : Int) : ((stampOf total).sec.toNat : Int) = total / 1000000 % 2 ^ 32 := by
  simp only [stampOf, BitVec.toNat_ofInt]
  omega

/-- The micro-ticks of a total fit their field: nothing of them is cut off (42_clock.md R123). -/
theorem stampOf_ticks (total : Int) : ((stampOf total).ticks.toNat : Int) = total % 1000000 / 32 := by
  simp only [stampOf, BitVec.toNat_ofInt]
  omega

/-- Settles O19: a read is one sample and the timestamp of its total. -/
theorem theClockReadsTheMicrosecondTotal : Obligations.TheClockReadsTheMicrosecondTotal := by
  unfold Obligations.TheClockReadsTheMicrosecondTotal
  intro s _ r acc total ts
  exact ⟨clockSample_eq s, stampOf_sec total, stampOf_ticks total, Nat.le_of_lt_succ (stampOf_ticks_lt total)⟩

/-- Within one epoch of 2^32 seconds, a later total has no earlier timestamp (42_clock.md R125). -/
theorem stampOf_le {x y : Int} (hxy : x ≤ y) (hepoch : x / 4294967296000000 = y / 4294967296000000) :
    (stampOf x).sec.toNat < (stampOf y).sec.toNat ∨
      (stampOf x).sec = (stampOf y).sec ∧ (stampOf x).ticks.toNat ≤ (stampOf y).ticks.toNat := by
  have hsx := stampOf_sec x
  have hsy := stampOf_sec y
  have htx := stampOf_ticks x
  have hty := stampOf_ticks y
  rw [← BitVec.toNat_inj]
  omega

/-- Settles O21: samples never lower the total. -/
theorem theClockNeverRunsBackwards : Obligations.TheClockNeverRunsBackwards := by
  unfold Obligations.TheClockNeverRunsBackwards
  intro s n _ u first second hepoch
  exact stampOf_le ((clockTotal_le_iterate _ n).trans (clockTotal_le_clockSample u)) hepoch

/-! ## After a rebase -/

/-- `e` microseconds after the start of second `T` (42_clock.md R126). -/
theorem stampOf_second_add (T : BitVec 32) (e : Int) :
    ((stampOf ((T.toNat : Int) * 1000000 + e)).sec.toNat : Int) = (T.toNat + e / 1000000) % 2 ^ 32 ∧
      ((stampOf ((T.toNat : Int) * 1000000 + e)).ticks.toNat : Int) = e % 1000000 / 32 := by
  rw [stampOf_sec, stampOf_ticks]
  omega

/-- Within second `T` the seconds field is `T`: 32 bits hold it (42_clock.md R126). -/
theorem stampOf_sec_of_lt (T : BitVec 32) {e : Int} (h0 : 0 ≤ e) (h1 : e < 1000000) :
    (stampOf ((T.toNat : Int) * 1000000 + e)).sec = T := by
  have hsec := (stampOf_second_add T e).1
  have hT := T.isLt
  rw [← BitVec.toNat_inj]
  omega

/-- No offset of a rebase is above what an s_64 holds (10_state.md R27): the target has 32 bits. -/
theorem rebaseOffset_lt (T : BitVec 32) (s : State) : rebaseOffset T s < 2 ^ 63 := by
  have hT := T.isLt
  have hsub := Int.emod_lt_of_pos (clockTotal (clockSample s)) (show (0 : Int) < 1000000 by decide)
  simp only [rebaseOffset]
  omega

/-- The total that the read after a rebase finds, `d` microseconds later (42_clock.md R124, R126). -/
theorem clockTotal_sample_clockWrite {T : BitVec 32} {s : State} (h : -2 ^ 63 ≤ rebaseOffset T s) :
    clockTotal (clockSample (clockWrite T s)) =
      (T.toNat : Int) * 1000000 + (clockTotal (clockSample s) % 1000000 +
        (clockDelta (drawTick (clockWrite T s)).1 (clockWrite T s).clock.last).toNat) := by
  rw [clockTotal_clockSample, clockTotal_clockWrite ((fitsS64_iff _).2 ⟨h, rebaseOffset_lt T s⟩), add_assoc]

/-- Settles O20: the read finds the total that the rebase left, plus the microseconds since. -/
theorem afterAWriteTheClockReadsTheTarget : Obligations.AfterAWriteTheClockReadsTheTarget := by
  unfold Obligations.AfterAWriteTheClockReadsTheTarget
  intro s T w sub d ts x hx
  have hts : ts = stampOf ((T.toNat : Int) * 1000000 + (sub + d)) :=
    congrArg stampOf (clockTotal_sample_clockWrite hx)
  have hsub0 : 0 ≤ sub := Int.emod_nonneg _ (by decide)
  have hsub1 : sub < 1000000 := Int.emod_lt_of_pos _ (by decide)
  obtain ⟨hsec, hticks⟩ := stampOf_second_add T (sub + d)
  rw [hts]
  refine ⟨hsec, hticks, fun hd => ⟨stampOf_sec_of_lt T (by omega) (by omega), ?_, stampOf_ticks_lt _⟩,
    fun hd => stampOf_sec_of_lt T (by omega) (by omega)⟩
  rw [hticks, hd, Nat.cast_zero, add_zero, Int.emod_eq_of_lt hsub0 hsub1]

end Sys2Proof.Machine
end

section
/-! PROOFS. Register writes: the four checks in the order of 43_registers.md R141, each failing without a trace, and the
rebase of the clock that a write to TIMESTAMP_SECOND is (42_clock.md R128). -/
namespace Sys2Proof

namespace Codec

@[simp] theorem decodeElems_length (tc : Byte) (PB : List Byte) : (decodeElems tc PB).length = PB.length / size tc := by
  simp [decodeElems]

/-- Residue bytes are no element (30_encoding.md R82). -/
theorem decodeElems_residue {tc : Byte} {B : List Byte} (residue : List Byte) (hB : B.length = size tc)
    (h : residue.length < size tc) : decodeElems tc (B ++ residue) = [decodeElement B] := by
  have hnil : decodeElems tc residue = [] := by
    rw [← List.length_eq_zero_iff, decodeElems_length, Nat.div_eq_of_lt h]
  rw [decodeElems_append residue hB (by omega), hnil]

/-- Four bytes, little-endian, are a 32-bit number (40_codec.md R99). -/
theorem decodeElement_four_toNat (b0 b1 b2 b3 : Byte) :
    ((decodeElement [b0, b1, b2, b3]).setWidth 32).toNat =
      b0.toNat + 256 * b1.toNat + 65536 * b2.toNat + 16777216 * b3.toNat := by
  simp only [decodeElement, unle, BitVec.toNat_setWidth, BitVec.toNat_ofNat]
  omega

end Codec

namespace Machine

variable {s : State} {r : Request} {F : Frame} {a tc : Byte} {d : Cell} {E : List Pattern}

/-! ## The checks of a write -/

theorem writeProtected_iff (v : Variant) : writeProtected v = true ↔ v = .ro ∨ v = .tsMicro := by
  cases v <;> simp [writeProtected]

theorem regWrite_unknownAddress (hd : s.cfg.cellAt a = none) : regWrite a tc E s = (.err .unknownAddress, s) := by
  simp [regWrite, hd]

theorem regWrite_readOnly (hd : s.cfg.cellAt a = some d) (hv : writeProtected d.variant = true) :
    regWrite a tc E s = (.err .readOnly, s) := by
  simp [regWrite, hd, hv]

theorem regWrite_typeMismatch (hd : s.cfg.cellAt a = some d) (hv : ¬ writeProtected d.variant = true)
    (htc : tc ≠ d.tcode) : regWrite a tc E s = (.err .typeMismatch, s) := by
  simp [regWrite, hd, hv, htc]

theorem regWrite_indexRange (hd : s.cfg.cellAt a = some d) (hv : ¬ writeProtected d.variant = true)
    (htc : tc = d.tcode) (hlen : E.length ≠ d.count) : regWrite a tc E s = (.err .indexRange, s) := by
  simp [regWrite, hd, hv, htc, hlen]

/-- EXEC of a WRITE does the register write and carries its result to STAMP (44_dispatch.md R160). -/
theorem exec_write {i : Instr} {res : Res} {t : State} (hreq : i.request? = some r) (hk : r.kind = .write)
    (hdisp : s.disp = .exec F) (hw : regWrite r.addr r.tc (reqElems r) s = (res, t)) :
    exec i s = .next (t.setDisp (.stamp F res)) := by
  rw [exec_of_request hreq, requestStep, hdisp]
  simp only [execPhase_eq, if_pos hk, hw]

/-- Settles O26: each failing check of the write leaves the state as it is. -/
theorem aFailedWriteChangesNothing : Obligations.AFailedWriteChangesNothing := by
  unfold Obligations.AFailedWriteChangesNothing
  intro i r F s hreq hk hdisp
  refine ⟨fun hd => exec_write hreq hk hdisp (regWrite_unknownAddress hd), fun d hd => ⟨fun hv => ?_,
    fun hro hmicro htc => ?_, fun hro hmicro htc hcount => ?_⟩⟩
  · exact exec_write hreq hk hdisp (regWrite_readOnly hd ((writeProtected_iff _).2 hv))
  · have hv : ¬ writeProtected d.variant = true := by simp [writeProtected_iff, hro, hmicro]
    exact exec_write hreq hk hdisp (regWrite_typeMismatch hd hv htc)
  · have hv : ¬ writeProtected d.variant = true := by simp [writeProtected_iff, hro, hmicro]
    exact exec_write hreq hk hdisp (regWrite_indexRange hd hv htc (by simpa [reqElems] using hcount))

/-! ## A write to TIMESTAMP_SECOND -/

/-- A write of one U32 to TIMESTAMP_SECOND is a rebase (42_clock.md R128). -/
theorem regWrite_seconds (p : Pattern) (s : State) :
    regWrite 8 0x04 [p] s = (.ok, clockWrite (p.setWidth 32) s) := by
  unfold regWrite; rw [cellAt_seconds]; rfl

/-- Settles O32: the write is a rebase to the little-endian number of the four bytes. -/
theorem aSecondsWriteRebasesTheClock : Obligations.ASecondsWriteRebasesTheClock := by
  unfold Obligations.ASecondsWriteRebasesTheClock
  intro o b0 b1 b2 b3 residue F s hk htc hpay hres hdisp r acc target x
  set v : BitVec 32 := (Codec.decodeElement [b0, b1, b2, b3]).setWidth 32 with hv
  have hx : rebaseOffset v s = x := by
    rw [rebaseOffset, hv, Codec.decodeElement_four_toNat]; rfl
  have helems : reqElems (o.request 8) = [Codec.decodeElement [b0, b1, b2, b3]] := by
    simp only [reqElems, AddrOps.request, htc, hpay]
    have hsize : Codec.size 0x04 = 4 := by decide
    exact Codec.decodeElems_residue (B := [b0, b1, b2, b3]) residue hsize.symm (by omega)
  have hwrite : regWrite 8 o.tc (reqElems (o.request 8)) s = (.ok, clockWrite v s) := by
    rw [htc, helems, regWrite_seconds]
  refine ⟨toOffset x, fun hlo hhi => toOffset_toInt ((fitsS64_iff x).2 ⟨hlo, hhi⟩), ?_, ?_⟩
  · exact hx ▸ clockTotal_clockWrite_nonneg v s
  · exact hx ▸ exec_write rfl hk hdisp hwrite

end Machine
end Sys2Proof
end

section
/-! PROOFS. BUILD of a request to the clock's registers (42_clock.md R127, R129). -/
namespace Sys2Proof.Machine

variable {s t : State} {r : Request} {ts : Stamp}

/-- BUILD with no error of a request whose read succeeds replies with what was read (44_dispatch.md R163). -/
theorem buildPhase_of_read {tc : Byte} {E : List Pattern} (htc : r.tc = tc) (hread : regRead r.addr tc s = (.ok E, t))
    (hfit : E.length * Codec.size tc + 10 ≤ 255) :
    buildPhase r .ok ts s = .next (t.setDisp (.send (replyBytes r ts E))) := by
  subst htc
  simp only [buildPhase, hread, replyFrame_eq r E ts hfit]
  rfl

/-- BUILD of a request by another type code than its cell's makes the ERROR reply and reads nothing (43_registers.md
R142, 44_dispatch.md R166). -/
theorem buildPhase_typeMismatch {d : Cell} (hd : s.cfg.cellAt r.addr = some d) (htc : r.tc ≠ d.tcode)
    (hfit : r.payload.length ≤ 245) : buildPhase r .ok ts s = .next (s.setDisp (.send (errorBytes r ts))) := by
  obtain ⟨cause, hcause, -⟩ | ⟨cause, -, -, hb⟩ | ⟨E, t, -, hread, -⟩ := buildPhase_cases r .ok ts s
  · cases hcause
  · rw [hb, takeAccessError_eq, if_pos hfit, errorBytes_eq]
  · obtain ⟨c, hc, hc_tc, -⟩ := regRead_ok hread
    obtain rfl : d = c := Option.some.inj (hd.symm.trans hc)
    exact absurd hc_tc htc

/-- Settles O33: both cells are in every configuration, and a read of them is a read of the clock. -/
theorem timestampRegistersReplyFromTheClock : Obligations.TimestampRegistersReplyFromTheClock := by
  unfold Obligations.TimestampRegistersReplyFromTheClock
  intro o F ts s hdisp
  have hsec : exec (.regTimestampSecond o) s = buildPhase (o.request 8) .ok ts s := by
    rw [exec_of_request rfl, requestStep, hdisp]
  have hmicro : exec (.regTimestampMicro o) s = buildPhase (o.request 9) .ok ts s := by
    rw [exec_of_request rfl, requestStep, hdisp]
  rw [hsec, hmicro]
  refine ⟨fun htc => ?_, fun htc => ?_, fun htc hfit => ?_, fun htc hfit => ?_⟩
  · exact buildPhase_of_read htc (regRead_seconds s) (show 1 * Codec.size 0x04 + 10 ≤ 255 by decide)
  · exact buildPhase_of_read htc (regRead_micro s) (show 1 * Codec.size 0x02 + 10 ≤ 255 by decide)
  · exact buildPhase_typeMismatch (cellAt_seconds s.cfg) htc hfit
  · exact buildPhase_typeMismatch (cellAt_micro s.cfg) htc hfit

end Sys2Proof.Machine
end

section
/-! PROOFS. What passes the checks of the register mux: a read gives the whole tuple of its cell, each element of the
cell's width (43_registers.md R140, R142), and a write has the effect of its cell's variant: a store, the store and the
control hook, or an output level (43_registers.md R139, R145, R153). -/
namespace Sys2Proof

namespace Codec

/-- One byte is the element of its own number (40_codec.md R99). -/
theorem decodeElement_one (b : Byte) : decodeElement [b] = b.setWidth 64 := by
  apply BitVec.eq_of_toNat_eq
  simp [decodeElement, unle]

/-- Two bytes, little-endian, are a 16-bit number (40_codec.md R99). -/
theorem decodeElement_two (b0 b1 : Byte) : decodeElement [b0, b1] = BitVec.ofNat 64 (b0.toNat + 256 * b1.toNat) := by
  simp [decodeElement, unle]

/-- The elements of a U8 payload are its bytes (30_encoding.md R82). -/
theorem decodeElems_u8 (PB : List Byte) : decodeElems 0x01 PB = PB.map (·.setWidth 64) := by
  have hsize : size 0x01 = 1 := by decide
  induction PB with
  | nil => simp [decodeElems]
  | cons b PB ih =>
    have hhead := decodeElems_append (B := [b]) PB hsize.symm (hsize ▸ Nat.one_pos)
    rw [List.singleton_append] at hhead
    rw [hhead, decodeElement_one, ih, List.map_cons]

end Codec

namespace Machine

variable {s t : State} {i : Instr} {r : Request} {F : Frame} {a tc : Byte} {d : Cell} {E : List Pattern}

/-! ## Reads -/

/-- A read that succeeds gives a tuple of its cell's count and width (10_state.md R21, R23): a stored tuple by the
invariant, a second, a tick count or a level by its own width. -/
theorem Inv.regRead_fitsTuple (hI : Inv s) (h : Machine.regRead a tc s = (.ok E, t)) :
    ∃ d, s.cfg.cellAt a = some d ∧ tc = d.tcode ∧ fitsTuple d.tcode d.count E = true := by
  obtain ⟨d, hd, htc, hE⟩ := regRead_ok h
  have hmem : d ∈ s.cfg.cells := (cellAt_mem hd).1
  obtain ⟨hsec, hmicro, -, hpin⟩ := special_cells hmem
  refine ⟨d, hd, htc, ?_⟩
  obtain ⟨hv, rfl, -⟩ | ⟨hv, rfl, -⟩ | ⟨hv, rfl, -⟩ | ⟨p, hv, rfl, -⟩ := hE
  · exact hI.tuples d hmem hv
  · obtain ⟨hcode, hcount⟩ := hsec hv
    rw [hcode, hcount]
    exact fitsTuple_map (by decide) [(clockRead s).1.sec]
  · obtain ⟨hcode, hcount⟩ := hmicro hv
    rw [hcode, hcount]
    exact fitsTuple_map (by decide) [(clockRead s).1.ticks]
  · obtain ⟨hcode, hcount⟩ := hpin p hv
    rw [hcode, hcount]
    cases (Machine.drawPin p s).1 <;> decide

/-- Settles O22: the tuple of a read that succeeds fits its cell, and a read that fails draws nothing. -/
theorem aReadGivesTheWholeTuple : Obligations.AReadGivesTheWholeTuple := by
  unfold Obligations.AReadGivesTheWholeTuple
  intro s t a tc hI
  refine ⟨fun E hread => ?_, fun cause hread => (regRead_error hread).1⟩
  obtain ⟨d, hd, rfl, hfit⟩ := hI.regRead_fitsTuple hread
  obtain ⟨hlen, hwidth⟩ := (fitsTuple_iff _ _ _).1 hfit
  exact ⟨d, hd, rfl, hlen, hwidth⟩

/-! ## Writes that pass the checks -/

/-- A write by its cell's type code and count, to a cell that is not protected, has the effect of the cell's variant
(43_registers.md R141). -/
theorem regWrite_ok (hd : s.cfg.cellAt a = some d) (hv : writeProtected d.variant = false) (htc : tc = d.tcode)
    (hlen : E.length = d.count) : regWrite a tc E s = (.ok, writeCell d E s) := by
  simp [regWrite, hd, hv, htc, hlen]

/-- A write to an RW cell replaces its tuple (43_registers.md R139). -/
theorem regWrite_rw (hd : s.cfg.cellAt a = some d) (hv : d.variant = .rw) (htc : tc = d.tcode)
    (hlen : E.length = d.count) : regWrite a tc E s = (.ok, storeTuple a E s) := by
  obtain ⟨-, rfl⟩ := cellAt_mem hd
  rw [regWrite_ok hd (by rw [hv]; rfl) htc hlen, writeCell, hv]

/-- A write of one U8 to OPERATION_CTRL stores it and runs the hook on it (43_registers.md R145). -/
theorem regWrite_opctrl (v : Byte) (s : State) :
    regWrite 10 0x01 [v.setWidth 64] s = (.ok, controlHook v (storeTuple 10 [v.setWidth 64] s)) := by
  have hbyte : (v.setWidth 64).setWidth 8 = v := by simp
  rw [regWrite_ok (cellAt_opctrl s.cfg) rfl rfl rfl]
  simp only [writeCell, List.headD_cons, hbyte]

/-- A write of one U8 to a pin register drives its pin's output level (43_registers.md R153). -/
theorem regWrite_pin {p : Nat} (v : Pattern) (hd : s.cfg.cellAt a = some d) (hv : d.variant = .pin p) :
    regWrite a 0x01 [v] s = (.ok, s.setPinOut (keyedSet s.pinOut p (v != 0))) := by
  obtain ⟨-, -, -, hpin⟩ := special_cells (cellAt_mem hd).1
  obtain ⟨hcode, hcount⟩ := hpin p hv
  have hlen : [v].length = d.count := hcount.symm
  rw [regWrite_ok hd (by rw [hv]; rfl) hcode.symm hlen, writeCell, hv]
  rfl

/-- EXEC of a WRITE of the cell's count of elements to an RW cell stores them (44_dispatch.md R160). -/
theorem exec_write_rw (hreq : i.request? = some r) (hk : r.kind = .write) (hdisp : s.disp = .exec F)
    (hd : s.cfg.cellAt r.addr = some d) (hv : d.variant = .rw) (htc : r.tc = d.tcode) (hE : reqElems r = E)
    (hlen : E.length = d.count) :
    exec i s = .next ((s.setStore (keyedSet s.store r.addr.toNat E)).setDisp (.stamp F .ok)) := by
  subst hE
  exact exec_write hreq hk hdisp (regWrite_rw hd hv htc hlen)

/-- The elements of a U8 request are its payload bytes (30_encoding.md R82). -/
theorem reqElems_u8 (htc : r.tc = 0x01) : reqElems r = r.payload.map (·.setWidth 64) := by
  rw [reqElems, htc, Codec.decodeElems_u8]

theorem reqElems_u8_singleton {v : Byte} (htc : r.tc = 0x01) (hpay : r.payload = [v]) :
    reqElems r = [v.setWidth 64] := by
  rw [reqElems_u8 htc, hpay, List.map_singleton]

/-- A U16 request of two bytes, and at most one residue byte, has their little-endian number as its one element
(30_encoding.md R82). -/
theorem reqElems_u16_singleton {b0 b1 : Byte} {residue : List Byte} (htc : r.tc = 0x02)
    (hpay : r.payload = b0 :: b1 :: residue) (hres : residue.length ≤ 1) :
    reqElems r = [BitVec.ofNat 64 (b0.toNat + 256 * b1.toNat)] := by
  have hsize : Codec.size 0x02 = 2 := by decide
  rw [reqElems, htc, hpay, ← Codec.decodeElement_two]
  exact Codec.decodeElems_residue (B := [b0, b1]) residue hsize.symm (by omega)

/-- Settles O24: the write is a store at the cell's address, and a read of a stored cell is its tuple. -/
theorem aWriteToAnRwCellReadsBack : Obligations.AWriteToAnRwCellReadsBack := by
  unfold Obligations.AWriteToAnRwCellReadsBack
  intro o d F s hdisp hd hv htc hcount
  have hlen : (Codec.decodeElems o.tc o.payload).length = d.count := (Codec.decodeElems_length _ _).trans hcount
  have hexec := exec_write_rw (i := .write o) (r := o.request .write) rfl rfl hdisp hd hv htc rfl hlen
  refine ⟨_, hexec, rfl, ?_, fun b hb => ?_⟩
  · set t := (s.setStore (keyedSet s.store o.addr.toNat (Codec.decodeElems o.tc o.payload))).setDisp (.stamp F .ok)
    have hstored : tupleAt t o.addr = Codec.decodeElems o.tc o.payload :=
      (tupleAt_storeTuple o.addr o.addr _ s).trans (if_pos rfl)
    have hread : regRead o.addr d.tcode t = (.ok (tupleAt t o.addr), t) := regRead_stored hd (.inr (.inl hv))
    exact hstored ▸ htc ▸ hread
  · exact (tupleAt_storeTuple o.addr b _ s).trans (if_neg hb.symm)

/-- Settles O30: each of the three registers is an RW cell in every configuration, and its payload decodes to what is
stored. -/
theorem readWriteRegistersStore : Obligations.ReadWriteRegistersStore := by
  unfold Obligations.ReadWriteRegistersStore
  intro o F s hk hdisp
  refine ⟨fun b htc hpay => ?_, fun htc hpay => ?_, fun b0 b1 residue htc hpay hres => ?_⟩
  · exact exec_write_rw (r := o.request 11) (d := ⟨11, .rw, 0x01, 1⟩) rfl hk hdisp rfl rfl htc
      (reqElems_u8_singleton htc hpay) rfl
  · exact exec_write_rw (r := o.request 12) (d := ⟨12, .rw, 0x01, s.cfg.nameLen⟩) rfl hk hdisp rfl rfl htc
      (reqElems_u8 htc) ((List.length_map _).trans hpay)
  · exact exec_write_rw (r := o.request 13) (d := ⟨13, .rw, 0x02, 1⟩) rfl hk hdisp rfl rfl htc
      (reqElems_u16_singleton htc hpay hres) rfl

/-- The hook sets the enable and the arm level of the events there are by the bits of the control byte (43_registers.md
R146, 45_events.md R193). -/
theorem hookEvents_of_getElem? {v : Byte} {ds : List EventDesc} {es : List EventState} {k : Nat} {d : EventDesc}
    {ev : EventState} (hd : ds[k]? = some d) (hev : es[k]? = some ev) :
    let b := (v.toNat % 4 != 0) && (d.cls == .other || v.getLsbD 7)
    (hookEvents v ds es)[k]? = some { ev with en := b, arm := b } := by
  simp only [hookEvents_getElem?, hd, hev, setEnabled, syncEn_eq]

/-- Settles O31: the write is a store and the hook on the stored byte. -/
theorem aControlWriteRunsTheHook : Obligations.AControlWriteRunsTheHook := by
  unfold Obligations.AControlWriteRunsTheHook
  intro o v F s hk htc hpay hdisp
  have hwrite : regWrite 10 o.tc (reqElems (o.request 10)) s =
      (.ok, controlHook v (storeTuple 10 [v.setWidth 64] s)) := by
    rw [reqElems_u8_singleton htc hpay, htc, regWrite_opctrl]
  exact ⟨hookEvents v s.cfg.events s.evs, exec_write rfl hk hdisp hwrite, hookEvents_length _ _ _,
    fun k d ev hd hev => hookEvents_of_getElem? hd hev⟩

/-! ## Pin registers and application registers -/

/-- The instruction of an inbound row, in BUILD, builds the reply to its request (44_dispatch.md R161). -/
theorem exec_build {res : Res} {ts : Stamp} (hreq : i.request? = some r) (hdisp : s.disp = .build F res ts) :
    exec i s = buildPhase r res ts s := by
  rw [exec_of_request hreq, requestStep, hdisp]

/-- A byte is zero as a pattern only if it is zero. -/
theorem setWidth_bne_zero (v : Byte) : (v.setWidth 64 != (0 : Pattern)) = (v != 0) := by
  have hlt : v.toNat < 2 ^ 64 := v.isLt.trans (by decide)
  rw [Bool.eq_iff_iff, bne_iff_ne, bne_iff_ne, ne_eq, ne_eq, not_iff_not, ← BitVec.toNat_inj, ← BitVec.toNat_inj,
    BitVec.toNat_setWidth, Nat.mod_eq_of_lt hlt]
  rfl

/-- Settles O34: a pin register is a U8 cell of one element; a write drives its pin, and a read draws its level. -/
theorem pinRegistersDriveAndSample : Obligations.PinRegistersDriveAndSample := by
  unfold Obligations.PinRegistersDriveAndSample
  intro a o d p F s hd hv
  obtain ⟨-, -, -, hpin⟩ := special_cells (cellAt_mem hd).1
  refine ⟨fun htc => ⟨fun v hk hpay hdisp => ?_, fun ts hdisp => ?_⟩, fun htc ts hdisp hfit => ?_⟩
  · have hwrite : regWrite a o.tc (reqElems (o.request a)) s =
        (.ok, s.setPinOut (keyedSet s.pinOut p (v != 0))) := by
      rw [reqElems_u8_singleton htc hpay, htc, regWrite_pin _ hd hv, setWidth_bne_zero]
    exact exec_write rfl hk hdisp hwrite
  · rw [exec_build (r := o.request a) rfl hdisp]
    exact buildPhase_of_read htc (regRead_pin hd hv) (show 1 * Codec.size 0x01 + 10 ≤ 255 by decide)
  · rw [exec_build (r := o.request a) rfl hdisp]
    exact buildPhase_typeMismatch hd ((hpin p hv).1 ▸ htc) hfit

/-- Settles O35: RO and RW cells are stored cells, and a write to an RW cell is a store. -/
theorem applicationRegistersReplyAndStore : Obligations.ApplicationRegistersReplyAndStore := by
  unfold Obligations.ApplicationRegistersReplyAndStore
  intro a o d F s hd htc
  refine ⟨fun ts hv hdisp hfit => ?_, fun hv hk hdisp hcount => ?_⟩
  · have hstored : Stored d.variant := hv.imp_right .inl
    rw [exec_build (r := o.request a) rfl hdisp]
    exact buildPhase_stored ts hd hstored htc hfit
  · exact exec_write_rw (r := o.request a) rfl hk hdisp hd hv htc rfl ((Codec.decodeElems_length _ _).trans hcount)

end Machine
end Sys2Proof
end

section
/-! PROOFS. The RO cells and the map itself stay as configured for the whole run (43_registers.md R157). -/
namespace Sys2Proof.Machine

variable {s t : State}

/-! ## No step writes the configuration (10_state.md R38) -/

theorem writeCell_cfg (c : Cell) (E : List Pattern) (s : State) : (writeCell c E s).cfg = s.cfg := by
  unfold writeCell
  split
  case h_5 => exact (sampled_clockWrite _ s).cfg_eq
  all_goals rfl

theorem execPhase_cfg (r : Request) (F : Frame) (s : State) : (execPhase r F s).cfg = s.cfg := by
  rw [execPhase_eq]
  split_ifs
  · rcases hw : regWrite r.addr r.tc (reqElems r) s with ⟨res, u⟩
    obtain ⟨cause, -, rfl⟩ | ⟨c, -, -, -, -, -, rfl⟩ := regWrite_cases hw
    · rfl
    · exact writeCell_cfg c _ s
  · rfl

theorem Stepped.cfg_eq (h : Stepped s t) : t.cfg = s.cfg := by
  cases h
  case exec F r _ _ => exact execPhase_cfg r F s
  case rx h =>
    obtain ⟨bs, r, q, hrx⟩ := rxStep_frame s
    cases hrx.symm.trans h
    rfl
  case stamp => exact (sampled_clockSample s).cfg_eq
  case reply hread _ => exact (sampled_of_regRead hread).cfg_eq
  case pollServe ho => exact (sampled_of_eventOps ho).cfg_eq
  case fire ho => exact (sampled_of_eventOps ho).cfg_eq
  all_goals rfl

/-! ## No step writes an RO cell -/

/-- Addresses 0 to 7 are RO cells in every configuration (10_state.md R24). -/
theorem cellAt_ro_of_lt (c : Cfg) {a : Byte} (ha : a.toNat < 8) : ∃ d, c.cellAt a = some d ∧ d.variant = .ro := by
  have hcases : ∀ a : Byte, a.toNat < 8 → a ∈ ([0, 1, 2, 3, 4, 5, 6, 7] : List Byte) := by decide
  have hmem := hcases a ha
  simp only [List.mem_cons, List.not_mem_nil, or_false] at hmem
  obtain rfl | rfl | rfl | rfl | rfl | rfl | rfl | rfl := hmem <;> exact ⟨_, rfl, rfl⟩

/-- EXEC of a WRITE to an RO cell fails its first check (43_registers.md R136), and to another cell leaves the RO cell's
tuple. -/
theorem tupleAt_execPhase_ro {a : Byte} {d : Cell} (r : Request) (F : Frame) (hd : s.cfg.cellAt a = some d)
    (hv : d.variant = .ro) : tupleAt (execPhase r F s) a = tupleAt s a := by
  by_contra hne
  obtain ⟨hk, rfl, -⟩ := execPhase_changes hne
  have hw : regWrite r.addr r.tc (reqElems r) s = (.err .readOnly, s) :=
    regWrite_readOnly hd ((writeProtected_iff _).2 (.inl hv))
  exact hne (by rw [execPhase_eq, if_pos hk, hw, tupleAt_setDisp])

theorem Stepped.tupleAt_ro {a : Byte} {d : Cell} (h : Stepped s t) (hd : s.cfg.cellAt a = some d)
    (hv : d.variant = .ro) : tupleAt t a = tupleAt s a := by
  obtain hstore | ⟨F, r, -, -, rfl⟩ := h.store_eq
  · exact tupleAt_congr hstore
  · exact tupleAt_execPhase_ro r F hd hv

/-- Settles O55: no step writes the configuration or the tuple of an RO cell, and addresses 0 to 7 are RO cells. -/
theorem readOnlyRegistersNeverChange : Obligations.ReadOnlyRegistersNeverChange := by
  unfold Obligations.ReadOnlyRegistersNeverChange
  intro s t hstep
  obtain ⟨ms, n, hs⟩ := Stepped.of_step hstep
  have hkeep : ∀ (a : Byte) (d : Cell), s.cfg.cellAt a = some d → d.variant = .ro → tupleAt t a = tupleAt s a :=
    fun a d hd hv => hs.tupleAt_ro hd hv
  refine ⟨hs.cfg_eq, fun a ha => ?_, hkeep⟩
  obtain ⟨d, hd, hv⟩ := cellAt_ro_of_lt s.cfg ha
  exact ⟨⟨d, hd, hv⟩, hkeep a d hd hv⟩

end Sys2Proof.Machine
end

section
/-! PROOFS. The phases of a request and SEND, one at a time (44_dispatch.md R158): POP, EXEC of a request that writes
nothing, STAMP, BUILD after an access error, SEND of a reply, and the phases in which an instruction has no step. -/
namespace Sys2Proof.Machine

variable {s : State} {i : Instr} {r : Request} {F : Frame} {res : Res} {ts : Stamp}

/-! ## POP, EXEC and STAMP -/

/-- POP takes the oldest request (44_dispatch.md R159). -/
theorem popPhase_cons {q : List Frame} (hq : s.rxq = F :: q) : popPhase s = (s.setRxq q).setDisp (.exec F) := by
  simp only [popPhase, hq, queuePop]

theorem popPhase_nil (hq : s.rxq = []) : popPhase s = s := by
  simp only [popPhase, hq, queuePop]

/-- EXEC of a request that is no WRITE carries ok to STAMP (44_dispatch.md R160). -/
theorem exec_of_not_write (hreq : i.request? = some r) (hk : r.kind ≠ .write) (hdisp : s.disp = .exec F) :
    exec i s = .next (s.setDisp (.stamp F .ok)) := by
  rw [exec_of_request hreq, requestStep, hdisp]
  simp only [execPhase_eq, if_neg hk]

/-- Settles O25: each inbound row runs the phase of its request that DISP is in. -/
theorem requestsArePoppedAndStamped : Obligations.RequestsArePoppedAndStamped := by
  unfold Obligations.RequestsArePoppedAndStamped
  intro i r s hreq
  refine ⟨fun F q hdisp hq => ?_, fun F hdisp hk => exec_of_not_write hreq hk hdisp, fun F res hdisp => ?_⟩
  · rw [exec_of_request hreq, requestStep, hdisp]
    exact congrArg _ (popPhase_cons hq)
  · rw [exec_of_request hreq, requestStep, hdisp]
    rfl

/-! ## BUILD after an access error -/

/-- An access error ends in the ERROR reply of 44_dispatch.md R166 where its length `L'` is a byte, else in the sticky
fault (R168). -/
theorem takeAccessError_errorBytes (cause : Cause) (r : Request) (ts : Stamp) (s : State) :
    takeAccessError cause r ts s =
      if r.payload.length ≤ 245 then .next (s.setDisp (.send (errorBytes r ts)))
      else .next ((s.setFaultReplyLen true).setDisp .sync) := by
  rw [takeAccessError_eq, errorBytes_eq]

/-- The length of a request's frame, with the 6 bytes of a timestamp added where it has none, counts its payload
(30_encoding.md R68, 44_dispatch.md R166). -/
theorem frame_length_stamped (r : Request) :
    r.frame.length - 2 + (if r.ts.isSome then 0 else 6) = r.payload.length + 10 := by
  rw [Request.frame, Codec.wholeFrame_length]
  cases r.ts <;> simp <;> omega

/-- BUILD takes an access error if EXEC carried one, or if the read finds no cell of the request's type code
(44_dispatch.md R162, R166). -/
theorem buildPhase_of_accessError (ts : Stamp)
    (h : res ≠ .ok ∨ s.cfg.cellAt r.addr = none ∨ ∃ d, s.cfg.cellAt r.addr = some d ∧ r.tc ≠ d.tcode) :
    ∃ cause, buildPhase r res ts s = takeAccessError cause r ts s := by
  obtain ⟨cause, -, hb⟩ | ⟨cause, -, -, hb⟩ | ⟨E, t, hres, hread, -⟩ := buildPhase_cases r res ts s
  · exact ⟨cause, hb⟩
  · exact ⟨cause, hb⟩
  · obtain ⟨c, hc, htc, -⟩ := regRead_ok hread
    obtain hne | hnone | ⟨d, hd, hd_tc⟩ := h
    · exact absurd hres hne
    · exact absurd (hnone.symm.trans hc) (by simp)
    · obtain rfl : d = c := Option.some.inj (hd.symm.trans hc)
      exact absurd htc hd_tc

/-- Settles O27: BUILD takes an access error, and the payload's length decides how. -/
theorem anAccessErrorMakesAnErrorReply : Obligations.AnAccessErrorMakesAnErrorReply := by
  unfold Obligations.AnAccessErrorMakesAnErrorReply
  intro i r F res ts s hreq hdisp hfail
  obtain ⟨cause, hb⟩ := buildPhase_of_accessError ts hfail
  have hfits : r.payload.length + 10 ≤ 255 ↔ r.payload.length ≤ 245 := by omega
  rw [exec_build hreq hdisp, hb, takeAccessError_errorBytes, frame_length_stamped]
  simp only [hfits]

/-- Settles O36: with no cell, the write of EXEC and the read of BUILD both fail with UNKNOWN_ADDRESS. -/
theorem anUnmappedAddressGetsAnErrorReply : Obligations.AnUnmappedAddressGetsAnErrorReply := by
  unfold Obligations.AnUnmappedAddressGetsAnErrorReply
  intro a o F s hd
  have hreq : (Instr.regUnmapped a o).request? = some (o.request a) := rfl
  refine ⟨fun hdisp => ?_, fun res ts hdisp hfit => ?_⟩
  · by_cases hk : o.kind = .write
    · rw [if_pos hk]
      exact exec_write hreq hk hdisp (regWrite_unknownAddress hd)
    · rw [if_neg hk]
      exact exec_of_not_write hreq hk hdisp
  · obtain ⟨cause, hb⟩ := buildPhase_of_accessError (r := o.request a) (res := res) ts (.inr (.inl hd))
    rw [exec_build hreq hdisp, hb, takeAccessError_errorBytes]
    exact if_pos hfit

/-! ## BUILD with no error -/

/-- Settles O28: each messageType row is a request of its kind, and BUILD replies with the cell's tuple. -/
theorem messageRowsReplyWithTheRegister : Obligations.MessageRowsReplyWithTheRegister := by
  unfold Obligations.MessageRowsReplyWithTheRegister
  intro row hrow o d F ts s hdisp hd hv htc hfit
  have hreq : (row.1 o).request? = some (o.request row.2) := by
    simp only [List.mem_cons, List.not_mem_nil, or_false] at hrow
    obtain rfl | rfl | rfl := hrow <;> rfl
  rw [exec_build hreq hdisp]
  exact buildPhase_stored ts hd hv htc hfit

/-! ## SEND -/

/-- Outside phase SEND nothing is sent (log 17). -/
theorem sendPhase_of_not_send (mt : Byte) (o : OutOps) (h : ∀ R, s.disp ≠ .send R) : sendPhase mt o s = .next s := by
  unfold sendPhase
  cases hdisp : s.disp with
  | send R => exact absurd hdisp (h R)
  | idle => rfl
  | exec F => rfl
  | stamp F res => rfl
  | build F res ts => rfl
  | sync => rfl
  | poll k => rfl

/-- Settles O39: each of the six rows is SEND of the frame of its messageType. -/
theorem repliesAreQueued : Obligations.RepliesAreQueued := by
  unfold Obligations.RepliesAreQueued
  intro row hrow o R s hdisp hfit
  have hsend : replyInstr row.2 o = .ok (row.1 o) := by
    simp only [List.mem_cons, List.not_mem_nil, or_false] at hrow
    obtain rfl | rfl | rfl | rfl | rfl | rfl := hrow <;> rfl
  rw [exec_of_replyInstr hsend, sendPhase_eq hdisp hfit]
  rfl

/-! ## Phases without a step -/

/-- A request has no step in SEND, SYNC and POLL, nor in IDLE while no request is queued (44_dispatch.md R158, log
18). -/
theorem requestStep_of_no_step (r : Request)
    (h : (∃ R, s.disp = .send R) ∨ s.disp = .sync ∨ (∃ k, s.disp = .poll k) ∨ s.disp = .idle ∧ s.rxq = []) :
    requestStep r s = .next s := by
  unfold requestStep
  obtain ⟨R, hdisp⟩ | hdisp | ⟨k, hdisp⟩ | ⟨hdisp, hq⟩ := h <;> rw [hdisp]
  exact congrArg _ (popPhase_nil hq)

/-- Settles O41: the phases that run a request are IDLE with a frame, EXEC, STAMP and BUILD; a reply runs in SEND. -/
theorem outsideItsPhasesAnInstructionChangesNothing : Obligations.OutsideItsPhasesAnInstructionChangesNothing := by
  unfold Obligations.OutsideItsPhasesAnInstructionChangesNothing
  intro s
  refine ⟨fun i r hreq hphase => ?_, fun mk hmk o hdisp => ?_⟩
  · exact (exec_of_request hreq s).trans (requestStep_of_no_step r hphase)
  · obtain ⟨mt, hsend⟩ : ∃ mt, replyInstr mt o = .ok (mk o) := by
      simp only [List.mem_cons, List.not_mem_nil, or_false] at hmk
      obtain rfl | rfl | rfl | rfl | rfl | rfl := hmk
      exacts [⟨0x01, rfl⟩, ⟨0x02, rfl⟩, ⟨0x03, rfl⟩, ⟨0x09, rfl⟩, ⟨0x0A, rfl⟩, ⟨0x0B, rfl⟩]
    exact (exec_of_replyInstr hsend s).trans (sendPhase_of_not_send mt o hdisp)

end Sys2Proof.Machine
end

section
/-! PROOFS. A chosen agent runs the instruction that its frame decodes to (44_dispatch.md R158, 41_rxtx.md R110,
45_events.md R181). -/
namespace Sys2Proof.Machine

variable {s : State} {i : Instr} {F : Frame}

/-- DISP steps while no fire is in progress (45_events.md R191). -/
theorem agentStep_disp (hbusy : anyBusy s = false) : agentStep .disp s = dispStep s := by
  simp [agentStep, hbusy]

/-- Does DISP hold the request frame `F`, or find it at the head of `rxq` (44_dispatch.md R158)? -/
def HoldsRequest (s : State) (F : Frame) : Prop :=
  (s.disp = .idle ∧ ∃ q, s.rxq = F :: q) ∨ s.disp = .exec F ∨ (∃ res, s.disp = .stamp F res) ∨
    ∃ res ts, s.disp = .build F res ts

/-- In the phases of a request DISP runs its frame. -/
theorem HoldsRequest.dispStep_eq (h : HoldsRequest s F) : dispStep s = runRequest F s := by
  obtain ⟨hdisp, q, hq⟩ | hdisp | ⟨res, hdisp⟩ | ⟨res, ts, hdisp⟩ := h
  · simp only [dispStep, hdisp, hq]
  · simp only [dispStep, hdisp]
  · simp only [dispStep, hdisp]
  · simp only [dispStep, hdisp]

/-- The append step of a fire in progress runs the staged frame, with the fire ended (45_events.md R181). -/
theorem appendStep_of_staged {e : Nat} {ev : EventState} (hev : s.evs[e]? = some ev) (hbusy : ev.busy = true)
    (hstage : ev.stage = some F) (hdec : decodeAs .notification s.cfg F = .ok i) :
    appendStep e s = exec i (setEvent e { ev with stage := none, busy := false } s) := by
  simp [appendStep, hev, hbusy, hstage, hdec]

/-- Settles O8: the choice listed is taken, and the agent's step decodes the frame in its hands. -/
theorem aStepRunsTheDecodedInstruction : Obligations.AStepRunsTheDecodedInstruction := by
  unfold Obligations.AStepRunsTheDecodedInstruction
  intro s ms i
  refine ⟨fun F hmoves hbusy hphase hdec => ?_, fun R hmoves hbusy hdisp hdec => ?_,
    fun mt len rest hmoves hidle hrx hin hmt => ?_, fun e ev F hmoves hev hbusy hstage hdec => ?_⟩
  · have hholds : HoldsRequest (s.setMoves ms) F := hphase
    have hdec : decodeAs .request (s.setMoves ms).cfg F = .ok i := hdec
    rw [step_of_moves hmoves, agentStep_disp (by simpa using hbusy), hholds.dispStep_eq]
    simp only [runRequest, hdec]
  · rw [step_of_moves hmoves, agentStep_disp (by simpa using hbusy)]
    simp [dispStep, hdisp, runReply, hdec]
  · have hstep := agentStep_rx_second (s := s.setMoves ms) hidle hin hrx
    rw [if_neg (by simp [hmt])] at hstep
    rw [step_of_moves hmoves, hstep]
    rfl
  · rw [step_of_moves hmoves]
    exact appendStep_of_staged (s := s.setMoves ms) hev hbusy hstage hdec

end Sys2Proof.Machine
end

section
/-! PROOFS. One iteration of DISP (44_dispatch.md R158): SYNC re-applies a hook whose result stands (R170), a request in
EXEC ends in exactly one reply or in the sticky fault (R168, R172), and the polls end in IDLE (R171). -/
namespace Sys2Proof.Machine

variable {s t u : State}

/-! ## SYNC -/

/-- An event that steps leave as it is has the enable and the arm level that the hook would set (43_registers.md
R146). -/
theorem EventOk.setEnabled_eq {c : Cfg} {v : Byte} {d : EventDesc} {ev : EventState} (h : EventOk c v d ev) :
    Machine.setEnabled (syncEn d.cls v) ev = ev := by
  rw [Machine.setEnabled, ← h.en_eq]
  nth_rw 2 [← h.arm_eq]

theorem Inv.hookEvents_eq (hI : Inv s) : hookEvents (opctrl s) s.cfg.events s.evs = s.evs := by
  refine List.ext_getElem? fun k => ?_
  rw [hookEvents_getElem?]
  cases hd : s.cfg.events[k]? with
  | none => rfl
  | some d =>
    cases hev : s.evs[k]? with
    | none => rfl
    | some ev => exact congrArg some (hI.evs_ok k d ev hd hev).setEnabled_eq

/-- The hook on the control byte that stands changes nothing (43_registers.md R146, R147). -/
theorem Inv.controlHook_eq (hI : Inv s) : controlHook (opctrl s) s = s := by
  rw [controlHook, hI.hookEvents_eq, ← hI.opled_eq, ← hI.visual_eq]
  rfl

/-- Settles O44: the hook of SYNC changes nothing. -/
theorem syncReappliesWhatAlreadyStands : Obligations.SyncReappliesWhatAlreadyStands := by
  unfold Obligations.SyncReappliesWhatAlreadyStands
  intro s hI hbusy hdisp
  rw [agentStep_disp hbusy]
  simp only [dispStep, hdisp, syncPhase, hI.controlHook_eq]

/-! ## What the steps after POP leave as it is -/

/-- `t` has the configuration, the receive queue, the RX state and the fires in progress of `s`. -/
structure SameInput (s t : State) : Prop where
  cfg_eq : t.cfg = s.cfg
  rxq_eq : t.rxq = s.rxq
  rx_eq : t.rx = s.rx
  busy_eq : anyBusy t = anyBusy s

/-- Beside that, `t` has the transmit queue and the sticky fault of `s`. -/
structure SameQueues (s t : State) : Prop extends SameInput s t where
  txq_eq : t.txq = s.txq
  fault_eq : t.faultReplyLen = s.faultReplyLen

theorem SameInput.trans (h : SameInput s t) (k : SameInput t u) : SameInput s u :=
  ⟨k.cfg_eq.trans h.cfg_eq, k.rxq_eq.trans h.rxq_eq, k.rx_eq.trans h.rx_eq, k.busy_eq.trans h.busy_eq⟩

theorem SameQueues.trans (h : SameQueues s t) (k : SameQueues t u) : SameQueues s u :=
  ⟨h.toSameInput.trans k.toSameInput, k.txq_eq.trans h.txq_eq, k.fault_eq.trans h.fault_eq⟩

theorem SameQueues.refl (s : State) : SameQueues s s := ⟨⟨rfl, rfl, rfl, rfl⟩, rfl, rfl⟩

theorem SameQueues.setDisp (h : SameQueues s t) (p : DispPhase) : SameQueues s (t.setDisp p) := { h with }

theorem Sampled.sameQueues (h : Sampled s t) : SameQueues s t := by
  obtain ⟨c, ti, pi, n, rfl⟩ := h
  exact ⟨⟨rfl, rfl, rfl, rfl⟩, rfl, rfl⟩

theorem Sampled.disp_eq (h : Sampled s t) : t.disp = s.disp := by
  obtain ⟨c, ti, pi, n, rfl⟩ := h; rfl

/-- Whether a fire is in progress depends on the busy marks alone. -/
theorem anyBusy_congr (h : t.evs.map EventState.busy = s.evs.map EventState.busy) : anyBusy t = anyBusy s := by
  have hany : ∀ u : State, anyBusy u = (u.evs.map EventState.busy).any id := fun u => by simp [anyBusy]
  rw [hany, hany, h]

theorem hookEvents_map_busy (v : Byte) (ds : List EventDesc) (es : List EventState) :
    (hookEvents v ds es).map EventState.busy = es.map EventState.busy := by
  induction ds generalizing es with
  | nil => rfl
  | cons d ds ih =>
    cases es with
    | nil => rfl
    | cons e es => simp [hookEvents, ih, setEnabled]

/-- A change of an event that keeps its busy mark. -/
theorem anyBusy_setEvent {e : Nat} {ev ev' : EventState} (hev : s.evs[e]? = some ev) (hbusy : ev'.busy = ev.busy) :
    anyBusy (setEvent e ev' s) = anyBusy s := by
  refine anyBusy_congr (List.ext_getElem? fun k => ?_)
  by_cases hk : e = k
  · subst hk
    obtain ⟨hlt, rfl⟩ := List.getElem?_eq_some_iff.1 hev
    simp [setEvent, hlt, hbusy]
  · simp [setEvent, List.getElem?_set_ne hk]

/-! ## A request in EXEC -/

/-- A write that passed its checks changes no queue (43_registers.md R139, R145, R153; 42_clock.md R128). -/
theorem writeCell_sameQueues (c : Cell) (E : List Pattern) (s : State) : SameQueues s (writeCell c E s) := by
  unfold writeCell
  cases c.variant with
  | ro => exact .refl s
  | tsMicro => exact .refl s
  | rw => exact ⟨⟨rfl, rfl, rfl, rfl⟩, rfl, rfl⟩
  | opctrl => exact ⟨⟨rfl, rfl, rfl, anyBusy_congr (hookEvents_map_busy _ _ _)⟩, rfl, rfl⟩
  | tsSec => exact (sampled_clockWrite _ s).sameQueues
  | pin p => exact ⟨⟨rfl, rfl, rfl, rfl⟩, rfl, rfl⟩

/-- EXEC changes no queue and goes to STAMP (44_dispatch.md R160). -/
theorem execPhase_sameQueues (r : Request) (F : Frame) (s : State) :
    SameQueues s (execPhase r F s) ∧ ∃ res, (execPhase r F s).disp = .stamp F res := by
  rw [execPhase_eq]
  split_ifs
  · refine ⟨.setDisp ?_ _, _, rfl⟩
    rcases hw : regWrite r.addr r.tc (reqElems r) s with ⟨res, u⟩
    obtain ⟨cause, -, rfl⟩ | ⟨c, -, -, -, -, -, rfl⟩ := regWrite_cases hw
    · exact .refl _
    · exact writeCell_sameQueues c _ s
  · exact ⟨(SameQueues.refl s).setDisp _, _, rfl⟩

/-- STAMP changes no queue (44_dispatch.md R165). -/
theorem stampPhase_sameQueues (F : Frame) (res : Res) (s : State) : SameQueues s (stampPhase F res s) :=
  (sampled_clockSample s).sameQueues.setDisp _

/-- Is `R` a reply or an ERROR reply to `r`, by its messageType and its address (44_dispatch.md R163, R166)? -/
def RepliesTo (r : Request) (R : Frame) : Prop :=
  (R[0]? = some r.kind.byte ∨ R[0]? = some (r.kind.byte ||| 0x08)) ∧ R[2]? = some r.addr

/-- BUILD that goes on changes no queue and puts a reply to the request into SEND, or sets the sticky fault of a
request too long for its ERROR reply (44_dispatch.md R161 to R168). -/
theorem Inv.buildPhase_next {r : Request} {res : Res} {ts : Stamp} (hI : Inv s)
    (h : buildPhase r res ts s = .next t) :
    (∃ R, t.disp = .send R ∧ RepliesTo r R ∧ SameQueues s t) ∨
      (t = (s.setFaultReplyLen true).setDisp .sync ∧ 245 < r.payload.length) := by
  obtain ⟨hlen, rfl⟩ | ⟨-, rfl⟩ | ⟨E, u, R, hread, hR, rfl⟩ := Machine.buildPhase_next h
  · exact .inr ⟨rfl, hlen⟩
  · exact .inl ⟨_, rfl, ⟨.inr rfl, rfl⟩, (SameQueues.refl s).setDisp _⟩
  · rw [replyFrame_eq r E ts (hI.regRead_fits hread)] at hR
    cases hR
    exact .inl ⟨_, rfl, ⟨.inl rfl, rfl⟩, (sampled_of_regRead hread).sameQueues.setDisp _⟩

/-- SEND of a reply appends it as it is (44_dispatch.md R169): what is built from its fields is the frame itself. -/
theorem runReply_eq {R : Frame} (hdisp : s.disp = .send R) (hR : IsReply s.cfg R) :
    runReply R s = .next ((appendTx R s).setDisp .sync) := by
  obtain ⟨i, hi⟩ := hR
  obtain ⟨mt, o, hdec, hrow, hfit⟩ := decodeAs_reply_ok hi
  simp only [runReply, hi]
  rw [exec_of_replyInstr hrow, sendPhase_eq hdisp hfit, frame_of_decodeOut hdec]

/-- DISP takes the next phase of the request that it holds. -/
theorem agentStep_disp_request {F : Frame} {r : Request} (hbusy : anyBusy s = false) (hholds : HoldsRequest s F)
    (hF : decodeRequest F = .ok r) : agentStep .disp s = requestStep r s := by
  rw [agentStep_disp hbusy, hholds.dispStep_eq, runRequest_eq hF]

/-- EXEC and STAMP are two DISP steps that change no queue and end in BUILD (44_dispatch.md R160, R165). -/
theorem agentSteps_to_build {F : Frame} {r : Request} (hI : Inv s) (hbusy : anyBusy s = false)
    (hdisp : s.disp = .exec F) (hF : decodeRequest F = .ok r) :
    ∃ t res ts, (∀ n, agentSteps .disp (n + 2) s = agentSteps .disp n t) ∧ t.disp = .build F res ts ∧ Inv t ∧
      SameQueues s t := by
  obtain ⟨hsame, res, hstamp⟩ := execPhase_sameQueues r F s
  have hexec : agentStep .disp s = .next (execPhase r F s) := by
    rw [agentStep_disp_request hbusy (.inr (.inl hdisp)) hF, requestStep, hdisp]
  have hbusy' : anyBusy (execPhase r F s) = false := hsame.busy_eq.trans hbusy
  have hnext : agentStep .disp (execPhase r F s) = .next (stampPhase F res (execPhase r F s)) := by
    rw [agentStep_disp_request hbusy' (.inr (.inr (.inl ⟨res, hstamp⟩))) hF, requestStep, hstamp]
  refine ⟨_, res, _, fun n => (agentSteps_succ hexec).trans (agentSteps_succ hnext), rfl, ?_,
    hsame.trans (stampPhase_sameQueues F res _)⟩
  exact (hI.stepped (.of_agentStep hexec)).stepped (.of_agentStep hnext)

/-- Settles O42: EXEC, STAMP and BUILD change no queue, and then SEND appends the one reply, unless BUILD took the
overflow of its ERROR reply. -/
theorem everyRequestGetsExactlyOneReply : Obligations.EveryRequestGetsExactlyOneReply := by
  unfold Obligations.EveryRequestGetsExactlyOneReply
  intro s F r hI hbusy hdisp hF
  obtain ⟨b, res, ts, htwo, hbuild, hIb, hsame⟩ := agentSteps_to_build hI hbusy hdisp hF
  have hbusy_b : anyBusy b = false := hsame.busy_eq.trans hbusy
  have hstep : agentStep .disp b = buildPhase r res ts b := by
    rw [agentStep_disp_request hbusy_b (.inr (.inr (.inr ⟨res, ts, hbuild⟩))) hF, requestStep, hbuild]
  obtain ⟨u, hu⟩ := hIb.buildPhase_goesOn r res ts
  obtain ⟨R, hsend, ⟨hmt, haddr⟩, hsame_u⟩ | ⟨rfl, hlong⟩ := hIb.buildPhase_next hu
  · have hall := hsame.trans hsame_u
    have hIu : Inv u := hIb.stepped (.of_agentStep (hstep.trans hu))
    have hphase : DispOk u.cfg (.send R) := hsend ▸ hIu.disp_ok
    have hlast : agentStep .disp u = .next ((appendTx R u).setDisp .sync) := by
      rw [agentStep_disp (hall.busy_eq.trans hbusy)]
      simp only [dispStep, hsend, runReply_eq hsend hphase]
    refine .inl ⟨(appendTx R u).setDisp .sync, R, ?_, rfl, ?_, hmt, haddr, hall.fault_eq, hall.rxq_eq, hall.rx_eq⟩
    · rw [htwo, agentSteps_succ (hstep.trans hu), agentSteps_succ hlast]
      rfl
    · change queueAppend u.cfg.txqCap u.txq R = _
      rw [hall.cfg_eq, hall.txq_eq]
  · refine .inr ⟨(b.setFaultReplyLen true).setDisp .sync, ?_, rfl, hsame.txq_eq, rfl, hlong, ?_, hsame.rxq_eq,
      hsame.rx_eq⟩
    · rw [htwo, agentSteps_succ (hstep.trans hu)]
      rfl
    · exact ts_eq_none_of_long (request_ok_of_decodeRequest hF) hlong

/-! ## The polls -/

/-- POLL(k) of an event goes to the next one and leaves the registers and the input as they are (44_dispatch.md R171,
45_events.md R184). -/
theorem pollPhase_next {k : Nat} {d : EventDesc} {ev : EventState} (hd : s.cfg.events[k]? = some d)
    (hev : s.evs[k]? = some ev) (h : pollPhase k s = .next t) :
    t.disp = .poll (k + 1) ∧ t.store = s.store ∧ SameInput s t := by
  have hclear : SameInput s (setEvent k { ev with pending := false } (s.setDisp (.poll (k + 1)))) :=
    ⟨rfl, rfl, rfl, anyBusy_setEvent (s := s.setDisp _) hev rfl⟩
  simp only [pollPhase, hd, hev] at h
  split_ifs at h
  · unfold pollService at h
    dsimp only at h
    split at h
    · cases h
      exact ⟨rfl, rfl, hclear⟩
    · split at h
      · cases h
      · rename_i o u ho
        have hu : Sampled _ u := sampled_of_eventOps ho
        obtain rfl : t = _ := notify_next h
        have happend : SameInput u (appendTx (o.frame 0x03) u) := ⟨rfl, rfl, rfl, rfl⟩
        exact ⟨hu.disp_eq, hu.store_eq, (hclear.trans hu.sameQueues.toSameInput).trans happend⟩
  · cases h
    exact ⟨rfl, rfl, ⟨rfl, rfl, rfl, rfl⟩⟩

/-- Past the last event DISP goes to IDLE (44_dispatch.md R171). -/
theorem pollPhase_end (s : State) : pollPhase s.cfg.events.length s = .next (s.setDisp .idle) := by
  simp [pollPhase]

theorem agentStep_disp_poll {k : Nat} (hbusy : anyBusy s = false) (hdisp : s.disp = .poll k) :
    agentStep .disp s = pollPhase k s := by
  rw [agentStep_disp hbusy]
  simp only [dispStep, hdisp]

/-- From POLL(k), a step for each event left and one more end in IDLE (44_dispatch.md R171). -/
theorem Inv.agentSteps_poll (hI : Inv s) (hbusy : anyBusy s = false) {k n : Nat} (hdisp : s.disp = .poll k)
    (hk : k + n = s.cfg.events.length) :
    ∃ t, agentSteps .disp (n + 1) s = .next t ∧ t.disp = .idle ∧ t.store = s.store ∧ SameInput s t := by
  induction n generalizing s k with
  | zero =>
    obtain rfl : k = s.cfg.events.length := hk
    have hend := (agentStep_disp_poll hbusy hdisp).trans (pollPhase_end s)
    exact ⟨_, agentSteps_succ hend, rfl, rfl, ⟨rfl, rfl, rfl, rfl⟩⟩
  | succ n ih =>
    have hlt : k < s.cfg.events.length := by omega
    have hlt_evs : k < s.evs.length := hI.evs_length ▸ hlt
    obtain ⟨u, hu⟩ := hI.pollPhase_goesOn k
    obtain ⟨hdisp_u, hstore, hsame⟩ :=
      pollPhase_next (List.getElem?_eq_getElem hlt) (List.getElem?_eq_getElem hlt_evs) hu
    have hstep : agentStep .disp s = .next u := (agentStep_disp_poll hbusy hdisp).trans hu
    have hk_u : k + 1 + n = u.cfg.events.length := by rw [hsame.cfg_eq]; omega
    obtain ⟨t, ht, hidle, hstore_t, hsame_t⟩ :=
      ih (hI.stepped (.of_agentStep hstep)) (hsame.busy_eq.trans hbusy) hdisp_u hk_u
    exact ⟨t, (agentSteps_succ hstep).trans ht, hidle, hstore_t.trans hstore, hsame.trans hsame_t⟩

/-- Settles O43: SYNC goes to POLL(0), and the polls end in IDLE. -/
theorem anIterationComesBackToIdle : Obligations.AnIterationComesBackToIdle := by
  unfold Obligations.AnIterationComesBackToIdle
  intro s hI hbusy hdisp
  have hsync := syncReappliesWhatAlreadyStands s hI hbusy hdisp
  have hI' : Inv (s.setDisp (.poll 0)) := hI.setDisp (Nat.zero_le _)
  obtain ⟨t, ht, hidle, hstore, hsame⟩ := hI'.agentSteps_poll (by simpa using hbusy) rfl (Nat.zero_add _)
  exact ⟨t, (agentSteps_succ hsync).trans ht, hidle, hsame.rxq_eq, hsame.rx_eq, hstore⟩

end Sys2Proof.Machine
end

section
/-! PROOFS. Events (45_events.md): what an event reports, the two steps of a fire (R180 to R182), poll ticks (R183) and
their service by DISP (R184); and the test vectors that a frame of each format decodes to. -/
namespace Sys2Proof.Machine

variable {s u : State} {e k : Nat} {d : EventDesc} {ev : EventState} {o : OutOps} {E : List Pattern} {F : Frame}

/-! ## Notifications -/

/-- Settles O40: a notification that fits is appended, whatever DISP does. -/
theorem notificationsAreQueued : Obligations.NotificationsAreQueued := by
  unfold Obligations.NotificationsAreQueued
  intro o s hfit
  exact notify_eq s hfit

/-- A notification has messageType 0x03 (45_events.md R176). -/
theorem messageType_of_notificationInstr {mt : Byte} {i : Instr} (h : notificationInstr mt o = .ok i) : mt = 0x03 := by
  unfold notificationInstr at h
  split_ifs at h with hmt
  exact hmt

/-- Running the instruction that a notification frame decodes to appends the frame itself (45_events.md R181): what is
built from its fields is the frame. -/
theorem exec_of_decodeAs_notification {c : Cfg} {i : Instr} (h : decodeAs .notification c F = .ok i) (s : State) :
    exec i s = .next (appendTx F s) := by
  obtain ⟨mt, o, hdec, hrow, hfit⟩ := decodeAs_notification_ok h
  obtain rfl := messageType_of_notificationInstr hrow
  rw [exec_of_notificationInstr hrow, notify_eq s hfit, frame_of_decodeOut hdec]

/-- Settles O46: the append step runs the staged frame, without a look at the enable. -/
theorem aStagedFrameIsAppendedEvenIfDisabled : Obligations.AStagedFrameIsAppendedEvenIfDisabled := by
  unfold Obligations.AStagedFrameIsAppendedEvenIfDisabled
  intro s e ev F hev hbusy hstage ⟨i, hi⟩
  exact (appendStep_of_staged hev hbusy hstage hi).trans (exec_of_decodeAs_notification hi _)

/-! ## What an event reports -/

/-- An event's elements are its fixed ones, or one read of its bound register (45_events.md R180). -/
theorem eventElems_source (h : eventElems d s = (.ok E, u)) :
    (∃ E0, d.src = .fixed E0 ∧ E = E0 ∧ u = s) ∨ ∃ a, d.src = .reg a ∧ regRead a d.tcode s = (.ok E, u) := by
  unfold eventElems at h
  cases hsrc : d.src with
  | fixed E0 =>
    rw [hsrc] at h
    cases h
    exact .inl ⟨_, rfl, rfl, rfl⟩
  | reg a =>
    rw [hsrc] at h
    exact .inr ⟨a, rfl, h⟩

/-- The frame of an event's operands is the event's frame (45_events.md R176). -/
theorem frame_eq_eventBytes (d : EventDesc) (ts : Stamp) (E : List Pattern) :
    OutOps.frame 0x03 ⟨d.addr, d.tcode, ts, Codec.pack d.tcode E⟩ = eventBytes d ts E := rfl

/-! ## The first step of a fire -/

/-- A trigger of an event whose fire is in progress or that is disabled does nothing (45_events.md R182, R191 (c)). -/
theorem fireStep_ignored (hev : s.evs[e]? = some ev) (h : ev.busy = true ∨ ev.en = false) :
    fireStep e s = .next s := by
  unfold fireStep
  rw [hev]
  cases s.cfg.events[e]? with
  | none => rfl
  | some d => exact if_pos (.inr (by simpa using h))

/-- Operands whose payload fits are built into their frame (40_codec.md R102, 45_events.md R176). -/
theorem builtFrame_of_fits {mt : Byte} (hfit : o.payload.length ≤ 245) :
    builtFrame mt o.addr o.tc o.stamp o.payload = some (o.frame mt) := by
  rw [builtFrame_eq, if_pos hfit, OutOps.frame]

/-- A trigger that is taken stages the frame of what the event reports (45_events.md R180). -/
theorem fireStep_taken (hd : s.cfg.events[e]? = some d) (hev : s.evs[e]? = some ev) (hkind : d.kind ≠ .poll)
    (hbusy : ev.busy = false) (hen : ev.en = true) (ho : eventOps d s = (.ok o, u)) (hfit : o.payload.length ≤ 245) :
    fireStep e s = .next (setEvent e { ev with stage := some (o.frame 0x03), busy := true } u) := by
  have htaken : ¬(d.kind = .poll ∨ ev.busy = true ∨ (!ev.en) = true) := by simp [hkind, hbusy, hen]
  simp only [fireStep, hd, hev, if_neg htaken, ho, builtFrame_of_fits hfit]

/-- Settles O45: a trigger is ignored, or reports the event's elements and then the clock. -/
theorem aFireStagesOneFrame : Obligations.AFireStagesOneFrame := by
  unfold Obligations.AFireStagesOneFrame
  intro s e d ev hI hd hev hkind
  refine ⟨fireStep_ignored hev, fun hbusy hen => ?_⟩
  obtain ⟨E, u, hE, hops, hfit⟩ := hI.eventOps_ok hd
  refine ⟨E, u, eventElems_source hE, ?_⟩
  rw [← frame_eq_eventBytes]
  exact fireStep_taken hd hev hkind hbusy hen hops hfit

/-! ## Poll ticks -/

theorem tickStep_disabled (hev : s.evs[e]? = some ev) (hen : ev.en = false) : tickStep e s = s := by
  unfold tickStep
  rw [hev]
  cases s.cfg.events[e]? with
  | none => rfl
  | some d => exact if_neg (by simp [hen])

theorem tickStep_enabled (hd : s.cfg.events[e]? = some d) (hev : s.evs[e]? = some ev) (hkind : d.kind = .poll)
    (hen : ev.en = true) : tickStep e s = setEvent e { ev with pending := true } s := by
  simp only [tickStep, hd, hev]
  exact if_pos ⟨hkind, hen⟩

/-- The step that a tick of an enabled poll-driven event is (45_events.md R183). -/
theorem agentStep_tick (hd : s.cfg.events[e]? = some d) (hev : s.evs[e]? = some ev) (hkind : d.kind = .poll)
    (hen : ev.en = true) : agentStep (.tick e) s = .next (setEvent e { ev with pending := true } s) := by
  rw [agentStep, tickStep_enabled hd hev hkind hen]

/-- An event is in the state that it was set to. -/
theorem setEvent_getElem?_self {ev' : EventState} (hev : s.evs[e]? = some ev) :
    (setEvent e ev' s).evs[e]? = some ev' := by
  have hlt : e < s.evs.length := (List.getElem?_eq_some_iff.1 hev).1
  exact List.getElem?_set_self hlt

theorem setEvent_setEvent (e : Nat) (ev ev' : EventState) (s : State) :
    setEvent e ev' (setEvent e ev s) = setEvent e ev' s := by
  simp only [setEvent, State.setEvs, List.set_set]

/-- Ticks of an enabled poll-driven event leave its pending mark set, however many they are (45_events.md R183): the
event stays enabled, and the next tick sets the mark again. -/
theorem agentSteps_tick (hd : s.cfg.events[e]? = some d) (hev : s.evs[e]? = some ev) (hkind : d.kind = .poll)
    (hen : ev.en = true) (n : Nat) :
    agentSteps (.tick e) (n + 1) s = .next (setEvent e { ev with pending := true } s) := by
  induction n generalizing s ev with
  | zero => exact agentSteps_succ (agentStep_tick hd hev hkind hen)
  | succ n ih =>
    have hd' : (setEvent e { ev with pending := true } s).cfg.events[e]? = some d := hd
    have hev' := setEvent_getElem?_self (ev' := { ev with pending := true }) hev
    rw [agentSteps_succ (agentStep_tick hd hev hkind hen), ih hd' hev' hen, setEvent_setEvent]

/-- Settles O47: the pending mark is one bit, so a second tick sets what is set. -/
theorem pollTicksMerge : Obligations.PollTicksMerge := by
  unfold Obligations.PollTicksMerge
  intro s e d ev hd hev hkind
  exact ⟨fun hen => congrArg Host.Outcome.next (tickStep_disabled hev hen), agentSteps_tick hd hev hkind⟩

/-! ## The service of a poll tick -/

/-- POLL(k) passes over an event that has no tick to serve (44_dispatch.md R171). -/
theorem pollPhase_pass (hd : s.cfg.events[k]? = some d) (hev : s.evs[k]? = some ev)
    (h : d.kind ≠ .poll ∨ ev.pending = false) : pollPhase k s = .next (s.setDisp (.poll (k + 1))) := by
  simp only [pollPhase, hd, hev]
  exact if_neg fun ⟨hkind, hpending⟩ => h.elim (· hkind) (by simp [hpending])

/-- POLL(k) of an event with a tick to serve is its service, with DISP on its way to the next event (44_dispatch.md
R171). -/
theorem pollPhase_serve (hd : s.cfg.events[k]? = some d) (hev : s.evs[k]? = some ev) (hkind : d.kind = .poll)
    (hpending : ev.pending = true) : pollPhase k s = pollService k d ev (s.setDisp (.poll (k + 1))) := by
  simp only [pollPhase, hd, hev]
  exact if_pos ⟨hkind, hpending⟩

/-- A disable between the tick and the service drops the tick (45_events.md R184). -/
theorem pollService_disabled (hen : ev.en = false) (d : EventDesc) :
    pollService e d ev s = .next (setEvent e { ev with pending := false } s) := by
  simp [pollService, hen]

/-- The service of an enabled event takes the tick and appends the frame of what the event reports (45_events.md
R184). -/
theorem pollService_enabled (hen : ev.en = true)
    (ho : eventOps d (setEvent e { ev with pending := false } s) = (.ok o, u)) (hfit : o.payload.length ≤ 245) :
    pollService e d ev s = .next (appendTx (o.frame 0x03) u) := by
  have hserved : ¬(!ev.en) = true := by simp [hen]
  simp only [pollService, if_neg hserved, ho]
  exact notify_eq u hfit

/-- A frame that is appended after samples is appended to the transmit queue from before them. -/
theorem Sampled.appendTx_eq (h : Sampled s u) (F : Frame) :
    appendTx F u = u.setTxq (queueAppend s.cfg.txqCap s.txq F) := by
  rw [appendTx, h.cfg_eq, h.sameQueues.txq_eq]

/-- Settles O48: POLL(k) ends the polls, passes over event k, drops its tick, or appends its frame. -/
theorem aPollServiceSendsOneFrame : Obligations.APollServiceSendsOneFrame := by
  unfold Obligations.APollServiceSendsOneFrame
  intro s k hbusy hdisp
  rw [agentStep_disp_poll hbusy hdisp]
  refine ⟨fun hk => hk ▸ pollPhase_end s, fun d ev hd hev => ⟨pollPhase_pass hd hev, fun hI hkind hpending => ?_⟩⟩
  have hserve := pollPhase_serve hd hev hkind hpending
  refine ⟨fun hen => hserve.trans (pollService_disabled hen d), fun hen => ?_⟩
  have hI1 : Inv (setEvent k { ev with pending := false } (s.setDisp (.poll (k + 1)))) :=
    hI.stepped (.pollClear hdisp hd hev)
  obtain ⟨E, u, hE, hops, hfit⟩ := hI1.eventOps_ok hd
  refine ⟨E, u, eventElems_source hE, ?_⟩
  rw [hserve, pollService_enabled hen hops hfit, (sampled_of_eventOps hops).appendTx_eq, frame_eq_eventBytes]
  rfl

end Sys2Proof.Machine

namespace Sys2Proof

/-! ## Frames written out -/

/-- A frame written out decodes to a well-formed instruction if it is the bytes of that instruction. -/
theorem decodeAs_of_encode_eq {c : Cfg} {fmt : Format} {F : Frame} {i : Instr} (hF : encode i = F)
    (hok : i.ok = true) (hin : i.okIn c = true) (hf : i.format? = some fmt) : decodeAs fmt c F = .ok i :=
  hF ▸ decodeAs_encode hok hin hf

/-- Settles O7: each of the five frames is the bytes of its instruction. -/
theorem writtenOutFramesDecode : Obligations.WrittenOutFramesDecode := by
  unfold Obligations.WrittenOutFramesDecode
  refine ⟨?read, ?ptU16, ?control, ?error, ?notification⟩
  case read => exact decodeAs_of_encode_eq (by decide) rfl rfl rfl
  case ptU16 => exact decodeAs_of_encode_eq (by decide) rfl rfl rfl
  case control => exact decodeAs_of_encode_eq (by decide) rfl rfl rfl
  case error => exact decodeAs_of_encode_eq (by decide) rfl rfl rfl
  case notification => exact decodeAs_of_encode_eq (by decide) rfl rfl rfl

end Sys2Proof
end

section
/-! PROOFS. What the interrupt contexts leave as it is (60_exceptions.md R205, R206), and the check before reset
(R197). -/
namespace Sys2Proof.Machine

variable {s t : State} {e : Nat}

/-! ## Reads for an event -/

theorem eventElems_clock_off (d : EventDesc) (s : State) : (eventElems d s).2.clock.off = s.clock.off := by
  unfold eventElems
  cases d.src with
  | reg a => exact regRead_clock_off a d.tcode s
  | fixed E => rfl

/-- The two samples of an event keep the offset (42_clock.md R122, 45_events.md R180). -/
theorem eventOps_clock_off (d : EventDesc) (s : State) : (eventOps d s).2.clock.off = s.clock.off := by
  have helems := eventElems_clock_off d s
  unfold eventOps
  rcases he : eventElems d s with ⟨_ | E, u⟩ <;> rw [he] at helems
  · exact helems
  · exact (clockSample_off u).trans helems

/-! ## One interrupt step -/

/-- What an interrupt step of event `e` makes of `s`: a step that is not taken changes nothing; one that is changes the
state of `e` but for its enable and arm level, the transmit queue, and what the samples of the event use up. -/
inductive InterruptStepped (e : Nat) (s : State) : State → Prop
  | ignored : InterruptStepped e s s
  | taken {ev ev' : EventState} {u : State} {q : List Frame} (hev : s.evs[e]? = some ev)
      (hkeep : (ev'.en, ev'.arm) = (ev.en, ev.arm)) (hu : Sampled s u) (hoff : u.clock.off = s.clock.off) :
      InterruptStepped e s ((setEvent e ev' u).setTxq q)

theorem InterruptStepped.of_fireStep (h : fireStep e s = .next t) : InterruptStepped e s t := by
  obtain rfl | ⟨d, ev, o, u, -, hev, -, -, -, ho, rfl⟩ := fireStep_cases h
  · exact .ignored
  · have hoff : u.clock.off = s.clock.off := by simpa [ho] using eventOps_clock_off d s
    exact .taken (q := u.txq) hev rfl (sampled_of_eventOps ho) hoff

/-- The second step of a fire that goes on does nothing, or takes the staged frame from the event and appends it
(45_events.md R181). -/
theorem appendStep_cases (h : appendStep e s = .next t) :
    t = s ∨ ∃ ev F, s.evs[e]? = some ev ∧ ev.busy = true ∧ ev.stage = some F ∧
      t = appendTx F (setEvent e { ev with stage := none, busy := false } s) := by
  unfold appendStep at h
  cases hev : s.evs[e]? with
  | none => simp only [hev] at h; cases h; exact .inl rfl
  | some ev =>
    simp only [hev] at h
    split at h
    · cases h; exact .inl rfl
    · rename_i hbusy
      split at h
      · cases h
      · rename_i F hstage
        split at h
        · rename_i i hi
          cases (exec_of_decodeAs_notification hi _).symm.trans h
          exact .inr ⟨ev, F, rfl, by simpa using hbusy, hstage, rfl⟩
        · cases h

theorem InterruptStepped.of_appendStep (h : appendStep e s = .next t) : InterruptStepped e s t := by
  obtain rfl | ⟨ev, F, hev, -, -, rfl⟩ := appendStep_cases h
  · exact .ignored
  · exact .taken hev rfl (Sampled.refl s) rfl

theorem InterruptStepped.of_tickStep (e : Nat) (s : State) : InterruptStepped e s (tickStep e s) := by
  obtain h | ⟨d, ev, -, hev, -, -, h⟩ := tickStep_cases e s <;> rw [h]
  · exact .ignored
  · exact .taken (q := s.txq) hev rfl (Sampled.refl s) rfl

/-! ## The frame -/

/-- A change of an event that keeps its enable and arm level. -/
theorem map_en_arm_set {evs : List EventState} {ev ev' : EventState} (hev : evs[e]? = some ev)
    (hkeep : (ev'.en, ev'.arm) = (ev.en, ev.arm)) :
    (evs.set e ev').map (fun ev => (ev.en, ev.arm)) = evs.map fun ev => (ev.en, ev.arm) := by
  obtain ⟨hlt, rfl⟩ := List.getElem?_eq_some_iff.1 hev
  rw [List.map_set, hkeep, ← List.map_set (f := fun ev : EventState => (ev.en, ev.arm)), List.set_getElem_self]

/-- Settles O49: each of the three steps is an `InterruptStepped`, which changes one event and the transmit queue beside
what samples use up. -/
theorem interruptStepsTouchOnlyTheirOwn : Obligations.InterruptStepsTouchOnlyTheirOwn := by
  unfold Obligations.InterruptStepsTouchOnlyTheirOwn
  intro s t e m hm h
  have hstep : InterruptStepped e s t := by
    simp only [List.mem_cons, List.not_mem_nil, or_false] at hm
    obtain rfl | rfl | rfl := hm
    · exact .of_fireStep h
    · exact .of_appendStep h
    · cases h; exact .of_tickStep e s
  cases hstep with
  | ignored => simp
  | taken hev hkeep hu hoff =>
    obtain ⟨c, ti, pi, n, rfl⟩ := hu
    exact ⟨rfl, rfl, rfl, rfl, rfl, rfl, rfl, rfl, rfl, rfl, hoff, map_en_arm_set hev hkeep,
      fun k hk => List.getElem?_set_ne hk.symm⟩

/-! ## The check before reset -/

theorem boot_of_wf {c : Cfg} (hc : c.wf = true) (r0 : Tick) : boot c r0 = .next (State.resetWith c r0) := if_pos hc

theorem boot_of_not_wf {c : Cfg} (hc : c.wf = false) (r0 : Tick) : boot c r0 = .refused .badConfig :=
  if_neg (by simp [hc])

/-- Both queues have room for a frame (00_scope.md R8 (a)). -/
theorem capacities_pos_of_wf {c : Cfg} (hc : c.wf = true) : 1 ≤ c.rxqCap ∧ 1 ≤ c.txqCap := by
  obtain ⟨hrx, htx, -⟩ := (cfg_wf_iff c).1 hc
  exact ⟨hrx, htx⟩

/-- Settles O51: boot is a case split on the check, and the check asks for a capacity of at least 1 of each queue. -/
theorem aBadConfigurationHasNoReset : Obligations.ABadConfigurationHasNoReset := by
  unfold Obligations.ABadConfigurationHasNoReset
  intro c r0
  refine ⟨(boot_of_not_wf · r0), (boot_of_wf · r0), fun hcap => Bool.eq_false_iff.2 fun hc => ?_⟩
  obtain ⟨hrx, htx⟩ := capacities_pos_of_wf hc
  omega

end Sys2Proof.Machine
end
